-- ==== Sys2Proof/Word.lean ====
section
/-!
DEFINITION. The word types of the machine: the bit vectors the spec names (00_scope.md rule R9).
-/

namespace Sys2Proof

/-- One memory or instruction byte (20_memory.md rule R50). -/
abbrev Byte := BitVec 8

/-- A linear address, and any other 64-bit register (rules R27, R28, R50). -/
abbrev Word64 := BitVec 64

/-- One 32-bit lane, a single-precision pattern (40_numerics.md rule R130). -/
abbrev Lane := BitVec 32

/-- A full vector register, 512 bits (10_state.md rule R21). -/
abbrev VReg := BitVec 512

/-- A list of bytes, lowest address first. -/
abbrev Bytes := List Byte

end Sys2Proof
end

