-- ==== Sys2Proof/Config.lean ====
section
/-!
DEFINITION. The parameters of the processor that the spec leaves open and no step changes
(00_scope.md rules R5, R7, R8; 10_state.md rule R34; 92_eei_decisions.md D2, D3, D12, D13).
-/

namespace Sys2Proof

/-- The order in which the three operands of a lane are searched for a NaN to return
(40_numerics.md rule R138, 92_eei_decisions.md D13): the configuration field `nanOrder`. -/
inductive NanOrder where
  | xyz | xzy | yxz | yzx | zxy | zyx
  deriving DecidableEq, Repr

/-- How many bits an opmask register has (10_state.md rule R23, 92_eei_decisions.md D12). -/
inductive KWidth where
  | w16 | w64
  deriving DecidableEq, Repr

/-- The processor's parameters: the three CPUID flags (rule R5), the opmask width and the NaN order.
`MAXVL` is no field of its own: rule R7 and D2 tie it to `avx512f`. -/
structure Config where
  /-- CPUID.01H:ECX[12], gates the VEX encodings (rules R5, R31). -/
  fma : Bool
  /-- CPUID.(07H,0):EBX[16], gates every EVEX encoding (rules R5, R31). -/
  avx512f : Bool
  /-- CPUID.(07H,0):EBX[31], gates the 128- and 256-bit EVEX encodings (rules R5, R31). -/
  avx512vl : Bool
  /-- Opmask width (rule R23, D12). -/
  kwidth : KWidth
  /-- Which of several NaN operands is returned (rule R138, D13). -/
  nanOrder : NanOrder
  deriving DecidableEq, Repr

/-- The spec's defaults (92_eei_decisions.md D3, D12, D13). -/
def Config.default : Config where
  fma := true
  avx512f := true
  avx512vl := true
  kwidth := .w64
  nanOrder := .xyz

end Sys2Proof
end

