-- ==== Sys2Proof/Machine/Numerics.lean ====
section
/-!
DEFINITION. The lane arithmetic of 40_numerics.md: the single-precision format (rules R130 to R132),
rounding (rules R133, R137, R143 to R145) and the lane function `FNMSUB32` (rules R135 to R142, R147).
Exact rationals are held as integers: a finite pattern's value in units of 2^-149 (every finite single
is such a multiple), and a lane's exact result in units of 2^-298.
-/

namespace Sys2Proof.Machine

/-! ### The number format -/

/-- Sign bit (rule R130). -/
def signOf (b : Lane) : Bool := b.getLsbD 31

/-- Biased exponent `e = b[30:23]` (rule R130). -/
def expOf (b : Lane) : Nat := (b.extractLsb' 23 8).toNat

/-- Fraction `f = b[22:0]` (rule R130). -/
def fracOf (b : Lane) : Nat := (b.extractLsb' 0 23).toNat

def isZero (b : Lane) : Bool := expOf b == 0 && fracOf b == 0

def isDenormal (b : Lane) : Bool := expOf b == 0 && fracOf b != 0

def isInf (b : Lane) : Bool := expOf b == 255 && fracOf b == 0

def isNaN (b : Lane) : Bool := expOf b == 255 && fracOf b != 0

/-- A NaN with `f[22] = 0` (rule R131). -/
def isSNaN (b : Lane) : Bool := isNaN b && !b.getLsbD 22

/-- The magnitude of a finite pattern in units of 2^-149 (rule R132). -/
def magnitude (b : Lane) : Nat :=
  if expOf b = 0 then fracOf b else (2 ^ 23 + fracOf b) * 2 ^ (expOf b - 1)

/-- `val(b)` of a finite pattern in units of 2^-149 (rule R132). -/
def scaledValue (b : Lane) : Int :=
  if signOf b then -(magnitude b : Int) else (magnitude b : Int)

/-- A pattern from its sign and its low 31 bits. -/
def withSign (neg : Bool) (low : BitVec 31) : Lane := BitVec.ofBool neg ++ low

/-- The QNaN "real indefinite" (rule R131). -/
def defaultNaN : Lane := 0xFFC00000#32

/-- The infinity of a sign (rule R141). -/
def infinity (neg : Bool) : Lane := withSign neg 0x7F800000#31

/-- The largest finite number of a sign (rules R132, R144). -/
def maxFinite (neg : Bool) : Lane := withSign neg 0x7F7FFFFF#31

/-- The zero of a sign (rule R142). -/
def zeroOf (neg : Bool) : Lane := withSign neg 0#31

/-! ### Rounding -/

/-- The four rounding modes (rule R133). -/
inductive RoundMode where
  | rn | rd | ru | rz
  deriving DecidableEq, Repr

/-- The encoding shared by `MXCSR.RC` and `EVEX.RC` (rule R133). -/
def RoundMode.ofBits (rc : BitVec 2) : RoundMode :=
  if rc = 0#2 then .rn else if rc = 1#2 then .rd else if rc = 2#2 then .ru else .rz

/-- `RInt(num/den, rc, neg)` of rule R137: the magnitude `num/den` of a value of sign `neg` rounded to
an integer in the direction rule R133 gives. -/
def rInt (num den : Nat) (rc : RoundMode) (neg : Bool) : Nat :=
  let lo := num / den
  let rem := num % den
  if rem = 0 then lo
  else match rc with
    | .rz => lo
    | .rd => if neg then lo + 1 else lo
    | .ru => if neg then lo else lo + 1
    | .rn =>
      if 2 * rem < den then lo
      else if den < 2 * rem then lo + 1
      else if lo % 2 = 0 then lo else lo + 1

/-- The exception flags a lane can raise (rule R232); divide-by-zero is not among them (rule R151). -/
structure FpFlags where
  ie : Bool
  de : Bool
  oe : Bool
  ue : Bool
  pe : Bool
  deriving DecidableEq, Repr

/-- The empty set of flags. -/
def FpFlags.empty : FpFlags := ⟨false, false, false, false, false⟩

/-- The union of two sets of flags. -/
def FpFlags.union (a b : FpFlags) : FpFlags :=
  ⟨a.ie || b.ie, a.de || b.de, a.oe || b.oe, a.ue || b.ue, a.pe || b.pe⟩

/-- Overflow (rule R144). -/
def overflow (neg : Bool) (rc : RoundMode) (om inexact : Bool) : Option Lane × FpFlags :=
  if om then
    let toInf := match rc with
      | .rn => true
      | .ru => !neg
      | .rd => neg
      | .rz => false
    (some (if toInf then infinity neg else maxFinite neg), { FpFlags.empty with oe := true, pe := true })
  else (none, { FpFlags.empty with oe := true, pe := inexact })

/-- Underflow (rule R145); `q` is the exact magnitude in units of 2^-298. -/
def underflow (q : Nat) (neg : Bool) (rc : RoundMode) (ftz um inexact : Bool) : Option Lane × FpFlags :=
  if um then
    if ftz then (some (zeroOf neg), { FpFlags.empty with ue := true, pe := true })
    else
      let md := rInt q (2 ^ 149) rc neg
      let lost := q % 2 ^ 149 != 0
      (some (withSign neg (BitVec.ofNat 31 md)), { FpFlags.empty with ue := lost, pe := lost })
  else (none, { FpFlags.empty with ue := true, pe := inexact })

/-- `Round32` (rule R137) of the nonzero exact value `r` in units of 2^-298. Tininess is tested after
rounding with unbounded exponent. -/
def round32 (r : Int) (rc : RoundMode) (ftz um om : Bool) : Option Lane × FpFlags :=
  let neg := decide (r < 0)
  let q := r.natAbs
  let top := q.log2
  let m := rInt (q * 2 ^ 23) (2 ^ top) rc neg
  let inexact := (q * 2 ^ 23) % 2 ^ top != 0
  let carry := m == 2 ^ 24
  let e : Int := (top : Int) - 298 + (if carry then 1 else 0)
  let sig := if carry then 2 ^ 23 else m
  if e > 127 then overflow neg rc om inexact
  else if e < -126 then underflow q neg rc ftz um inexact
  else
    (some (withSign neg (BitVec.ofNat 8 (e + 127).toNat ++ BitVec.ofNat 23 (sig - 2 ^ 23))),
      { FpFlags.empty with pe := inexact })

/-! ### The lane function -/

/-- What one lane gives: its result (none when an unmasked overflow or underflow takes it away), its
pre-computation and its post-computation flags (rule R147). -/
structure LaneResult where
  res : Option Lane
  pre : FpFlags
  post : FpFlags
  deriving DecidableEq, Repr

/-- Denormals-are-zeros (rule R135). -/
def applyDaz (daz : Bool) (b : Lane) : Lane :=
  if daz && isDenormal b then b &&& 0x80000000#32 else b

/-- A NaN made quiet (rule R138). -/
def quiet (n : Lane) : Lane := n ||| 0x00400000#32

/-- The first NaN of three operands, searched in the configured order (rule R138, D13). -/
def firstNaN (order : NanOrder) (x y z : Lane) : Option Lane :=
  let candidates := match order with
    | .xyz => [x, y, z]
    | .xzy => [x, z, y]
    | .yxz => [y, x, z]
    | .yzx => [y, z, x]
    | .zxy => [z, x, y]
    | .zyx => [z, y, x]
  candidates.find? isNaN

/-- The invalid operations without a NaN operand (rule R139): `0 * inf`, and `inf - inf`. -/
def isInvalid (x y z : Lane) : Bool :=
  (isZero x && isInf y) || (isInf x && isZero y)
    || ((isInf x || isInf y) && isInf z && (!(signOf x != signOf y)) != (!signOf z))

/-- The exact value `-(val(x)*val(y)) - val(z)` in units of 2^-298 (rules R12, R142). -/
def exactValue (x y z : Lane) : Int :=
  -(scaledValue x * scaledValue y) - scaledValue z * 2 ^ 149

/-- `FNMSUB32` after `DAZ` (rules R138 to R147). -/
def fnmsubCore (order : NanOrder) (x y z : Lane) (rc : RoundMode) (ftz um om : Bool) : LaneResult :=
  match firstNaN order x y z with
  | some n =>
    { res := some (quiet n)
      pre := { FpFlags.empty with ie := isSNaN x || isSNaN y || isSNaN z }
      post := FpFlags.empty }
  | none =>
    let ps := !(signOf x != signOf y)
    let zs := !signOf z
    if isInvalid x y z then
      { res := some defaultNaN, pre := { FpFlags.empty with ie := true }, post := FpFlags.empty }
    else
      let pre := { FpFlags.empty with de := isDenormal x || isDenormal y || isDenormal z }
      if isInf x || isInf y then { res := some (infinity ps), pre := pre, post := FpFlags.empty }
      else if isInf z then { res := some (infinity zs), pre := pre, post := FpFlags.empty }
      else
        let r := exactValue x y z
        if r = 0 then
          let likeZeros := (isZero x || isZero y) && isZero z && ps == zs
          { res := some (zeroOf (if likeZeros then ps else rc == .rd)), pre := pre, post := FpFlags.empty }
        else
          let out := round32 r rc ftz um om
          { res := out.1, pre := pre, post := out.2 }

/-- The lane function `FNMSUB32(x, y, z, rc, daz, ftz, um, om)` (rule R147), with the configuration
field `nanOrder` (D13) as its first argument. -/
def fnmsub32 (order : NanOrder) (x y z : Lane) (rc : RoundMode) (daz ftz um om : Bool) : LaneResult :=
  fnmsubCore order (applyDaz daz x) (applyDaz daz y) (applyDaz daz z) rc ftz um om

end Sys2Proof.Machine
end

