-- ==== Sys2Proof/Syntax.lean ====
section
/-!
DEFINITION. The syntax of the group: one constructor of `Instr` per row of spec/opcode_table.json
(30_encoding.md rules R96, R98). A term keeps every bit of its encoding that some rule reads, the
bits whose wrong value is `#UD` among them (rule R100), and drops the bits that rule U5 of
93_implementation_defined.md calls ignored.
-/

namespace Sys2Proof

/-- The legacy prefix bytes of rule R81: six segment overrides, the address size 67h, and the four
forbidden ones (66h, F0h, F2h, F3h). -/
inductive LegacyPrefix where
  | es | cs | ss | ds | fs | gs | addrSize | opSize | lock | repne | rep
  deriving DecidableEq, Repr

/-- What stands before the VEX or EVEX prefix: the legacy prefixes in order, then the low four bits
of each REX byte 40h to 4Fh (rules R81, R82, R99). -/
structure Prefixes where
  legacy : List LegacyPrefix
  rex : List (BitVec 4)
  deriving DecidableEq, Repr

/-- The displacement bytes of a memory operand (rule R112), as encoded. -/
inductive Disp where
  | none
  | d8 (b : BitVec 8)
  | d32 (b : BitVec 32)
  deriving DecidableEq, Repr

/-- The memory operand forms of rules R110 and R111. Register numbers are the 4-bit extended ones. -/
inductive MemForm where
  /-- `[x[r] + disp]`, `rm` neither 100b nor, without displacement, 101b. -/
  | base (r : BitVec 4) (d : Disp)
  /-- `[RIP + len + disp32]` (rule R113). -/
  | ripRel (d : BitVec 32)
  /-- SIB with a base: `[x[base] + x[index]*2^scale + disp]`; index 0100b means no index. -/
  | sib (scale : BitVec 2) (index base : BitVec 4) (d : Disp)
  /-- SIB without a base (`mod = 00b`, `SIB.base = 101b`): `[x[index]*2^scale + disp32]`. -/
  | sibNoBase (scale : BitVec 2) (index : BitVec 4) (d : BitVec 32)
  deriving DecidableEq, Repr

/-- `SRC3` of a VEX encoding (rule R93). -/
inductive VexSrc3 where
  | reg (r : BitVec 4)
  | mem (m : MemForm)
  deriving DecidableEq, Repr

/-- `SRC3` of a plain EVEX encoding (rules R90, R94): a register (`b = 0`), a full-width memory
operand (`b = 0`), or a broadcast 32-bit element (`b = 1`). -/
inductive EvexSrc3 where
  | reg (r : BitVec 5)
  | mem (m : MemForm)
  | bcst (m : MemForm)
  deriving DecidableEq, Repr

/-- The operands of a VEX row (rules R83, R93). -/
structure VexOperands where
  pre : Prefixes
  dest : BitVec 4
  src2 : BitVec 4
  src3 : VexSrc3
  deriving DecidableEq, Repr

/-- The fields all EVEX rows share (rules R87, R91, R94): prefixes, the two fixed bits as they stand
in the bytes (rule R88), the zeroing bit, the mask number, destination and second source. -/
structure EvexFields where
  pre : Prefixes
  p0bit3 : Bool
  p1bit2 : Bool
  z : Bool
  aaa : BitVec 3
  dest : BitVec 5
  src2 : BitVec 5
  deriving DecidableEq, Repr

/-- The operands of a plain EVEX row. -/
structure EvexOperands where
  f : EvexFields
  src3 : EvexSrc3
  deriving DecidableEq, Repr

/-- The operands of an embedded-rounding row (rules R90, R200): `rc` stands in the `L'L` bits. -/
structure EvexErOperands where
  f : EvexFields
  rc : BitVec 2
  src3 : BitVec 5
  deriving DecidableEq, Repr

/-- The eighteen decoder rows. The `Evex512` rows keep the bit `L` (`P2` bit 5): the row's mask tests
`L'` alone, and `L'L = 11b` is `#UD` (rules R98, R100). -/
inductive Instr where
  | vfnmsub132psVex128 (o : VexOperands)
  | vfnmsub213psVex128 (o : VexOperands)
  | vfnmsub231psVex128 (o : VexOperands)
  | vfnmsub132psVex256 (o : VexOperands)
  | vfnmsub213psVex256 (o : VexOperands)
  | vfnmsub231psVex256 (o : VexOperands)
  | vfnmsub132psEvex128 (o : EvexOperands)
  | vfnmsub213psEvex128 (o : EvexOperands)
  | vfnmsub231psEvex128 (o : EvexOperands)
  | vfnmsub132psEvex256 (o : EvexOperands)
  | vfnmsub213psEvex256 (o : EvexOperands)
  | vfnmsub231psEvex256 (o : EvexOperands)
  | vfnmsub132psEvex512 (l : Bool) (o : EvexOperands)
  | vfnmsub213psEvex512 (l : Bool) (o : EvexOperands)
  | vfnmsub231psEvex512 (l : Bool) (o : EvexOperands)
  | vfnmsub132psEvex512er (o : EvexErOperands)
  | vfnmsub213psEvex512er (o : EvexErOperands)
  | vfnmsub231psEvex512er (o : EvexErOperands)
  deriving DecidableEq, Repr

/-- Which operands are the factors and which the subtrahend: the digits of the mnemonic (rule R146). -/
inductive Form where
  | f132 | f213 | f231
  deriving DecidableEq, Repr

end Sys2Proof
end

