-- ==== Sys2Proof/WellFormed.lean ====
section
/-!
DEFINITION. Which terms of the syntax stand for bytes the model admits: the legacy-prefix rule R81
(92_eei_decisions.md D15) and the restrictions on `rm` and `SIB.base` of rules R110 and R111.
Reserved bits with the wrong value, forbidden prefixes and over-long instructions are well formed:
they decode, and their meaning is the exception of rules R100 and R102.
-/

namespace Sys2Proof

/-- The six segment-override prefixes (rule R81). -/
def LegacyPrefix.isSegment : LegacyPrefix → Bool
  | .es | .cs | .ss | .ds | .fs | .gs => true
  | .addrSize | .opSize | .lock | .repne | .rep => false

/-- The address-size prefix 67h (rule R115). -/
def LegacyPrefix.isAddrSize : LegacyPrefix → Bool
  | .addrSize => true
  | .es | .cs | .ss | .ds | .fs | .gs | .opSize | .lock | .repne | .rep => false

/-- At most one segment override and at most one 67h (rule R81, D15); forbidden prefixes may repeat. -/
def Prefixes.admitted (p : Prefixes) : Bool :=
  (p.legacy.filter LegacyPrefix.isSegment).length ≤ 1
    && (p.legacy.filter LegacyPrefix.isAddrSize).length ≤ 1

/-- The encodable memory forms: with `rm` (or `SIB.base`) 101b a displacement is required, and `rm`
100b is always the SIB form (rules R110, R111). -/
def MemForm.wf : MemForm → Bool
  | .base r d => (r.extractLsb' 0 3 != 4#3) && (d != .none || r.extractLsb' 0 3 != 5#3)
  | .ripRel _ => true
  | .sib _ _ b d => d != .none || b.extractLsb' 0 3 != 5#3
  | .sibNoBase _ _ _ => true

/-- The third operand of a VEX row is encodable. -/
def VexSrc3.wf : VexSrc3 → Bool
  | .reg _ => true
  | .mem m => m.wf

/-- The third operand of a plain EVEX row is encodable. -/
def EvexSrc3.wf : EvexSrc3 → Bool
  | .reg _ => true
  | .mem m => m.wf
  | .bcst m => m.wf

def VexOperands.wf (o : VexOperands) : Bool := o.pre.admitted && o.src3.wf

def EvexOperands.wf (o : EvexOperands) : Bool := o.f.pre.admitted && o.src3.wf

def EvexErOperands.wf (o : EvexErOperands) : Bool := o.f.pre.admitted

/-- Well-formed instructions: those that are the decoding of some bytes. -/
def Instr.wf : Instr → Bool
  | .vfnmsub132psVex128 o | .vfnmsub213psVex128 o | .vfnmsub231psVex128 o => o.wf
  | .vfnmsub132psVex256 o | .vfnmsub213psVex256 o | .vfnmsub231psVex256 o => o.wf
  | .vfnmsub132psEvex128 o | .vfnmsub213psEvex128 o | .vfnmsub231psEvex128 o => o.wf
  | .vfnmsub132psEvex256 o | .vfnmsub213psEvex256 o | .vfnmsub231psEvex256 o => o.wf
  | .vfnmsub132psEvex512 _ o | .vfnmsub213psEvex512 _ o | .vfnmsub231psEvex512 _ o => o.wf
  | .vfnmsub132psEvex512er o | .vfnmsub213psEvex512er o | .vfnmsub231psEvex512er o => o.wf

end Sys2Proof
end

