-- ==== Sys2Proof/Decode.lean ====
section
/-!
DEFINITION. The decoder of rule R99 (64-bit mode), total on any bytes, and after it the encoder,
written from the same tables (30_encoding.md rules R80 to R95, R110 to R112), and the instruction
length of rule R102. The `#UD` and `#GP` conditions that rule R99 lists after decoding stand in the
meanings (rules R170 and R190 line 1).
-/

namespace Sys2Proof

/-- Why the decoder names no instruction: the bytes are not of the group (rules R86, R97, R99; D7),
they hold a combination of allowed prefixes that rule R81 (D15) does not admit, or they end inside
an instruction. Bytes that end after the opcode byte are of the group and lack operand bytes alone; bytes
that end before it do not decide yet whether they are of the group (the order of the tests of rule R99). -/
inductive DecodeError where
  | notOfGroup
  | prefixCombination
  | truncated (ofGroup : Bool)
  deriving DecidableEq, Repr

/-! ### Prefix bytes -/

/-- The byte of a legacy prefix (rule R81). -/
def LegacyPrefix.byte : LegacyPrefix → Byte
  | .es => 0x26#8
  | .cs => 0x2E#8
  | .ss => 0x36#8
  | .ds => 0x3E#8
  | .fs => 0x64#8
  | .gs => 0x65#8
  | .addrSize => 0x67#8
  | .opSize => 0x66#8
  | .lock => 0xF0#8
  | .repne => 0xF2#8
  | .rep => 0xF3#8

/-- The legacy prefix a byte stands for, if any (rule R99, the `while` line). -/
def legacyOfByte (b : Byte) : Option LegacyPrefix :=
  if b = 0x26#8 then some .es
  else if b = 0x2E#8 then some .cs
  else if b = 0x36#8 then some .ss
  else if b = 0x3E#8 then some .ds
  else if b = 0x64#8 then some .fs
  else if b = 0x65#8 then some .gs
  else if b = 0x67#8 then some .addrSize
  else if b = 0x66#8 then some .opSize
  else if b = 0xF0#8 then some .lock
  else if b = 0xF2#8 then some .repne
  else if b = 0xF3#8 then some .rep
  else none

/-- The leading legacy prefixes and what follows them (rule R99). -/
def takeLegacy : Bytes → List LegacyPrefix × Bytes
  | [] => ([], [])
  | b :: bs =>
    match legacyOfByte b with
    | some p => (p :: (takeLegacy bs).1, (takeLegacy bs).2)
    | none => ([], b :: bs)

/-- A REX byte is 40h to 4Fh (rule R82). -/
def isRexByte (b : Byte) : Bool := b.extractLsb' 4 4 == 4#4

/-- The leading REX bytes and what follows them (rule R99: "skip REX bytes"). -/
def takeRex : Bytes → List (BitVec 4) × Bytes
  | [] => ([], [])
  | b :: bs =>
    if isRexByte b then (b.extractLsb' 0 4 :: (takeRex bs).1, (takeRex bs).2)
    else ([], b :: bs)

/-! ### ModRM, SIB, displacement (rules R92, R95, R110 to R112) -/

/-- A register number extended by one bit in front (rules R93, R110, R111). -/
def ext4 (hi : Bool) (lo : BitVec 3) : BitVec 4 := BitVec.ofBool hi ++ lo

/-- A register number extended by two bits in front (rule R94). -/
def ext5 (hi mid : Bool) (lo : BitVec 3) : BitVec 5 := BitVec.ofBool hi ++ BitVec.ofBool mid ++ lo

/-- Four displacement bytes, little-endian (rules R51, R112). -/
def takeDisp32 : Bytes → Option (BitVec 32 × Bytes)
  | b0 :: b1 :: b2 :: b3 :: bs => some (b3 ++ b2 ++ b1 ++ b0, bs)
  | _ => none

/-- The displacement that `mod` calls for: none, one byte or four (rule R110). -/
def takeDisp (mod : BitVec 2) (bs : Bytes) : Option (Disp × Bytes) :=
  if mod = 0#2 then some (.none, bs)
  else if mod = 1#2 then
    match bs with
    | b :: bs => some (.d8 b, bs)
    | [] => none
  else
    match takeDisp32 bs with
    | some (d, bs) => some (.d32 d, bs)
    | none => none

/-- The memory operand after a ModRM byte with `mod` not 11b (rules R110, R111); `none` when the
bytes end inside it. `b` and `x` are the prefix bits `B` and `X`. -/
def takeMem (mod : BitVec 2) (rm : BitVec 3) (b x : Bool) (bs : Bytes) : Option (MemForm × Bytes) :=
  if rm = 4#3 then
    match bs with
    | [] => none
    | sib :: bs =>
      if sib.extractLsb' 0 3 = 5#3 ∧ mod = 0#2 then
        match takeDisp32 bs with
        | some (d, bs) => some (.sibNoBase (sib.extractLsb' 6 2) (ext4 x (sib.extractLsb' 3 3)) d, bs)
        | none => none
      else
        match takeDisp mod bs with
        | some (d, bs) =>
          some (.sib (sib.extractLsb' 6 2) (ext4 x (sib.extractLsb' 3 3))
            (ext4 b (sib.extractLsb' 0 3)) d, bs)
        | none => none
  else if rm = 5#3 ∧ mod = 0#2 then
    match takeDisp32 bs with
    | some (d, bs) => some (.ripRel d, bs)
    | none => none
  else
    match takeDisp mod bs with
    | some (d, bs) => some (.base (ext4 b rm) d, bs)
    | none => none

/-! ### The opcode map (rules R85, R89, R96) -/

/-- The mnemonic an opcode byte selects: 9Eh, AEh, BEh (rule R96). -/
def formOfOpcode (b : Byte) : Option Form :=
  if b = 0x9E#8 then some .f132
  else if b = 0xAE#8 then some .f213
  else if b = 0xBE#8 then some .f231
  else none

/-- The VEX row of a mnemonic and the bit `L` (rule R85). -/
def vexInstr (f : Form) (l : Bool) (o : VexOperands) : Instr :=
  match f, l with
  | .f132, false => .vfnmsub132psVex128 o
  | .f213, false => .vfnmsub213psVex128 o
  | .f231, false => .vfnmsub231psVex128 o
  | .f132, true => .vfnmsub132psVex256 o
  | .f213, true => .vfnmsub213psVex256 o
  | .f231, true => .vfnmsub231psVex256 o

/-- The plain EVEX row of a mnemonic and the bits `L'` and `L` (rules R89, R90, R98). -/
def evexInstr (f : Form) (l' l : Bool) (o : EvexOperands) : Instr :=
  match f, l', l with
  | .f132, false, false => .vfnmsub132psEvex128 o
  | .f213, false, false => .vfnmsub213psEvex128 o
  | .f231, false, false => .vfnmsub231psEvex128 o
  | .f132, false, true => .vfnmsub132psEvex256 o
  | .f213, false, true => .vfnmsub213psEvex256 o
  | .f231, false, true => .vfnmsub231psEvex256 o
  | .f132, true, l => .vfnmsub132psEvex512 l o
  | .f213, true, l => .vfnmsub213psEvex512 l o
  | .f231, true, l => .vfnmsub231psEvex512 l o

/-- The embedded-rounding row of a mnemonic (rules R90, R98). -/
def evexErInstr (f : Form) (o : EvexErOperands) : Instr :=
  match f with
  | .f132 => .vfnmsub132psEvex512er o
  | .f213 => .vfnmsub213psEvex512er o
  | .f231 => .vfnmsub231psEvex512er o

/-! ### Decoding (rule R99) -/

/-- The operands after a VEX opcode byte; `p1` and `p2` are the prefix bytes 1 and 2 (rules R83, R93). -/
def decodeVexOperands (pre : Prefixes) (f : Form) (p1 p2 : Byte) :
    Bytes → Except DecodeError (Instr × Bytes)
  | [] => .error (.truncated true)
  | modrm :: bs =>
    let l := p2.getLsbD 2
    let dest := ext4 (!p1.getLsbD 7) (modrm.extractLsb' 3 3)
    let src2 := ~~~(p2.extractLsb' 3 4)
    if modrm.extractLsb' 6 2 = 3#2 then
      .ok (vexInstr f l ⟨pre, dest, src2, .reg (ext4 (!p1.getLsbD 5) (modrm.extractLsb' 0 3))⟩, bs)
    else
      match takeMem (modrm.extractLsb' 6 2) (modrm.extractLsb' 0 3) (!p1.getLsbD 5) (!p1.getLsbD 6) bs with
      | some (m, bs) => .ok (vexInstr f l ⟨pre, dest, src2, .mem m⟩, bs)
      | none => .error (.truncated true)

/-- What follows the byte C4h (rules R83, R85, R99). -/
def decodeVex (pre : Prefixes) : Bytes → Except DecodeError (Instr × Bytes)
  | [] => .error (.truncated false)
  | p1 :: bs =>
    if p1.extractLsb' 0 5 ≠ 2#5 then .error .notOfGroup
    else match bs with
      | [] => .error (.truncated false)
      | p2 :: bs =>
        if p2.extractLsb' 0 2 ≠ 1#2 ∨ p2.getLsbD 7 then .error .notOfGroup
        else match bs with
          | [] => .error (.truncated false)
          | op :: bs =>
            match formOfOpcode op with
            | none => .error .notOfGroup
            | some f => decodeVexOperands pre f p1 p2 bs

/-- The operands after an EVEX opcode byte; `p0`, `p1`, `p2` are the prefix bytes `P0`, `P1`, `P2`
(rules R87, R90, R94). -/
def decodeEvexOperands (pre : Prefixes) (f : Form) (p0 p1 p2 : Byte) :
    Bytes → Except DecodeError (Instr × Bytes)
  | [] => .error (.truncated true)
  | modrm :: bs =>
    let fields : EvexFields :=
      { pre := pre
        p0bit3 := p0.getLsbD 3
        p1bit2 := p1.getLsbD 2
        z := p2.getLsbD 7
        aaa := p2.extractLsb' 0 3
        dest := ext5 (!p0.getLsbD 4) (!p0.getLsbD 7) (modrm.extractLsb' 3 3)
        src2 := BitVec.ofBool (!p2.getLsbD 3) ++ ~~~(p1.extractLsb' 3 4) }
    let reg := ext5 (!p0.getLsbD 6) (!p0.getLsbD 5) (modrm.extractLsb' 0 3)
    if modrm.extractLsb' 6 2 = 3#2 then
      if p2.getLsbD 4 then .ok (evexErInstr f ⟨fields, p2.extractLsb' 5 2, reg⟩, bs)
      else .ok (evexInstr f (p2.getLsbD 6) (p2.getLsbD 5) ⟨fields, .reg reg⟩, bs)
    else
      match takeMem (modrm.extractLsb' 6 2) (modrm.extractLsb' 0 3) (!p0.getLsbD 5) (!p0.getLsbD 6) bs with
      | some (m, bs) =>
        .ok (evexInstr f (p2.getLsbD 6) (p2.getLsbD 5)
          ⟨fields, if p2.getLsbD 4 then .bcst m else .mem m⟩, bs)
      | none => .error (.truncated true)

/-- What follows the byte 62h (rules R87, R89, R99). -/
def decodeEvex (pre : Prefixes) : Bytes → Except DecodeError (Instr × Bytes)
  | [] => .error (.truncated false)
  | p0 :: bs =>
    if p0.extractLsb' 0 3 ≠ 2#3 then .error .notOfGroup
    else match bs with
      | [] => .error (.truncated false)
      | p1 :: bs =>
        if p1.extractLsb' 0 2 ≠ 1#2 ∨ p1.getLsbD 7 then .error .notOfGroup
        else match bs with
          | [] => .error (.truncated false)
          | p2 :: bs =>
            match bs with
            | [] => .error (.truncated false)
            | op :: bs =>
              match formOfOpcode op with
              | none => .error .notOfGroup
              | some f => decodeEvexOperands pre f p0 p1 p2 bs

/-- After the legacy prefixes and REX bytes: C4h, 62h, or not of the group (rule R99). -/
def decodeAfterPrefixes (pre : Prefixes) : Bytes → Except DecodeError (Instr × Bytes)
  | [] => .error (.truncated false)
  | b :: bs =>
    if b = 0xC4#8 then decodeVex pre bs
    else if b = 0x62#8 then decodeEvex pre bs
    else .error .notOfGroup

/-- The decoder of rule R99: the instruction at the head of the bytes, and the bytes after it.
Repeated or conflicting allowed prefixes are refused (rule R81, D15). -/
def decode (bytes : Bytes) : Except DecodeError (Instr × Bytes) :=
  let legacy := takeLegacy bytes
  let rex := takeRex legacy.2
  let pre : Prefixes := ⟨legacy.1, rex.1⟩
  if pre.admitted then decodeAfterPrefixes pre rex.2 else .error .prefixCombination

/-! ### Encoding (rules R80 to R95) -/

/-- The bytes before the VEX or EVEX prefix (rules R81, R82). -/
def Prefixes.bytes (p : Prefixes) : Bytes :=
  p.legacy.map LegacyPrefix.byte ++ p.rex.map (fun r => 4#4 ++ r)

/-- A 32-bit displacement as four bytes, lowest first (rule R112). -/
def disp32Bytes (d : BitVec 32) : Bytes :=
  [d.extractLsb' 0 8, d.extractLsb' 8 8, d.extractLsb' 16 8, d.extractLsb' 24 8]

/-- The `mod` field a displacement calls for (rule R110). -/
def Disp.mod : Disp → BitVec 2
  | .none => 0#2
  | .d8 _ => 1#2
  | .d32 _ => 2#2

def Disp.bytes : Disp → Bytes
  | .none => []
  | .d8 b => [b]
  | .d32 d => disp32Bytes d

/-- What encoding `SRC3` takes: `mod`, `rm`, the prefix bits `X` and `B` (not inverted), and the SIB
and displacement bytes (rules R92 to R95, R110 to R112). -/
structure RmEncoding where
  mod : BitVec 2
  rm : BitVec 3
  x : Bool
  b : Bool
  tail : Bytes
  deriving DecidableEq, Repr

/-- A register `SRC3`: `rm` with `B` and (EVEX) `X` in front (rules R93, R94). -/
def regRm (r : BitVec 5) : RmEncoding :=
  ⟨3#2, r.extractLsb' 0 3, r.getLsbD 4, r.getLsbD 3, []⟩

/-- A memory `SRC3` (rules R110, R111). Ignored bits are encoded as 0. -/
def MemForm.rmEncoding : MemForm → RmEncoding
  | .base r d => ⟨d.mod, r.extractLsb' 0 3, false, r.getLsbD 3, d.bytes⟩
  | .ripRel d => ⟨0#2, 5#3, false, false, disp32Bytes d⟩
  | .sib sc i b d =>
    ⟨d.mod, 4#3, i.getLsbD 3, b.getLsbD 3, (sc ++ i.extractLsb' 0 3 ++ b.extractLsb' 0 3) :: d.bytes⟩
  | .sibNoBase sc i d =>
    ⟨0#2, 4#3, i.getLsbD 3, false, (sc ++ i.extractLsb' 0 3 ++ 5#3) :: disp32Bytes d⟩

def VexSrc3.rmEncoding : VexSrc3 → RmEncoding
  | .reg r => regRm (0#1 ++ r)
  | .mem m => m.rmEncoding

def EvexSrc3.rmEncoding : EvexSrc3 → RmEncoding
  | .reg r => regRm r
  | .mem m => m.rmEncoding
  | .bcst m => m.rmEncoding

/-- `EVEX.b` of a plain row: set exactly for the broadcast form (rule R90). -/
def EvexSrc3.bBit : EvexSrc3 → Bool
  | .reg _ => false
  | .mem _ => false
  | .bcst _ => true

/-- The opcode byte of a mnemonic (rule R96). -/
def Form.opcode : Form → Byte
  | .f132 => 0x9E#8
  | .f213 => 0xAE#8
  | .f231 => 0xBE#8

/-- A VEX row's bytes: prefixes, C4h, the two payload bytes of rule R83, opcode, ModRM, tail. -/
def encodeVex (f : Form) (l : Bool) (o : VexOperands) : Bytes :=
  let e := o.src3.rmEncoding
  let p1 : Byte := BitVec.ofBool (!o.dest.getLsbD 3) ++ BitVec.ofBool (!e.x) ++ BitVec.ofBool (!e.b) ++ 2#5
  let p2 : Byte := 0#1 ++ ~~~o.src2 ++ BitVec.ofBool l ++ 1#2
  let modrm : Byte := e.mod ++ o.dest.extractLsb' 0 3 ++ e.rm
  o.pre.bytes ++ (0xC4#8 :: p1 :: p2 :: f.opcode :: modrm :: e.tail)

/-- An EVEX row's bytes: prefixes, 62h, `P0`, `P1`, `P2` of rule R87, opcode, ModRM, tail. -/
def encodeEvex (f : Form) (ll : BitVec 2) (b : Bool) (o : EvexFields) (e : RmEncoding) : Bytes :=
  let p0 : Byte := BitVec.ofBool (!o.dest.getLsbD 3) ++ BitVec.ofBool (!e.x) ++ BitVec.ofBool (!e.b)
    ++ BitVec.ofBool (!o.dest.getLsbD 4) ++ BitVec.ofBool o.p0bit3 ++ 2#3
  let p1 : Byte := 0#1 ++ ~~~(o.src2.extractLsb' 0 4) ++ BitVec.ofBool o.p1bit2 ++ 1#2
  let p2 : Byte := BitVec.ofBool o.z ++ ll ++ BitVec.ofBool b ++ BitVec.ofBool (!o.src2.getLsbD 4) ++ o.aaa
  let modrm : Byte := e.mod ++ o.dest.extractLsb' 0 3 ++ e.rm
  o.pre.bytes ++ (0x62#8 :: p0 :: p1 :: p2 :: f.opcode :: modrm :: e.tail)

/-- A plain EVEX row's bytes. -/
def encodeEvexPlain (f : Form) (ll : BitVec 2) (o : EvexOperands) : Bytes :=
  encodeEvex f ll o.src3.bBit o.f o.src3.rmEncoding

/-- An embedded-rounding row's bytes: `b = 1`, `L'L = RC`, `mod = 11b` (rules R90, R200). -/
def encodeEvexEr (f : Form) (o : EvexErOperands) : Bytes :=
  encodeEvex f o.rc true o.f (regRm o.src3)

/-- The bytes of an instruction (rules R80, R96). -/
def encode : Instr → Bytes
  | .vfnmsub132psVex128 o => encodeVex .f132 false o
  | .vfnmsub213psVex128 o => encodeVex .f213 false o
  | .vfnmsub231psVex128 o => encodeVex .f231 false o
  | .vfnmsub132psVex256 o => encodeVex .f132 true o
  | .vfnmsub213psVex256 o => encodeVex .f213 true o
  | .vfnmsub231psVex256 o => encodeVex .f231 true o
  | .vfnmsub132psEvex128 o => encodeEvexPlain .f132 0#2 o
  | .vfnmsub213psEvex128 o => encodeEvexPlain .f213 0#2 o
  | .vfnmsub231psEvex128 o => encodeEvexPlain .f231 0#2 o
  | .vfnmsub132psEvex256 o => encodeEvexPlain .f132 1#2 o
  | .vfnmsub213psEvex256 o => encodeEvexPlain .f213 1#2 o
  | .vfnmsub231psEvex256 o => encodeEvexPlain .f231 1#2 o
  | .vfnmsub132psEvex512 l o => encodeEvexPlain .f132 (1#1 ++ BitVec.ofBool l) o
  | .vfnmsub213psEvex512 l o => encodeEvexPlain .f213 (1#1 ++ BitVec.ofBool l) o
  | .vfnmsub231psEvex512 l o => encodeEvexPlain .f231 (1#1 ++ BitVec.ofBool l) o
  | .vfnmsub132psEvex512er o => encodeEvexEr .f132 o
  | .vfnmsub213psEvex512er o => encodeEvexEr .f213 o
  | .vfnmsub231psEvex512er o => encodeEvexEr .f231 o

/-! ### Length (rule R102) -/

/-- Displacement bytes: 0, 1 or 4. -/
def Disp.length : Disp → Nat
  | .none => 0
  | .d8 _ => 1
  | .d32 _ => 4

/-- SIB and displacement bytes of a memory operand. -/
def MemForm.length : MemForm → Nat
  | .base _ d => d.length
  | .ripRel _ => 4
  | .sib _ _ _ d => 1 + d.length
  | .sibNoBase _ _ _ => 1 + 4

def VexSrc3.length : VexSrc3 → Nat
  | .reg _ => 0
  | .mem m => m.length

def EvexSrc3.length : EvexSrc3 → Nat
  | .reg _ => 0
  | .mem m => m.length
  | .bcst m => m.length

/-- Bytes before the VEX or EVEX prefix. -/
def Prefixes.length (p : Prefixes) : Nat := p.legacy.length + p.rex.length

/-- Length of a VEX row: prefixes, 3, opcode, ModRM, SIB and displacement. -/
def VexOperands.length (o : VexOperands) : Nat := o.pre.length + 3 + 1 + 1 + o.src3.length

/-- Length of a plain EVEX row: prefixes, 4, opcode, ModRM, SIB and displacement. -/
def EvexOperands.length (o : EvexOperands) : Nat := o.f.pre.length + 4 + 1 + 1 + o.src3.length

/-- Length of an embedded-rounding row: no SIB or displacement. -/
def EvexErOperands.length (o : EvexErOperands) : Nat := o.f.pre.length + 4 + 1 + 1

/-- `len` of rule R102. -/
def Instr.length : Instr → Nat
  | .vfnmsub132psVex128 o | .vfnmsub213psVex128 o | .vfnmsub231psVex128 o => o.length
  | .vfnmsub132psVex256 o | .vfnmsub213psVex256 o | .vfnmsub231psVex256 o => o.length
  | .vfnmsub132psEvex128 o | .vfnmsub213psEvex128 o | .vfnmsub231psEvex128 o => o.length
  | .vfnmsub132psEvex256 o | .vfnmsub213psEvex256 o | .vfnmsub231psEvex256 o => o.length
  | .vfnmsub132psEvex512 _ o | .vfnmsub213psEvex512 _ o | .vfnmsub231psEvex512 _ o => o.length
  | .vfnmsub132psEvex512er o | .vfnmsub213psEvex512er o | .vfnmsub231psEvex512er o => o.length

/-! ### The opcode table's words -/

/-- The low `nbits` bits of `w` as fifteen bytes (the longest instruction, rule R102), bit 0 of `w`
the least significant bit of the first byte, every bit above `nbits` zero. -/
def tableWordBytes (nbits w : Nat) : Bytes :=
  (List.range 15).map fun k => BitVec.ofNat 8 ((w % 2 ^ nbits) >>> (8 * k))

/-- The instruction the decoder reads from a word numbered as spec/opcode_table.json numbers it. -/
def decodeTableWord (nbits w : Nat) : Option Instr :=
  match decode (tableWordBytes nbits w) with
  | .ok (i, _) => some i
  | .error _ => none

end Sys2Proof
end

