-- ==== Sys2Proof/Machine/State.lean ====
section
/-!
DEFINITION. The machine's state as plain data (10_state.md rule R20, with the parameters of the step
relation of rule R34 beside it), the reasons a step can stop, and the state after reset (rule R35).
-/

namespace Sys2Proof.Machine

/-- The memory map (20_memory.md rules R59, R61; D10): the readable bytes with their values. An
address that is not listed is outside the map. -/
structure MemMap where
  /-- Readable bytes, addresses strictly rising (see `MemMap.wf`). -/
  cells : List Host.Cell
  /-- The bit `P` of a page-fault code, a parameter of the map, default 0 (rule R229, D10). -/
  pBit : Bool
  /-- The bit `RSVD` of a page-fault code, on which rule R229 says nothing but its place: a parameter of
  the map too (log entry 10). -/
  rsvdBit : Bool
  /-- Addresses marked as having read side effects; a map that marks any is refused (rule R58, D10). -/
  device : List Nat
  deriving DecidableEq, Repr

/-- The program the launch gives: an immutable byte string placed at an address (rules R67, R69; D11). -/
structure Program where
  base : Word64
  bytes : Bytes
  deriving DecidableEq, Repr

/-- The operating modes the spec names (rules R6, R122, R261; D1). No field of `State`: computed from
control bits by `State.mode`. -/
inductive Mode where
  | realAddress | virtual8086 | protected32 | compatibility | bits64
  deriving DecidableEq, Repr

/-- The machine's state. -/
structure State where
  /-- Vector registers `V[0..31]` (rule R21). -/
  v : Vector VReg 32
  /-- Opmask registers `K[0..7]` (rule R23). -/
  k : Vector Word64 8
  /-- SIMD control and status register (rule R24). -/
  mxcsr : BitVec 32
  /-- Instruction pointer (rule R27). -/
  rip : Word64
  /-- General registers `x[0..15]` (rule R28). -/
  x : Vector Word64 16
  /-- `FS.base` (rule R29). -/
  fsBase : Word64
  /-- `GS.base` (rule R29). -/
  gsBase : Word64
  /-- `CS.base` (rule R35); treated as zero in 64-bit mode (rule R29). Its width is a DESIGN CHOICE: rule
  R35 gives a reset value and no width; 64 bits, as rule R29 gives `FS.base` and `GS.base` (log entry 22). -/
  csBase : Word64
  /-- `RFLAGS`, consulted in `AC` and `VM` (rules R30, R31). -/
  rflags : Word64
  /-- `CR0`, consulted in `PE`, `TS`, `AM` (rule R31). -/
  cr0 : Word64
  /-- `CR4`, consulted in `OSXMMEXCPT`, `OSXSAVE` (rule R31). -/
  cr4 : Word64
  /-- `XCR0`, consulted in bits 1, 2, 5, 6, 7 (rule R31). -/
  xcr0 : Word64
  /-- Current privilege level (rules R31, R241). -/
  cpl : BitVec 2
  /-- Long mode is active (rule R263, first row). -/
  longMode : Bool
  /-- `CS.L` (rule R263, first row). -/
  csL : Bool
  /-- The memory map (rules R32, R59). Where an address of the map is also an address of the program, the
  byte there is the program's (rule R50; `State.byteAt`). -/
  mem : MemMap
  /-- The program bytes (rule R34, D11). -/
  prog : Program
  /-- The processor's parameters (rules R5, R8, R34). -/
  cfg : Config
  deriving DecidableEq, Repr

/-- The seven exceptions of the group (60_exceptions.md rule R220). Each is the outcome of a step and
carries what rule R234 records: the error code where there is one, the faulting address of `#PF`, and
the state at the fault (rule R238). All are raised by the meanings through `takeException`; `gp` is
also raised by the fetch. Each is safe: it is the spec's own outcome, and the run ends there (D8). -/
inductive Fault where
  /-- `#UD`, invalid opcode, vector 6, no error code (rules R222 to R225). Safe. -/
  | ud (at_ : State)
  /-- `#NM`, device not available, vector 7, no error code (rule R226). Safe. -/
  | nm (at_ : State)
  /-- `#SS`, stack-segment fault, vector 12 (rule R227). Safe. -/
  | ss (code : BitVec 32) (at_ : State)
  /-- `#GP`, general protection, vector 13 (rule R228). Safe. -/
  | gp (code : BitVec 32) (at_ : State)
  /-- `#PF`, page fault, vector 14, with the faulting linear address (rule R229). Safe. -/
  | pf (code : BitVec 32) (addr : Word64) (at_ : State)
  /-- `#AC`, alignment check, vector 17 (rule R230). Safe. -/
  | ac (code : BitVec 32) (at_ : State)
  /-- `#XM`, SIMD floating-point exception, vector 19, no error code (rule R231). Safe. -/
  | xm (at_ : State)
  deriving DecidableEq, Repr

/-- What the model refuses, as the spec asks a model to refuse it, and the end of the program. Each carries
the state the run ends with: the state before the refused step, whose `RIP` is where it was refused (rule
R269 b), or the state at the end of the program (rule R269 c). A refusal makes every claim about the run
unprovable, so each is safe (00_scope.md rule R15). -/
inductive Refusal where
  /-- An arm of `exec` that has no meaning yet. None is left. Safe. -/
  | notModelled (mnemonic : String)
  /-- The bytes at `RIP` are no instruction of the group (rules R86, R97, R99; D7). Raised by `step`. Safe. -/
  | notOfGroup (at_ : State)
  /-- Repeated or conflicting allowed prefixes (rule R81; D15). Raised by `step`. Safe. -/
  | prefixCombination (at_ : State)
  /-- A memory operand runs past `FFFFFFFFFFFFFFFFh` (rule R70; D6). Raised by the meanings. Safe. -/
  | operandWraps (at_ : State)
  /-- An instruction runs past `FFFFFFFFFFFFFFFFh` (rules R27, R70; D6). Raised by `step`. Safe. -/
  | instructionWraps (at_ : State)
  /-- An operating mode the spec gives no rules for (rules R6, R122; D1). Raised by `step` in every mode
  other than 64-bit, and by the meanings in 32-bit protected and compatibility mode. Safe. -/
  | unsupportedMode (at_ : State)
  /-- `MXCSR[31:16]` is not zero at launch (rule R26; U14). Raised by `step`. Safe. -/
  | mxcsrReserved (at_ : State)
  /-- The memory map marks an address as device memory (rule R58; D10, U20). Raised by `step`. Safe. -/
  | deviceMemory (at_ : State)
  /-- `RIP` is the first address past the program bytes: the run has ended, and its result is the state
  carried (rule R269 c; D11). Raised by `step`. Safe. -/
  | endOfProgram (at_ : State)
  /-- The program bytes end inside an instruction (rules R69, R263). Raised by `step`. Safe. -/
  | truncatedProgram (at_ : State)
  /-- `RIP` is not an address of the program (rule R69; D11). Raised by `step`. Safe. -/
  | outsideProgram (at_ : State)
  deriving DecidableEq, Repr

/-- The outcome of a step of this machine. -/
abbrev Result := Host.Outcome State Fault Refusal

/-- The state right after power-up or RESET (10_state.md rule R35). `x[2]` (`rdx`) holds a processor
signature the spec does not give: DESIGN CHOICE 0, unsafe (log entry 2). `longMode` and `csL`: DESIGN
CHOICE false (log entry 3). Memory unspecified: nothing listed (log entry 9). No program (log entry 1). -/
def State.reset : State where
  v := Vector.replicate 32 0#512
  k := Vector.replicate 8 0#64
  mxcsr := 0x00001F80#32
  rip := 0x000000000000FFF0#64
  x := Vector.replicate 16 0#64
  fsBase := 0#64
  gsBase := 0#64
  csBase := 0x00000000FFFF0000#64
  rflags := 0x0000000000000002#64
  cr0 := 0x0000000060000010#64
  cr4 := 0#64
  xcr0 := 1#64
  cpl := 0#2
  longMode := false
  csL := false
  mem := { cells := [], pBit := false, rsvdBit := false, device := [] }
  prog := { base := 0#64, bytes := [] }
  cfg := Config.default

end Sys2Proof.Machine
end

