-- ==== Sys2Proof/Machine/Flags.lean ====
section
/-!
DEFINITION. `MXCSR`: its fields (10_state.md rule R24), how lane flags are gathered, and the protocol
`PackedFPReport` that updates it or finds an unmasked exception (40_numerics.md rules R148, R149).
-/

namespace Sys2Proof.Machine

/-! ### Fields of `MXCSR` (rule R24) -/

def mxcsrIE (m : BitVec 32) : Bool := m.getLsbD 0
def mxcsrDE (m : BitVec 32) : Bool := m.getLsbD 1
def mxcsrZE (m : BitVec 32) : Bool := m.getLsbD 2
def mxcsrOE (m : BitVec 32) : Bool := m.getLsbD 3
def mxcsrUE (m : BitVec 32) : Bool := m.getLsbD 4
def mxcsrPE (m : BitVec 32) : Bool := m.getLsbD 5
def mxcsrDAZ (m : BitVec 32) : Bool := m.getLsbD 6
def mxcsrIM (m : BitVec 32) : Bool := m.getLsbD 7
def mxcsrDM (m : BitVec 32) : Bool := m.getLsbD 8
def mxcsrZM (m : BitVec 32) : Bool := m.getLsbD 9
def mxcsrOM (m : BitVec 32) : Bool := m.getLsbD 10
def mxcsrUM (m : BitVec 32) : Bool := m.getLsbD 11
def mxcsrPM (m : BitVec 32) : Bool := m.getLsbD 12
def mxcsrRC (m : BitVec 32) : BitVec 2 := m.extractLsb' 13 2
def mxcsrFTZ (m : BitVec 32) : Bool := m.getLsbD 15

/-- The reserved bits 31:16 (rule R26). -/
def mxcsrReservedBits (m : BitVec 32) : BitVec 16 := m.extractLsb' 16 16

/-! ### Flag sets and `MXCSR` -/

/-- A set of flags at its places in `MXCSR` (rules R24, R232); `ZE` (bit 2) is never among them. -/
def FpFlags.bits (f : FpFlags) : BitVec 32 :=
  0#26 ++ BitVec.ofBool f.pe ++ BitVec.ofBool f.ue ++ BitVec.ofBool f.oe ++ 0#1
    ++ BitVec.ofBool f.de ++ BitVec.ofBool f.ie

/-- `MXCSR OR F`: flags are only ever set (rule R25). -/
def setFlags (m : BitVec 32) (f : FpFlags) : BitVec 32 := m ||| f.bits

/-- Some member of the set has its mask bit clear (rule R148: `unmasked(F) != {}`). -/
def unmasked (m : BitVec 32) (f : FpFlags) : Bool :=
  (f.ie && !mxcsrIM m) || (f.de && !mxcsrDM m) || (f.oe && !mxcsrOM m)
    || (f.ue && !mxcsrUM m) || (f.pe && !mxcsrPM m)

/-- The union of the flags of the enabled lanes below `kl` (rule R148: `PRE`, `POST`). -/
def gatherFlags (kl : Nat) (en : Nat → Bool) (flags : Nat → FpFlags) : FpFlags :=
  ((List.range kl).filter en).foldl (fun acc j => acc.union (flags j)) FpFlags.empty

/-- What `PackedFPReport` answers: the lanes are delivered, or there is an unmasked SIMD
floating-point exception; either way with the new `MXCSR`. -/
inductive FpReport where
  | deliver (mxcsr : BitVec 32)
  | trap (mxcsr : BitVec 32)
  deriving DecidableEq, Repr

/-- `PackedFPReport` (rules R148, R149). -/
def packedFPReport (sae : Bool) (m : BitVec 32) (pre post : FpFlags) : FpReport :=
  if sae then .deliver m
  else if unmasked m pre then .trap (setFlags m pre)
  else if unmasked m post then .trap (setFlags m (pre.union post))
  else .deliver (setFlags m (pre.union post))

end Sys2Proof.Machine
end

