-- ==== Sys2Proof/Machine/Ops.lean ====
section
/-!
DEFINITION. The named operations over registers and memory (10_state.md, 20_memory.md), the control
bits the exception checks consult (rule R31), and taking an exception as one operation
(60_exceptions.md rules R220, R229, R234, R238). The group has no return from an exception (rule R239).
-/

namespace Sys2Proof.Machine

/-! ### Lanes of a vector (rules R10, R14) -/

/-- Lane `j` of a vector: bits `[32j+31:32j]`. -/
def lane (v : VReg) (j : Nat) : Lane := v.extractLsb' (32 * j) 32

/-- The vector whose lanes below `kl` are `f 0`, `f 1`, … and whose other bits are zero. -/
def packLanes : Nat → (Nat → Lane) → VReg
  | 0, _ => 0#512
  | kl + 1, f => packLanes kl f ||| ((f kl).setWidth 512 <<< (32 * kl))

/-! ### Registers -/

/-- `V[r]` (rule R21). -/
def State.vreg (s : State) (r : BitVec 5) : VReg := s.v[r.toNat]'r.isLt

/-- `V[r] <- val` (rule R21). -/
def State.setVreg (s : State) (r : BitVec 5) (val : VReg) : State :=
  { s with v := s.v.set r.toNat val r.isLt }

/-- `K[a]` (rule R23). -/
def State.opmask (s : State) (a : BitVec 3) : Word64 := s.k[a.toNat]'a.isLt

/-- `x[r]` (rule R28). -/
def State.gpr (s : State) (r : BitVec 4) : Word64 := s.x[r.toNat]'r.isLt

/-- `RIP <- RIP + len` modulo 2^64 (rule R27). -/
def State.advance (s : State) (len : Nat) : State := { s with rip := s.rip + BitVec.ofNat 64 len }

def State.setMxcsr (s : State) (m : BitVec 32) : State := { s with mxcsr := m }

/-- A four-bit VEX register number as a vector register number (rule R22). -/
def vexReg (r : BitVec 4) : BitVec 5 := r.setWidth 5

/-- `MAXVL`: 512 when AVX512F is present, else 256 (rule R7, D2). -/
def maxVL (c : Config) : Nat := if c.avx512f then 512 else 256

/-! ### Control bits (rule R31) -/

def State.cr0PE (s : State) : Bool := s.cr0.getLsbD 0
def State.cr0EM (s : State) : Bool := s.cr0.getLsbD 2
def State.cr0TS (s : State) : Bool := s.cr0.getLsbD 3
def State.cr0AM (s : State) : Bool := s.cr0.getLsbD 18
def State.cr4OSFXSR (s : State) : Bool := s.cr4.getLsbD 9
def State.cr4OSXMMEXCPT (s : State) : Bool := s.cr4.getLsbD 10
def State.cr4OSXSAVE (s : State) : Bool := s.cr4.getLsbD 18
def State.rflagsVM (s : State) : Bool := s.rflags.getLsbD 17
def State.rflagsAC (s : State) : Bool := s.rflags.getLsbD 18

/-- `XCR0[2:1] = 11b`: SSE and AVX state enabled. -/
def State.avxEnabled (s : State) : Bool := s.xcr0.extractLsb' 1 2 == 3#2

/-- `XCR0[7:5] = 111b`: opmask, ZMM_Hi256 and Hi16_ZMM state enabled. -/
def State.avx512Enabled (s : State) : Bool := s.xcr0.extractLsb' 5 3 == 7#3

/-- The operating mode, from the bits that rules R31, R122 and R263 name for it. -/
def State.mode (s : State) : Mode :=
  if !s.cr0PE then .realAddress
  else if s.rflagsVM then .virtual8086
  else if s.longMode then (if s.csL then .bits64 else .compatibility)
  else .protected32

/-- Alignment checking is enabled (rules R56, R230). -/
def State.alignmentChecked (s : State) : Bool := s.cr0AM && s.rflagsAC && s.cpl == 3#2

/-! ### Memory -/

/-- A linear address is canonical when bits 63:47 are all equal (rule R60). -/
def isCanonical (a : Word64) : Bool := a.extractLsb' 47 17 == 0#17 || a.extractLsb' 47 17 == 0x1FFFF#17

/-- The byte listed at an address. -/
def lookupCell : List Host.Cell → Nat → Option Byte
  | [], _ => none
  | (a, b) :: cs, n => if a = n then some b else lookupCell cs n

/-- The readable byte at a linear address; `none` outside the map (rules R59, R61). -/
def MemMap.byte (m : MemMap) (a : Word64) : Option Byte := lookupCell m.cells a.toNat

/-- List a byte, keeping addresses strictly rising. -/
def insertCell (n : Nat) (b : Byte) : List Host.Cell → List Host.Cell
  | [] => [(n, b)]
  | (a, c) :: cs =>
    if n < a then (n, b) :: (a, c) :: cs
    else if n = a then (a, b) :: cs
    else (a, c) :: insertCell n b cs

/-- Make an address readable with a value: how a launch builds a memory map (rule R263, D10). No
instruction does this (rule R10: there is no `MemWrite`). -/
def MemMap.place (m : MemMap) (a : Word64) (b : Byte) : MemMap :=
  { m with cells := insertCell a.toNat b m.cells }

/-- Take an address out of the map. -/
def removeCell (n : Nat) : List Host.Cell → List Host.Cell
  | [] => []
  | (a, c) :: cs => if a = n then cs else (a, c) :: removeCell n cs

/-- Make an address unreadable (rule R59). No instruction does this. -/
def MemMap.unmap (m : MemMap) (a : Word64) : MemMap := { m with cells := removeCell a.toNat m.cells }

/-- Addresses strictly rising from a lower bound. -/
def risingFrom : Nat → List Host.Cell → Bool
  | _, [] => true
  | lo, (a, _) :: cs => decide (lo ≤ a) && risingFrom (a + 1) cs

/-- The canonical form of a memory map: strictly rising, canonical 64-bit addresses (rules R59, R60). -/
def MemMap.wf (m : MemMap) : Bool :=
  risingFrom 0 m.cells && m.cells.all fun c => decide (c.1 < 2 ^ 64) && isCanonical (BitVec.ofNat 64 c.1)

/-! ### One address space (rule R50) -/

/-- The program's byte at a linear address (rule R69, D11). -/
def Program.byte (p : Program) (a : Word64) : Option Byte := p.bytes[(a - p.base).toNat]?

/-- The map with the program's bytes at those of its addresses that are the program's too: how a launch
places a program (rules R50, R263). Which addresses are readable does not change. -/
def MemMap.withProgram (m : MemMap) (p : Program) : MemMap :=
  { m with cells := m.cells.map fun c => (c.1, (p.byte (BitVec.ofNat 64 c.1)).getD c.2) }

/-- The map lists the program's byte at every address it shares with the program (rule R50). -/
def MemMap.holds (m : MemMap) (p : Program) : Bool :=
  m.cells.all fun c => (p.byte (BitVec.ofNat 64 c.1)).getD c.2 == c.2

/-- The byte a data read finds at a linear address (rule R50: one byte for each address, the program's
where the program has one); `none` outside the map (rules R59, R61; log entry 11). -/
def State.byteAt (s : State) (a : Word64) : Option Byte :=
  match s.mem.byte a with
  | some b => some ((s.prog.byte a).getD b)
  | none => none

/-- `MemRead(addr, 4)` without its checks (rule R53): four bytes, little-endian (rule R51). -/
def State.read32 (s : State) (a : Word64) : Option Lane :=
  match s.byteAt a, s.byteAt (a + 1#64), s.byteAt (a + 2#64), s.byteAt (a + 3#64) with
  | some b0, some b1, some b2, some b3 => some (b3 ++ b2 ++ b1 ++ b0)
  | _, _, _, _ => none

/-! ### Exceptions -/

/-- Which exception is raised (rule R220); a page fault with its address and whether the access was an
instruction fetch (rule R229). -/
inductive Cause where
  | ud | nm | ss | gp
  | pf (addr : Word64) (fetch : Bool)
  | ac | xm
  deriving DecidableEq, Repr

/-- The page-fault error code (rule R229): `P` from the map, `W/R` 0, `U/S` by `CPL`, `RSVD` from the map
(log entry 10), `I/D` 1 for a fetch. -/
def pageFaultCode (s : State) (fetch : Bool) : BitVec 32 :=
  0#27 ++ BitVec.ofBool fetch ++ BitVec.ofBool s.mem.rsvdBit ++ BitVec.ofBool (s.cpl == 3#2) ++ 0#1
    ++ BitVec.ofBool s.mem.pBit

/-- The fault an exception ends the step with, in the state at the fault (rules R234, R238). -/
def faultOf (c : Cause) (s : State) : Fault :=
  match c with
  | .ud => .ud s
  | .nm => .nm s
  | .ss => .ss 0#32 s
  | .gp => .gp 0#32 s
  | .pf addr fetch => .pf (pageFaultCode s fetch) addr s
  | .ac => .ac 0#32 s
  | .xm => .xm s

/-- `raise #XX(info)`: the step ends with the exception, a terminal outcome (rules R10, R238; D8). -/
def takeException (c : Cause) (s : State) : Result := .fault (faultOf c s)

/-- The vector number of an exception (rule R220). -/
def Fault.vector : Fault → Nat
  | .ud _ => 6
  | .nm _ => 7
  | .ss _ _ => 12
  | .gp _ _ => 13
  | .pf _ _ _ => 14
  | .ac _ _ => 17
  | .xm _ => 19

/-- The error code, where the exception has one (rules R220, R234). -/
def Fault.errorCode : Fault → Option (BitVec 32)
  | .ud _ | .nm _ | .xm _ => none
  | .ss c _ | .gp c _ | .ac c _ => some c
  | .pf c _ _ => some c

/-- The faulting address: recorded for a page fault only (rule R234). -/
def Fault.address : Fault → Option Word64
  | .pf _ a _ => some a
  | .ud _ | .nm _ | .xm _ | .ss _ _ | .gp _ _ | .ac _ _ => none

/-- The state at the fault, `s'` of rule R238. -/
def Fault.state : Fault → State
  | .ud s | .nm s | .xm s => s
  | .ss _ s | .gp _ s | .ac _ s => s
  | .pf _ _ s => s

/-! ### Checks before the effect -/

/-- Why the model refuses, without the state (rule R15). -/
inductive RefusalCause where
  | notOfGroup | prefixCombination | operandWraps | instructionWraps | unsupportedMode | mxcsrReserved
  | deviceMemory | endOfProgram | truncatedProgram | outsideProgram
  deriving DecidableEq, Repr

/-- The refusal of a step in the state before it (rule R269 b, c). -/
def refusalOf (c : RefusalCause) (s : State) : Refusal :=
  match c with
  | .notOfGroup => .notOfGroup s
  | .prefixCombination => .prefixCombination s
  | .operandWraps => .operandWraps s
  | .instructionWraps => .instructionWraps s
  | .unsupportedMode => .unsupportedMode s
  | .mxcsrReserved => .mxcsrReserved s
  | .deviceMemory => .deviceMemory s
  | .endOfProgram => .endOfProgram s
  | .truncatedProgram => .truncatedProgram s
  | .outsideProgram => .outsideProgram s

/-- The step is refused, with the state before it (rules R15, R269 b, c). -/
def refuse (c : RefusalCause) (s : State) : Result := .refused (refusalOf c s)

/-- The state a refused run ends with (rule R269 b, c). The one refusal without a state is that of an arm
without a meaning, of which `exec` has none. -/
def Refusal.state : Refusal → Option State
  | .notOfGroup s | .prefixCombination s | .operandWraps s | .instructionWraps s | .unsupportedMode s
  | .mxcsrReserved s | .deviceMemory s | .endOfProgram s | .truncatedProgram s | .outsideProgram s => some s
  | _ => none

/-- Why an instruction stops before it computes. -/
inductive Stop where
  | raise (c : Cause)
  | refuse (c : RefusalCause)
  deriving DecidableEq, Repr

/-- The outcome of a stop in a state. -/
def Stop.result (st : Stop) (s : State) : Result :=
  match st with
  | .raise c => takeException c s
  | .refuse c => Sys2Proof.Machine.refuse c s

/-- Run the checks; if none stops the instruction, go on. -/
def unlessStopped (check : Option Stop) (s : State) (go : Result) : Result :=
  match check with
  | some st => st.result s
  | none => go

end Sys2Proof.Machine
end

