-- ==== Sys2Proof/Machine/Operands.lean ====
section
/-!
DEFINITION. Operand forms: vector lengths (rule R90), the effective and linear address (30_encoding.md
rules R110 to R116), the write mask (rules R23, R91, R190 line 4), the checks of the memory read and the
read itself (20_memory.md rules R52 to R56, R60 to R62, R70).
-/

namespace Sys2Proof.Machine

/-- The vector lengths (rule R7). -/
inductive VLen where
  | l128 | l256 | l512
  deriving DecidableEq, Repr

/-- `VL` in bits. -/
def VLen.bits : VLen → Nat
  | .l128 => 128
  | .l256 => 256
  | .l512 => 512

/-- `KL = VL / 32` (rule R7; 90_conflicts.md C1). -/
def VLen.lanes : VLen → Nat
  | .l128 => 4
  | .l256 => 8
  | .l512 => 16

/-! ### Prefixes -/

/-- The address-size prefix is present (rules R99, R115). -/
def hasAddrSize (p : Prefixes) : Bool := p.legacy.contains .addrSize

/-- The base an override adds: the `FS` or `GS` base, or none; the other four overrides do nothing in
64-bit mode (rules R29, R99, R116). -/
def segBase (s : State) (p : Prefixes) : Option Word64 :=
  if p.legacy.contains .fs then some s.fsBase
  else if p.legacy.contains .gs then some s.gsBase
  else none

/-- A forbidden prefix (66h, F0h, F2h, F3h) or a REX byte is present (rules R81, R82, R100). -/
def hasForbidden (p : Prefixes) : Bool :=
  p.legacy.any (fun q => match q with
    | .opSize | .lock | .repne | .rep => true
    | .es | .cs | .ss | .ds | .fs | .gs | .addrSize => false)
  || !p.rex.isEmpty

/-! ### The effective address (rules R110 to R116) -/

/-- The displacement's contribution: `disp8` sign-extended and scaled by `n`, `disp32` sign-extended
(rules R112, R114). -/
def dispTerm (n : Nat) : Disp → Word64
  | .none => 0#64
  | .d8 b => b.signExtend 64 * BitVec.ofNat 64 n
  | .d32 d => d.signExtend 64

/-- The index term: 0 for index 0100b, else `x[index] * 2^scale` (rule R111). -/
def indexTerm (s : State) (scale : BitVec 2) (index : BitVec 4) : Word64 :=
  if index = 4#4 then 0#64 else s.gpr index <<< scale.toNat

/-- The address expression of a memory form, modulo 2^64 (rules R110, R111, R113); `n` is the
`disp8` scale, `len` the instruction length. -/
def addrExpr (s : State) (len n : Nat) : MemForm → Word64
  | .base r d => s.gpr r + dispTerm n d
  | .ripRel d => s.rip + BitVec.ofNat 64 len + d.signExtend 64
  | .sib sc i b d => s.gpr b + indexTerm s sc i + dispTerm n d
  | .sibNoBase sc i d => indexTerm s sc i + d.signExtend 64

/-- `EA`: the expression modulo 2^64, or under 67h modulo 2^32 and zero-extended (rule R115; the low 32
bits of the expression depend on the low 32 bits of its terms alone). -/
def effectiveAddr (s : State) (pre : Prefixes) (len n : Nat) (m : MemForm) : Word64 :=
  if hasAddrSize pre then ((addrExpr s len n m).setWidth 32).setWidth 64 else addrExpr s len n m

/-- The linear address (rule R116). -/
def linearAddr (s : State) (pre : Prefixes) (len n : Nat) (m : MemForm) : Word64 :=
  match segBase s pre with
  | some base => base + effectiveAddr s pre len n m
  | none => effectiveAddr s pre len n m

/-- The base register of a form, if it has one (rules R110, R111). -/
def formBase : MemForm → Option (BitVec 4)
  | .base r _ => some r
  | .sib _ _ b _ => some b
  | .ripRel _ | .sibNoBase _ _ _ => none

/-- The operand's segment is `SS`: base `rsp` or `rbp` (numbers 4, 5) and no `FS`/`GS` override (rules
R60, R116). -/
def usesStackSegment (s : State) (pre : Prefixes) (m : MemForm) : Bool :=
  (segBase s pre).isNone
    && (formBase m == some 4#4 || formBase m == some 5#4)

/-! ### The write mask -/

/-- `en_j`: no write mask, or bit `j` of `K[aaa]` (rules R23, R91, R190 line 4). -/
def enabled (s : State) (aaa : BitVec 3) (j : Nat) : Bool :=
  aaa == 0#3 || (s.opmask aaa).getLsbD j

/-- Every lane is enabled: the VEX encodings (rule R170). -/
def allLanes (_ : Nat) : Bool := true

/-! ### The memory read -/

/-- Offsets of the bytes a full-width operand reads: the four bytes of every enabled lane (rule R62). -/
def fullOffsets (kl : Nat) (en : Nat → Bool) : List Nat :=
  ((List.range kl).filter en).flatMap fun j => [4 * j, 4 * j + 1, 4 * j + 2, 4 * j + 3]

/-- Offsets of the bytes a broadcast operand reads: the four bytes of the element, if some lane is
enabled (rules R62, R63). -/
def bcstOffsets (kl : Nat) (en : Nat → Bool) : List Nat :=
  if (List.range kl).any en then [0, 1, 2, 3] else []

/-- The byte of an operand at an offset from its address (rules R53, R70). -/
def byteAddr (addr : Word64) (off : Nat) : Word64 := addr + BitVec.ofNat 64 off

/-- The successive bytes of an operand of `size` bytes run past `FFFFFFFFFFFFFFFFh` to address 0 (rule
R70, D6). -/
def runsPastTop (addr : Word64) (size : Nat) : Bool := decide (2 ^ 64 < addr.toNat + size)

/-- A byte outside the memory map (rule R61). -/
def unmappedAt (s : State) (addr : Word64) (off : Nat) : Bool := (s.byteAt (byteAddr addr off)).isNone

/-- The checks on an operand of `size` bytes of which those at `offs` are read, in their order (rules R53,
R233): an operand that runs past 2^64 is refused whatever the mask (rule R70, D6; log entry 14); then, of
the bytes read, canonical (rule R60), alignment when `aligned4` asks for it (rule R56), the map with the
lowest failing address (rules R61, R229). -/
def checkRead (s : State) (addr : Word64) (size : Nat) (offs : List Nat) (stack aligned4 : Bool) :
    Option Stop :=
  if runsPastTop addr size then some (.refuse .operandWraps)
  else if offs.any (fun k => !isCanonical (byteAddr addr k)) then some (.raise (if stack then .ss else .gp))
  else if aligned4 && !offs.isEmpty && s.alignmentChecked && addr.extractLsb' 0 2 != 0#2 then
    some (.raise .ac)
  else match offs.find? (unmappedAt s addr) with
    | some k => some (.raise (.pf (byteAddr addr k) false))
    | none => none

/-- Lane `j` of a full-width operand: `MemRead(EA + 4j, 4)` (rule R54). Used only for lanes whose bytes
passed `checkRead`, where the read answers (`Laws` has the lemma). -/
def memLane (s : State) (addr : Word64) (j : Nat) : Lane :=
  (s.read32 (byteAddr addr (4 * j))).getD 0#32

/-- Every lane of a broadcast operand: `MemRead(EA, 4)` (rule R54). -/
def bcstLane (s : State) (addr : Word64) (_ : Nat) : Lane := (s.read32 addr).getD 0#32

/-- The `disp8` scale `N` of a full-width EVEX operand: the bytes it reads (rule R114). -/
def VLen.dispScale (vl : VLen) : Nat := 4 * vl.lanes

end Sys2Proof.Machine
end

