-- ==== Sys2Proof/Machine/Packed.lean ====
section
/-!
DEFINITION. What the two shared procedures have in common (41_vfnmsub_vex.md rule R170 lines 1 and 5 to
9, 42_vfnmsub_evex.md rule R190 lines 1 and 7 to 12): the checks that need no operand, the packed
computation, and the writes.
-/

namespace Sys2Proof.Machine

/-! ### Checks that need no operand -/

/-- The state `#UD` conditions common to both classes (rules R222, R223 items 1 to 3): real-address or
virtual-8086 mode, `CR4.OSXSAVE = 0`, `XCR0[2:1] != 11b`. -/
def stateUD (s : State) : Bool :=
  !s.cr0PE || s.rflagsVM || !s.cr4OSXSAVE || !s.avxEnabled

/-- Modes for which the spec gives neither rules nor an exception (rules R6, R122; D1). -/
def modeRefused (s : State) : Bool :=
  match s.mode with
  | .protected32 | .compatibility => true
  | .realAddress | .virtual8086 | .bits64 => false

/-- Line 1 of both procedures, in the order of rule R233: more than 15 bytes (rule R102, D16), then
`#UD` for any of the given reasons, then `#NM` (rule R226). -/
def gate (s : State) (len : Nat) (encodingUD classUD : Bool) : Option Stop :=
  if modeRefused s then some (.refuse .unsupportedMode)
  else if 15 < len then some (.raise .gp)
  else if encodingUD || classUD then some (.raise .ud)
  else if s.cr0TS then some (.raise .nm)
  else none

/-! ### The packed computation -/

/-- The roles of rule R146: the factors `x`, `y` and the subtrahend `z` of a lane whose `DEST`, `SRC2`
and `SRC3` values are `d`, `s2`, `s3`. -/
def roles (f : Form) (d s2 s3 : Lane) : Lane × Lane × Lane :=
  match f with
  | .f132 => (d, s3, s2)
  | .f213 => (s2, d, s3)
  | .f231 => (s2, s3, d)

/-- One lane of an instruction: the lane function on its roles, with the controls of rule R136: `DAZ`
and `FTZ` from `MXCSR`, `UM` and `OM` from `MXCSR` or 1 under `sae`. -/
def laneResult (s : State) (f : Form) (rc : RoundMode) (sae : Bool) (d s2 s3 : Lane) : LaneResult :=
  let r := roles f d s2 s3
  fnmsub32 s.cfg.nanOrder r.1 r.2.1 r.2.2 rc (mxcsrDAZ s.mxcsr) (mxcsrFTZ s.mxcsr)
    (sae || mxcsrUM s.mxcsr) (sae || mxcsrOM s.mxcsr)

/-- What the packed computation takes from the encoding and the operands, all read before any write
(rule R265). -/
structure Job where
  form : Form
  kl : Nat
  zeroing : Bool
  rc : RoundMode
  sae : Bool
  dest : BitVec 5
  len : Nat

/-- Lane `j`'s result from the three source vectors; `s3` gives the lanes of `SRC3`. -/
def computeLane (job : Job) (s : State) (d s2 : VReg) (s3 : Nat → Lane) (j : Nat) : LaneResult :=
  laneResult s job.form job.rc job.sae (lane d j) (lane s2 j) (s3 j)

/-- `new_j` (rule R190 line 10): the result, or zero, or the old destination lane. A delivered lane has
a result (rules R144, R145, R148: a lane without one has an unmasked flag, so nothing is delivered). -/
def newLane (job : Job) (s : State) (en : Nat → Bool) (d s2 : VReg) (s3 : Nat → Lane) (j : Nat) : Lane :=
  if en j then (computeLane job s d s2 s3 j).res.getD 0#32
  else if job.zeroing then 0#32
  else lane d j

/-- Rule R170 lines 6 to 9, rule R190 lines 8 to 12: compute the enabled lanes, report, and either take
the exception with nothing but the `MXCSR` flags changed (rules R225, R231, R238; D17) or write the
destination, zero above `VL`, and move past the instruction. -/
def runPacked (job : Job) (en : Nat → Bool) (d s2 : VReg) (s3 : Nat → Lane) (s : State) : Result :=
  let pre := gatherFlags job.kl en fun j => (computeLane job s d s2 s3 j).pre
  let post := gatherFlags job.kl en fun j => (computeLane job s d s2 s3 j).post
  match packedFPReport job.sae s.mxcsr pre post with
  | .trap m => takeException (if s.cr4OSXMMEXCPT then .xm else .ud) (s.setMxcsr m)
  | .deliver m =>
    .next (((s.setMxcsr m).setVreg job.dest (packLanes job.kl (newLane job s en d s2 s3))).advance job.len)

end Sys2Proof.Machine
end

