-- ==== Sys2Proof/Machine/Evex.lean ====
section
/-!
DEFINITION. The nine EVEX-encoded instructions and the three embedded-rounding register forms
(42_vfnmsub_evex.md rules R190 to R203).
-/

namespace Sys2Proof.Machine

/-- The `#UD` conditions an EVEX encoding gets from its bytes (rules R100, R223 items 4, 5, 7): a
forbidden prefix, `P0` bit 3 = 1, `P1` bit 2 = 0, `z = 1` with `aaa = 000b`. -/
def evexEncodingUD (f : EvexFields) : Bool :=
  hasForbidden f.pre || f.p0bit3 || !f.p1bit2 || (f.z && f.aaa == 0#3)

/-- The `#UD` conditions an EVEX encoding gets from the state (rules R223 items 1 to 3 and 8, R224):
AVX512VL is needed when `VL` is 128 or 256. -/
def evexStateUD (s : State) (vl : VLen) : Bool :=
  stateUD s || !s.avx512Enabled || !s.cfg.avx512f || (vl != .l512 && !s.cfg.avx512vl)

/-- The checks on `SRC3` of a plain EVEX encoding: the whole operand for the wrap (rule R70), the bytes of
the enabled lanes for the rest (rules R53, R62, R203); the alignment check for the broadcast element alone
(rule R56). -/
def evexOperandCheck (vl : VLen) (o : EvexOperands) (s : State) : Option Stop :=
  match o.src3 with
  | .reg _ => none
  | .mem m =>
    checkRead s (linearAddr s o.f.pre o.length vl.dispScale m) (4 * vl.lanes)
      (fullOffsets vl.lanes (enabled s o.f.aaa)) (usesStackSegment s o.f.pre m) false
  | .bcst m =>
    checkRead s (linearAddr s o.f.pre o.length 4 m) 4 (bcstOffsets vl.lanes (enabled s o.f.aaa))
      (usesStackSegment s o.f.pre m) true

/-- The lanes of `SRC3` of a plain EVEX encoding (rule R190 line 6). -/
def evexSrc3Lane (vl : VLen) (o : EvexOperands) (s : State) (j : Nat) : Lane :=
  match o.src3 with
  | .reg r => lane (s.vreg r) j
  | .mem m => memLane s (linearAddr s o.f.pre o.length vl.dispScale m) j
  | .bcst m => bcstLane s (linearAddr s o.f.pre o.length 4 m) j

/-- What the packed computation of a plain EVEX encoding takes: the rounding mode of `MXCSR`. -/
def evexJob (form : Form) (vl : VLen) (o : EvexOperands) (s : State) : Job where
  form := form
  kl := vl.lanes
  zeroing := o.f.z
  rc := RoundMode.ofBits (mxcsrRC s.mxcsr)
  sae := false
  dest := o.f.dest
  len := o.length

/-- `EVEX_FNMSUB` without embedded rounding (rule R190); `reserved` says that `L'L = 11b` (rules R100,
R223 item 6). -/
def evexFnmsub (form : Form) (vl : VLen) (reserved : Bool) (o : EvexOperands) (s : State) : Result :=
  unlessStopped (gate s o.length (evexEncodingUD o.f || reserved) (evexStateUD s vl)) s
    (unlessStopped (evexOperandCheck vl o s) s
      (runPacked (evexJob form vl o s) (enabled s o.f.aaa) (s.vreg o.f.dest) (s.vreg o.f.src2)
        (evexSrc3Lane vl o s) s))

/-- What the packed computation of an embedded-rounding form takes: `EVEX.RC`, all exceptions suppressed,
512 bits (rules R134, R190 line 2). -/
def evexErJob (form : Form) (o : EvexErOperands) : Job where
  form := form
  kl := VLen.l512.lanes
  zeroing := o.f.z
  rc := RoundMode.ofBits o.rc
  sae := true
  dest := o.f.dest
  len := o.length

/-- `EVEX_FNMSUB` with embedded rounding (rules R190, R200). -/
def evexErFnmsub (form : Form) (o : EvexErOperands) (s : State) : Result :=
  unlessStopped (gate s o.length (evexEncodingUD o.f) (evexStateUD s .l512)) s
    (runPacked (evexErJob form o) (enabled s o.f.aaa) (s.vreg o.f.dest) (s.vreg o.f.src2)
      (fun j => lane (s.vreg o.src3) j) s)

/-- `VFNMSUB132PS xmm1 {k1}{z}, xmm2, xmm3/m128/m32bcst` (rule R191). -/
def execVfnmsub132psEvex128 (o : EvexOperands) (s : State) : Result := evexFnmsub .f132 .l128 false o s

/-- `VFNMSUB213PS xmm1 {k1}{z}, xmm2, xmm3/m128/m32bcst` (rule R192). -/
def execVfnmsub213psEvex128 (o : EvexOperands) (s : State) : Result := evexFnmsub .f213 .l128 false o s

/-- `VFNMSUB231PS xmm1 {k1}{z}, xmm2, xmm3/m128/m32bcst` (rule R193). -/
def execVfnmsub231psEvex128 (o : EvexOperands) (s : State) : Result := evexFnmsub .f231 .l128 false o s

/-- `VFNMSUB132PS ymm1 {k1}{z}, ymm2, ymm3/m256/m32bcst` (rule R194). -/
def execVfnmsub132psEvex256 (o : EvexOperands) (s : State) : Result := evexFnmsub .f132 .l256 false o s

/-- `VFNMSUB213PS ymm1 {k1}{z}, ymm2, ymm3/m256/m32bcst` (rule R195). -/
def execVfnmsub213psEvex256 (o : EvexOperands) (s : State) : Result := evexFnmsub .f213 .l256 false o s

/-- `VFNMSUB231PS ymm1 {k1}{z}, ymm2, ymm3/m256/m32bcst` (rule R196). -/
def execVfnmsub231psEvex256 (o : EvexOperands) (s : State) : Result := evexFnmsub .f231 .l256 false o s

/-- `VFNMSUB132PS zmm1 {k1}{z}, zmm2, zmm3/m512/m32bcst` (rule R197); `l` is `P2` bit 5. -/
def execVfnmsub132psEvex512 (l : Bool) (o : EvexOperands) (s : State) : Result := evexFnmsub .f132 .l512 l o s

/-- `VFNMSUB213PS zmm1 {k1}{z}, zmm2, zmm3/m512/m32bcst` (rule R198); `l` is `P2` bit 5. -/
def execVfnmsub213psEvex512 (l : Bool) (o : EvexOperands) (s : State) : Result := evexFnmsub .f213 .l512 l o s

/-- `VFNMSUB231PS zmm1 {k1}{z}, zmm2, zmm3/m512/m32bcst` (rule R199); `l` is `P2` bit 5. -/
def execVfnmsub231psEvex512 (l : Bool) (o : EvexOperands) (s : State) : Result := evexFnmsub .f231 .l512 l o s

/-- `VFNMSUB132PS zmm1 {k1}{z}, zmm2, zmm3, {er}` (rule R200). -/
def execVfnmsub132psEvex512er (o : EvexErOperands) (s : State) : Result := evexErFnmsub .f132 o s

/-- `VFNMSUB213PS zmm1 {k1}{z}, zmm2, zmm3, {er}` (rule R201). -/
def execVfnmsub213psEvex512er (o : EvexErOperands) (s : State) : Result := evexErFnmsub .f213 o s

/-- `VFNMSUB231PS zmm1 {k1}{z}, zmm2, zmm3, {er}` (rule R202). -/
def execVfnmsub231psEvex512er (o : EvexErOperands) (s : State) : Result := evexErFnmsub .f231 o s

end Sys2Proof.Machine
end

