-- ==== Sys2Proof/Machine/Vex.lean ====
section
/-!
DEFINITION. The six VEX-encoded instructions (41_vfnmsub_vex.md rules R170 to R177).
-/

namespace Sys2Proof.Machine

/-- The `#UD` conditions of the VEX encodings (rule R222, class Type 2; rules R100, R224). -/
def vexUD (s : State) (pre : Prefixes) : Bool :=
  hasForbidden pre || stateUD s || !s.cfg.fma

/-- The checks on `SRC3` of a VEX encoding: every byte of a memory operand (rules R52, R53, R177); no
alignment check (rule R56). -/
def vexOperandCheck (vl : VLen) (o : VexOperands) (s : State) : Option Stop :=
  match o.src3 with
  | .reg _ => none
  | .mem m =>
    checkRead s (linearAddr s o.pre o.length 1 m) (4 * vl.lanes) (fullOffsets vl.lanes allLanes)
      (usesStackSegment s o.pre m) false

/-- The lanes of `SRC3` of a VEX encoding (rule R170 line 4). -/
def vexSrc3Lane (o : VexOperands) (s : State) (j : Nat) : Lane :=
  match o.src3 with
  | .reg r => lane (s.vreg (vexReg r)) j
  | .mem m => memLane s (linearAddr s o.pre o.length 1 m) j

/-- What the packed computation of a VEX encoding takes: the rounding mode of `MXCSR`, no masking. -/
def vexJob (form : Form) (vl : VLen) (o : VexOperands) (s : State) : Job where
  form := form
  kl := vl.lanes
  zeroing := false
  rc := RoundMode.ofBits (mxcsrRC s.mxcsr)
  sae := false
  dest := vexReg o.dest
  len := o.length

/-- `VEX_FNMSUB(form, VL, dest, src2, S3spec, len)` (rule R170). -/
def vexFnmsub (form : Form) (vl : VLen) (o : VexOperands) (s : State) : Result :=
  unlessStopped (gate s o.length false (vexUD s o.pre)) s
    (unlessStopped (vexOperandCheck vl o s) s
      (runPacked (vexJob form vl o s) allLanes (s.vreg (vexReg o.dest)) (s.vreg (vexReg o.src2))
        (vexSrc3Lane o s) s))

/-- `VFNMSUB132PS xmm1, xmm2, xmm3/m128` (rule R171). -/
def execVfnmsub132psVex128 (o : VexOperands) (s : State) : Result := vexFnmsub .f132 .l128 o s

/-- `VFNMSUB213PS xmm1, xmm2, xmm3/m128` (rule R172). -/
def execVfnmsub213psVex128 (o : VexOperands) (s : State) : Result := vexFnmsub .f213 .l128 o s

/-- `VFNMSUB231PS xmm1, xmm2, xmm3/m128` (rule R173). -/
def execVfnmsub231psVex128 (o : VexOperands) (s : State) : Result := vexFnmsub .f231 .l128 o s

/-- `VFNMSUB132PS ymm1, ymm2, ymm3/m256` (rule R174). -/
def execVfnmsub132psVex256 (o : VexOperands) (s : State) : Result := vexFnmsub .f132 .l256 o s

/-- `VFNMSUB213PS ymm1, ymm2, ymm3/m256` (rule R175). -/
def execVfnmsub213psVex256 (o : VexOperands) (s : State) : Result := vexFnmsub .f213 .l256 o s

/-- `VFNMSUB231PS ymm1, ymm2, ymm3/m256` (rule R176). -/
def execVfnmsub231psVex256 (o : VexOperands) (s : State) : Result := vexFnmsub .f231 .l256 o s

end Sys2Proof.Machine
end

