-- ==== Sys2Proof/Machine/Dispatch.lean ====
section
/-!
DEFINITION. One arm per constructor of `Instr`: which meaning runs which decoder row (rules R171 to R176,
R191 to R202).
-/

namespace Sys2Proof.Machine

def exec (i : Instr) (s : State) : Host.Outcome State Fault Refusal :=
  match i with
  | .vfnmsub132psVex128 o => Sys2Proof.Machine.execVfnmsub132psVex128 o s
  | .vfnmsub213psVex128 o => Sys2Proof.Machine.execVfnmsub213psVex128 o s
  | .vfnmsub231psVex128 o => Sys2Proof.Machine.execVfnmsub231psVex128 o s
  | .vfnmsub132psVex256 o => Sys2Proof.Machine.execVfnmsub132psVex256 o s
  | .vfnmsub213psVex256 o => Sys2Proof.Machine.execVfnmsub213psVex256 o s
  | .vfnmsub231psVex256 o => Sys2Proof.Machine.execVfnmsub231psVex256 o s
  | .vfnmsub132psEvex128 o => Sys2Proof.Machine.execVfnmsub132psEvex128 o s
  | .vfnmsub213psEvex128 o => Sys2Proof.Machine.execVfnmsub213psEvex128 o s
  | .vfnmsub231psEvex128 o => Sys2Proof.Machine.execVfnmsub231psEvex128 o s
  | .vfnmsub132psEvex256 o => Sys2Proof.Machine.execVfnmsub132psEvex256 o s
  | .vfnmsub213psEvex256 o => Sys2Proof.Machine.execVfnmsub213psEvex256 o s
  | .vfnmsub231psEvex256 o => Sys2Proof.Machine.execVfnmsub231psEvex256 o s
  | .vfnmsub132psEvex512 l o => Sys2Proof.Machine.execVfnmsub132psEvex512 l o s
  | .vfnmsub213psEvex512 l o => Sys2Proof.Machine.execVfnmsub213psEvex512 l o s
  | .vfnmsub231psEvex512 l o => Sys2Proof.Machine.execVfnmsub231psEvex512 l o s
  | .vfnmsub132psEvex512er o => Sys2Proof.Machine.execVfnmsub132psEvex512er o s
  | .vfnmsub213psEvex512er o => Sys2Proof.Machine.execVfnmsub213psEvex512er o s
  | .vfnmsub231psEvex512er o => Sys2Proof.Machine.execVfnmsub231psEvex512er o s

end Sys2Proof.Machine
end

