-- ==== Sys2Proof/Machine/Launch.lean ====
section
/-!
DEFINITION. The launch of a run (70_reset_and_hazards.md rules R261 to R263; D9, D11) and what the model
refuses a launch state for.
-/

namespace Sys2Proof.Machine

/-- What a model refuses a state for: a mode other than 64-bit (D1, U7), `MXCSR[31:16]` not zero (rule
R26, U14), a memory map that marks device memory (rule R58, D10). -/
def launchRefusal (s : State) : Option RefusalCause :=
  if s.mode ≠ .bits64 then some .unsupportedMode
  else if mxcsrReservedBits s.mxcsr ≠ 0#16 then some .mxcsrReserved
  else if !s.mem.device.isEmpty then some .deviceMemory
  else none

/-- The control state of rule R263's defaults: 64-bit mode, `OSXSAVE` and `OSXMMEXCPT` set, `XCR0 = E7h`,
`TS`, `AM`, `AC` and `VM` clear, `CPL = 3`. What system software does to get there is rule R262. -/
def enterLaunchControl (s : State) : State :=
  { s with
    cr0 := (s.cr0 ||| 0x1#64) &&& ~~~0x40008#64
    cr4 := s.cr4 ||| 0x40400#64
    xcr0 := 0xE7#64
    rflags := s.rflags &&& ~~~0x60000#64
    cpl := 3#2
    longMode := true
    csL := true }

/-- Place the program bytes at `RIP` (rule R263, D11), in the one address space (rule R50): the addresses
of the map that they cover hold them from then on. -/
def placeProgram (s : State) (bytes : Bytes) : State :=
  { s with prog := ⟨s.rip, bytes⟩, mem := s.mem.withProgram ⟨s.rip, bytes⟩ }

/-- The launch: a state that is not in 64-bit mode first gets the control state of rule R263; then the
program bytes stand at `RIP` (log entry 1). -/
def State.launch (s : State) (bytes : Bytes) : State :=
  placeProgram (if s.mode = .bits64 then s else enterLaunchControl s) bytes

end Sys2Proof.Machine
end

