-- ==== Sys2Proof/Machine/Fetch.lean ====
section
/-!
DEFINITION. Instruction fetch (20_memory.md rule R69; rules R27, R70, R233 item 1, R269; D6, D11): the
program bytes from `RIP` on, as far as decoding needs them and at most fifteen; later ones only decide of
an instruction that fifteen do not complete (rules R27, R99).
-/

namespace Sys2Proof.Machine

/-- The linear address of the next instruction's first byte: `RIP` in 64-bit mode, where the base of
`CS` is treated as zero (rule R29), else `CS.base + RIP` (rule R35). That the sum is taken modulo 2^64 is a
DESIGN CHOICE: the spec does not say where it wraps (log entry 22). -/
def fetchAddress (s : State) : Word64 :=
  if s.mode = .bits64 then s.rip else s.csBase + s.rip

/-- The program bytes from the fetch address on: empty at the first address past them, none elsewhere outside. -/
def programFrom (s : State) : Option Bytes :=
  let off := (fetchAddress s - s.prog.base).toNat
  if off ≤ s.prog.bytes.length then some (s.prog.bytes.drop off) else none

/-- Why the bytes that can be fetched come to an end. -/
inductive FetchLimit where
  | programEnd | nonCanonical | wraps
  deriving DecidableEq, Repr

/-- The program bytes at canonical addresses from `a` on, without wrapping past 2^64, and what ends
them: after the top of the address space no byte can follow, whatever the program holds. -/
def fetchWindow (a : Word64) : Bytes → Bytes × FetchLimit
  | [] => ([], .programEnd)
  | b :: bs =>
    if !isCanonical a then ([], .nonCanonical)
    else if a = 0xFFFFFFFFFFFFFFFF#64 then ([b], .wraps)
    else (b :: (fetchWindow (a + 1#64) bs).1, (fetchWindow (a + 1#64) bs).2)

/-- What the fetch gives: an instruction, or the reason there is none. -/
inductive Fetched where
  | instr (i : Instr)
  | stop (st : Stop)
  deriving DecidableEq, Repr

/-- An instruction cut off: by a non-canonical address (`#GP(0)`, rules R69, R228 c), by the top of the
address space (refused, D6), or by the end of the program bytes (refused, rule R263). -/
def cutOff : FetchLimit → Stop
  | .nonCanonical => .raise .gp
  | .wraps => .refuse .instructionWraps
  | .programEnd => .refuse .truncatedProgram

/-- At most this many bytes of an instruction are fetched (rules R69, R102). -/
def maxFetch : Nat := 15

/-- What the bytes from `RIP` on say of an instruction that fifteen bytes do not complete. When it is of the
group it is `#GP(0)`, for it is longer than fifteen bytes (rules R102, D16), or refused when it runs past the
top of the address space (rule R27, D6). When it is not, it is refused (rule R99 and D7, rule R81 and D15):
rule R99 tests the group before the length. When no byte that can be had decides it, the reason of their end
does (log entry 13). -/
def decideLong (w : Bytes × FetchLimit) : Stop :=
  match decode w.1 with
  | .ok _ => .raise .gp
  | .error .notOfGroup => .refuse .notOfGroup
  | .error .prefixCombination => .refuse .prefixCombination
  | .error (.truncated true) => if w.2 = .wraps then .refuse .instructionWraps else .raise .gp
  | .error (.truncated false) => cutOff w.2

/-- Decode the fetched bytes `w`, at most fifteen (rule R69); refuse by name what is not an admitted
instruction of the group. `all` are the bytes from `RIP` on, of which `w` are the first: they decide of an
instruction that fifteen bytes do not complete. -/
def decodeFetched (w all : Bytes × FetchLimit) : Fetched :=
  match decode w.1 with
  | .ok (i, _) => .instr i
  | .error .notOfGroup => .stop (.refuse .notOfGroup)
  | .error .prefixCombination => .stop (.refuse .prefixCombination)
  | .error (.truncated _) => .stop (if w.1.length < maxFetch then cutOff w.2 else decideLong all)

/-- Fetch at most fifteen bytes and decode the instruction at `RIP` (rule R69). The first address past the
program ends the run (rule R269 c); any other address outside it is a fetch fault when it is not canonical,
else refused (log entry 12). -/
def fetch (s : State) : Fetched :=
  match programFrom s with
  | some [] => .stop (.refuse .endOfProgram)
  | some bytes =>
    decodeFetched (fetchWindow (fetchAddress s) (bytes.take maxFetch)) (fetchWindow (fetchAddress s) bytes)
  | none => .stop (if isCanonical (fetchAddress s) then .refuse .outsideProgram else .raise .gp)

end Sys2Proof.Machine
end

