-- ==== Sys2Proof/Machine/Step.lean ====
section
/-!
DEFINITION. One step of the machine (00_scope.md rule R15): refuse a state the model admits no run from,
fetch and decode at `RIP`, and run the instruction.
-/

namespace Sys2Proof.Machine

/-- One step (rule R15). -/
def step (s : State) : Host.Outcome State Fault Refusal :=
  match launchRefusal s with
  | some c => refuse c s
  | none =>
    match fetch s with
    | .instr i => exec i s
    | .stop st => st.result s

/-- The launch of the program that is one word of spec/opcode_table.json, zeros after it (log entry 1):
the program bytes are loaded from outside the machine (rule R263), and a machine that is not in 64-bit
mode is brought there, as a fetch needs. -/
def State.withFetchWord (s : State) (nbits w : Nat) : State := s.launch (tableWordBytes nbits w)

end Sys2Proof.Machine
end

