-- ==== Sys2Proof/Safety.lean ====
section
/-!
DEFINITION. What counts as a good state and a good run, in the terms the statements use.
-/

namespace Sys2Proof.Machine

/-- The step answered a next state. -/
def Completes (r : Result) : Prop := ∃ t, r = .next t

/-- The invariant of the machine: the memory map in its canonical form and with the program's bytes at the
addresses it shares with the program (rule R50), the reserved bits of `MXCSR`
zero (rule R26), `AVX512VL` only with `AVX512F` (D3), no bit of a vector register at or above `MAXVL`
(rules R7, R21), no bit of an opmask register at or above `kwidth` (rule R23, D12). -/
def Inv (s : State) : Prop :=
  s.mem.wf = true ∧ s.mem.holds s.prog = true
    ∧ mxcsrReservedBits s.mxcsr = 0#16
    ∧ (s.cfg.avx512vl = true → s.cfg.avx512f = true)
    ∧ (maxVL s.cfg = 256 → ∀ r : BitVec 5, (s.vreg r).extractLsb' 256 256 = 0#256)
    ∧ (s.cfg.kwidth = .w16 → ∀ a : BitVec 3, (s.opmask a).extractLsb' 16 48 = 0#48)

/-- A run of `k` steps that neither faults nor is refused (rule R269). -/
def SafeRun (k : Nat) (s : State) : Prop := ∃ t, Sys2Proof.core.run k s = .next t

/-- The parameters of the step relation (rules R34, R64, R67): what no step changes. -/
def SameParameters (s t : State) : Prop := t.mem = s.mem ∧ t.prog = s.prog ∧ t.cfg = s.cfg

/-- The registers the group only reads, or never touches (rules R23, R28 to R31). -/
def SameReadOnly (s t : State) : Prop :=
  t.k = s.k ∧ t.x = s.x ∧ t.fsBase = s.fsBase ∧ t.gsBase = s.gsBase ∧ t.csBase = s.csBase
    ∧ t.rflags = s.rflags ∧ t.cr0 = s.cr0 ∧ t.cr4 = s.cr4 ∧ t.xcr0 = s.xcr0 ∧ t.cpl = s.cpl
    ∧ t.longMode = s.longMode ∧ t.csL = s.csL

/-! ### Values of single-precision patterns -/

/-- `val(b)` of a finite pattern as an exact rational (rule R132). -/
def laneValue (b : Lane) : ℚ := (scaledValue b : ℚ) / 2 ^ 149

/-- The pattern stands for a finite number (rule R131). -/
def FinitePattern (b : Lane) : Prop := expOf b ≠ 255

/-- The rational a lane's exact result stands for (rule R142): units of 2^-298. -/
def exactRational (r : Int) : ℚ := (r : ℚ) / 2 ^ 298

/-! ### When an instruction completes -/

/-- Every flag of a set has its mask bit set in `MXCSR` (rule R148: `unmasked(F) = {}`). -/
def Masked (m : BitVec 32) (f : FpFlags) : Prop :=
  (f.ie = true → mxcsrIM m = true) ∧ (f.de = true → mxcsrDM m = true) ∧ (f.oe = true → mxcsrOM m = true)
    ∧ (f.ue = true → mxcsrUM m = true) ∧ (f.pe = true → mxcsrPM m = true)

/-- The new `MXCSR` is the old one with exactly the flags set that some enabled lane raised (rules R25,
R148, R151). -/
def MxcsrGains (m m' : BitVec 32) (kl : Nat) (en : Nat → Bool) (flags : Nat → FpFlags) : Prop :=
  (mxcsrIE m' = true ↔ mxcsrIE m = true ∨ ∃ j < kl, en j = true ∧ (flags j).ie = true)
    ∧ (mxcsrDE m' = true ↔ mxcsrDE m = true ∨ ∃ j < kl, en j = true ∧ (flags j).de = true)
    ∧ (mxcsrOE m' = true ↔ mxcsrOE m = true ∨ ∃ j < kl, en j = true ∧ (flags j).oe = true)
    ∧ (mxcsrUE m' = true ↔ mxcsrUE m = true ∨ ∃ j < kl, en j = true ∧ (flags j).ue = true)
    ∧ (mxcsrPE m' = true ↔ mxcsrPE m = true ∨ ∃ j < kl, en j = true ∧ (flags j).pe = true)
    ∧ mxcsrZE m' = mxcsrZE m ∧ m'.extractLsb' 6 26 = m.extractLsb' 6 26

/-- `MXCSR` differs at most in flags that were 0 and are now 1 (rule R25). -/
def OnlyFlagsSet (m m' : BitVec 32) : Prop :=
  mxcsrZE m' = mxcsrZE m ∧ m'.extractLsb' 6 26 = m.extractLsb' 6 26
    ∧ (mxcsrIE m = true → mxcsrIE m' = true) ∧ (mxcsrDE m = true → mxcsrDE m' = true)
    ∧ (mxcsrOE m = true → mxcsrOE m' = true) ∧ (mxcsrUE m = true → mxcsrUE m' = true)
    ∧ (mxcsrPE m = true → mxcsrPE m' = true)

/-- No check of rules R102, R222, R224, R226 stops a VEX row. -/
def VexReady (o : VexOperands) (s : State) : Prop :=
  s.mode = .bits64 ∧ o.length ≤ 15 ∧ hasForbidden o.pre = false ∧ s.cr4OSXSAVE = true
    ∧ s.avxEnabled = true ∧ s.cfg.fma = true ∧ s.cr0TS = false

/-- No check of rules R100, R102, R223, R224, R226 stops an EVEX row of `len` bytes. -/
def EvexReady (vl : VLen) (f : EvexFields) (len : Nat) (s : State) : Prop :=
  s.mode = .bits64 ∧ len ≤ 15 ∧ hasForbidden f.pre = false ∧ f.p0bit3 = false ∧ f.p1bit2 = true
    ∧ (f.z = true → f.aaa ≠ 0#3) ∧ s.cr4OSXSAVE = true ∧ s.avxEnabled = true ∧ s.avx512Enabled = true
    ∧ s.cfg.avx512f = true ∧ (vl ≠ .l512 → s.cfg.avx512vl = true) ∧ s.cr0TS = false

/-- The four bytes at offset `off` of an operand are canonical, readable, and hold `w` (rules R53, R60,
R61). -/
def LaneReadable (s : State) (addr : Word64) (off : Nat) (w : Lane) : Prop :=
  (∀ k < 4, isCanonical (byteAddr addr (off + k)) = true) ∧ s.read32 (byteAddr addr off) = some w

/-- `s3 j` is lane `j` of `SRC3` of a VEX row, and the operand does not wrap (rule R70) and can be read (rule
R170 line 4). -/
def VexSource (vl : VLen) (o : VexOperands) (s : State) (s3 : Nat → Lane) : Prop :=
  match o.src3 with
  | .reg r => ∀ j < vl.lanes, s3 j = lane (s.vreg (vexReg r)) j
  | .mem m => (linearAddr s o.pre o.length 1 m).toNat + 4 * vl.lanes ≤ 2 ^ 64
      ∧ ∀ j < vl.lanes, LaneReadable s (linearAddr s o.pre o.length 1 m) (4 * j) (s3 j)

/-- `s3 j` is lane `j` of `SRC3` of a plain EVEX row for every enabled `j`; a memory operand does not wrap
(rule R70), and what is read of it can be read (rule R190 line 6; rules R56, R62). -/
def EvexSource (vl : VLen) (o : EvexOperands) (s : State) (s3 : Nat → Lane) : Prop :=
  match o.src3 with
  | .reg r => ∀ j < vl.lanes, enabled s o.f.aaa j = true → s3 j = lane (s.vreg r) j
  | .mem m => (linearAddr s o.f.pre o.length vl.dispScale m).toNat + 4 * vl.lanes ≤ 2 ^ 64
      ∧ ∀ j < vl.lanes, enabled s o.f.aaa j = true →
        LaneReadable s (linearAddr s o.f.pre o.length vl.dispScale m) (4 * j) (s3 j)
  | .bcst m => (linearAddr s o.f.pre o.length 4 m).toNat + 4 ≤ 2 ^ 64
      ∧ ((∃ j < vl.lanes, enabled s o.f.aaa j = true) →
        (s.alignmentChecked = true → (linearAddr s o.f.pre o.length 4 m).extractLsb' 0 2 = 0#2)
        ∧ ∃ e, LaneReadable s (linearAddr s o.f.pre o.length 4 m) 0 e ∧ ∀ j < vl.lanes, s3 j = e)

/-! ### What a completed instruction leaves -/

/-- The frame of every row: only `V[dest]`, `MXCSR` and `RIP` change, `RIP` by the length, no byte of
memory, and no bit of `V[dest]` at or above `VL` is set (rules R170, R178, R190, R267). -/
def Frame (s t : State) (dest : BitVec 5) (len kl : Nat) : Prop :=
  (∀ b, 32 * kl ≤ b → (t.vreg dest).getLsbD b = false)
    ∧ (∀ r, r ≠ dest → t.vreg r = s.vreg r)
    ∧ t.rip = s.rip + BitVec.ofNat 64 len
    ∧ SameReadOnly s t ∧ SameParameters s t ∧ ∀ a, t.byteAt a = s.byteAt a

/-- A lane function applied to a state: `L s d s2 s3` on the lanes of `DEST`, `SRC2` and `SRC3`. -/
abbrev LaneFn := State → Lane → Lane → Lane → LaneResult

/-- The lane function with the controls of `MXCSR` (rules R134, R136). -/
def mxcsrLane (s : State) (x y z : Lane) : LaneResult :=
  fnmsub32 s.cfg.nanOrder x y z (RoundMode.ofBits (mxcsrRC s.mxcsr)) (mxcsrDAZ s.mxcsr)
    (mxcsrFTZ s.mxcsr) (mxcsrUM s.mxcsr) (mxcsrOM s.mxcsr)

/-- The lane function under embedded rounding: the mode of the encoding, every exception masked (rules
R134, R136, R149). -/
def erLane (rc : BitVec 2) (s : State) (x y z : Lane) : LaneResult :=
  fnmsub32 s.cfg.nanOrder x y z (RoundMode.ofBits rc) (mxcsrDAZ s.mxcsr) (mxcsrFTZ s.mxcsr) true true

/-- The lane results of a VEX row. -/
def vexLanes (L : LaneFn) (o : VexOperands) (s : State) (s3 : Nat → Lane) (j : Nat) : LaneResult :=
  L s (lane (s.vreg (vexReg o.dest)) j) (lane (s.vreg (vexReg o.src2)) j) (s3 j)

/-- The lane results of an EVEX row. -/
def evexLanes (L : LaneFn) (f : EvexFields) (s : State) (s3 : Nat → Lane) (j : Nat) : LaneResult :=
  L s (lane (s.vreg f.dest) j) (lane (s.vreg f.src2) j) (s3 j)

/-- Lane `j` of the new destination of an EVEX row (rule R190 line 10). -/
def MaskedLane (f : EvexFields) (s t : State) (r : Nat → LaneResult) (j : Nat) : Prop :=
  if enabled s f.aaa j = true then (r j).res = some (lane (t.vreg f.dest) j)
  else if f.z = true then lane (t.vreg f.dest) j = 0#32
  else lane (t.vreg f.dest) j = lane (s.vreg f.dest) j

/-- A VEX row of vector length `vl` with lane function `L` completes, in every state and for every form
of `SRC3` in which no check stops it and every flag a lane raises is masked, in the state of rule R170
lines 7 to 9. -/
def VexResult (i : VexOperands → Instr) (vl : VLen) (L : LaneFn) : Prop :=
  ∀ o s s3, VexReady o s → VexSource vl o s s3 →
    (∀ j < vl.lanes, Masked s.mxcsr (vexLanes L o s s3 j).pre ∧ Masked s.mxcsr (vexLanes L o s s3 j).post) →
    ∃ t, exec (i o) s = .next t
      ∧ (∀ j < vl.lanes, (vexLanes L o s s3 j).res = some (lane (t.vreg (vexReg o.dest)) j))
      ∧ MxcsrGains s.mxcsr t.mxcsr vl.lanes allLanes
          (fun j => (vexLanes L o s s3 j).pre.union (vexLanes L o s s3 j).post)
      ∧ Frame s t (vexReg o.dest) o.length vl.lanes

/-- The same for a plain EVEX row: rule R190 lines 9 to 12. Only enabled lanes count. -/
def EvexResult (i : EvexOperands → Instr) (vl : VLen) (L : LaneFn) : Prop :=
  ∀ o s s3, EvexReady vl o.f o.length s → EvexSource vl o s s3 →
    (∀ j < vl.lanes, enabled s o.f.aaa j = true →
      Masked s.mxcsr (evexLanes L o.f s s3 j).pre ∧ Masked s.mxcsr (evexLanes L o.f s s3 j).post) →
    ∃ t, exec (i o) s = .next t
      ∧ (∀ j < vl.lanes, MaskedLane o.f s t (evexLanes L o.f s s3) j)
      ∧ MxcsrGains s.mxcsr t.mxcsr vl.lanes (enabled s o.f.aaa)
          (fun j => (evexLanes L o.f s s3 j).pre.union (evexLanes L o.f s s3 j).post)
      ∧ Frame s t o.f.dest o.length vl.lanes

/-- The same for an embedded-rounding row: it completes whatever the lanes raise, and leaves `MXCSR` as
it is (rules R149, R200). -/
def ErResult (i : EvexErOperands → Instr) (L : BitVec 2 → LaneFn) : Prop :=
  ∀ o s, EvexReady .l512 o.f o.length s →
    ∃ t, exec (i o) s = .next t
      ∧ (∀ j < 16, MaskedLane o.f s t (evexLanes (L o.rc) o.f s fun j => lane (s.vreg o.src3) j) j)
      ∧ t.mxcsr = s.mxcsr
      ∧ Frame s t o.f.dest o.length 16

/-! ### What a SIMD floating-point exception leaves -/

/-- `#XM`, or `#UD` when `CR4.OSXMMEXCPT = 0`, in the state that differs in `MXCSR` alone (rules R225,
R231, R238). -/
def SimdFault (s : State) (m : BitVec 32) (r : Result) : Prop :=
  r = .fault (if s.cr4OSXMMEXCPT = true then .xm { s with mxcsr := m } else .ud { s with mxcsr := m })

/-- A VEX row with an unmasked flag in some lane: the pre-computation flags of all lanes when one of
those is unmasked, else all flags of all lanes (rules R148, R231). -/
def VexTrap (i : VexOperands → Instr) (vl : VLen) (L : LaneFn) : Prop :=
  ∀ o s s3, VexReady o s → VexSource vl o s s3 →
    ((∃ j < vl.lanes, ¬ Masked s.mxcsr (vexLanes L o s s3 j).pre) →
      ∃ m, MxcsrGains s.mxcsr m vl.lanes allLanes (fun j => (vexLanes L o s s3 j).pre)
        ∧ SimdFault s m (exec (i o) s))
    ∧ ((∀ j < vl.lanes, Masked s.mxcsr (vexLanes L o s s3 j).pre) →
      (∃ j < vl.lanes, ¬ Masked s.mxcsr (vexLanes L o s s3 j).post) →
      ∃ m, MxcsrGains s.mxcsr m vl.lanes allLanes
          (fun j => (vexLanes L o s s3 j).pre.union (vexLanes L o s s3 j).post)
        ∧ SimdFault s m (exec (i o) s))

/-- The same for a plain EVEX row, over its enabled lanes. -/
def EvexTrap (i : EvexOperands → Instr) (vl : VLen) (L : LaneFn) : Prop :=
  ∀ o s s3, EvexReady vl o.f o.length s → EvexSource vl o s s3 →
    ((∃ j < vl.lanes, enabled s o.f.aaa j = true ∧ ¬ Masked s.mxcsr (evexLanes L o.f s s3 j).pre) →
      ∃ m, MxcsrGains s.mxcsr m vl.lanes (enabled s o.f.aaa) (fun j => (evexLanes L o.f s s3 j).pre)
        ∧ SimdFault s m (exec (i o) s))
    ∧ ((∀ j < vl.lanes, enabled s o.f.aaa j = true → Masked s.mxcsr (evexLanes L o.f s s3 j).pre) →
      (∃ j < vl.lanes, enabled s o.f.aaa j = true ∧ ¬ Masked s.mxcsr (evexLanes L o.f s s3 j).post) →
      ∃ m, MxcsrGains s.mxcsr m vl.lanes (enabled s o.f.aaa)
          (fun j => (evexLanes L o.f s s3 j).pre.union (evexLanes L o.f s s3 j).post)
        ∧ SimdFault s m (exec (i o) s))

/-! ### What a memory operand that cannot be read does -/

/-- The operand's segment is `SS` (rules R60, R116): base register 4 or 5 and no `FS` or `GS` override. -/
def StackForm (p : Prefixes) (m : MemForm) : Prop :=
  (formBase m = some 4#4 ∨ formBase m = some 5#4) ∧ LegacyPrefix.fs ∉ p.legacy ∧ LegacyPrefix.gs ∉ p.legacy

/-- The page-fault code of an operand read (rule R229): `P` and `RSVD` of the map, `U/S` by `CPL`, all else 0. -/
def readFaultCode (s : State) : BitVec 32 :=
  0#28 ++ BitVec.ofBool s.mem.rsvdBit ++ BitVec.ofBool (decide (s.cpl = 3#2)) ++ 0#1 ++ BitVec.ofBool s.mem.pBit

/-- The outcomes of rules R53, R70, R227 to R230 for an operand of `size` bytes at `addr` of which the bytes
at the offsets `reads` are read: refused when the operand wraps past 2^64, whatever is read (D6, log entry
14); of the bytes read, `#SS(0)` or `#GP(0)` when one is not canonical; `#AC(0)` when alignment is asked for
and wrong; `#PF` with the lowest byte outside the map. Each clause assumes that the earlier ones do not
apply. -/
def OperandFaults (s : State) (p : Prefixes) (m : MemForm) (addr : Word64) (size : Nat) (aligned : Prop)
    (reads : Nat → Prop) (r : Result) : Prop :=
  (2 ^ 64 < addr.toNat + size → r = .refused (.operandWraps s))
    ∧ (addr.toNat + size ≤ 2 ^ 64 →
      ((∃ k, reads k ∧ isCanonical (byteAddr addr k) = false) →
        (StackForm p m → r = .fault (.ss 0#32 s)) ∧ (¬ StackForm p m → r = .fault (.gp 0#32 s)))
      ∧ ((∀ k, reads k → isCanonical (byteAddr addr k) = true) →
        (¬ aligned → r = .fault (.ac 0#32 s))
        ∧ (aligned → ∀ k, reads k → s.byteAt (byteAddr addr k) = none →
          (∀ k' < k, reads k' → s.byteAt (byteAddr addr k') ≠ none) →
          r = .fault (.pf (readFaultCode s) (byteAddr addr k) s))))

/-- A VEX row with a memory operand: every byte of the operand is read (rules R52, R177). -/
def VexOperandFaults (i : VexOperands → Instr) (vl : VLen) : Prop :=
  ∀ o s m, VexReady o s → o.src3 = .mem m →
    OperandFaults s o.pre m (linearAddr s o.pre o.length 1 m) (4 * vl.lanes) True (· < 4 * vl.lanes)
      (exec (i o) s)

/-- A plain EVEX row with a full-width memory operand: the four bytes of each enabled lane are read, with
no alignment check; with a broadcast operand: the four bytes of the element are read, and its alignment is
checked, if some lane is enabled (rules R56, R62, R203). -/
def EvexOperandFaults (i : EvexOperands → Instr) (vl : VLen) : Prop :=
  ∀ o s m, EvexReady vl o.f o.length s →
    (o.src3 = .mem m →
      OperandFaults s o.f.pre m (linearAddr s o.f.pre o.length vl.dispScale m) (4 * vl.lanes) True
        (fun k => k < 4 * vl.lanes ∧ enabled s o.f.aaa (k / 4) = true) (exec (i o) s))
    ∧ (o.src3 = .bcst m →
      OperandFaults s o.f.pre m (linearAddr s o.f.pre o.length 4 m) 4
        ((∃ j < vl.lanes, enabled s o.f.aaa j = true) → (s.cr0AM = true ∧ s.rflagsAC = true ∧ s.cpl = 3#2) →
          4 ∣ (linearAddr s o.f.pre o.length 4 m).toNat)
        (fun k => k < 4 ∧ ∃ j < vl.lanes, enabled s o.f.aaa j = true) (exec (i o) s))

/-! ### Comparing outcomes of two states -/

/-- A fault with another state. -/
def Fault.mapState (g : State → State) : Fault → Fault
  | .ud s => .ud (g s)
  | .nm s => .nm (g s)
  | .ss c s => .ss c (g s)
  | .gp c s => .gp c (g s)
  | .pf c a s => .pf c a (g s)
  | .ac c s => .ac c (g s)
  | .xm s => .xm (g s)

/-- A refusal with another state. -/
def Refusal.mapState (g : State → State) : Refusal → Refusal
  | .notOfGroup s => .notOfGroup (g s)
  | .prefixCombination s => .prefixCombination (g s)
  | .operandWraps s => .operandWraps (g s)
  | .instructionWraps s => .instructionWraps (g s)
  | .unsupportedMode s => .unsupportedMode (g s)
  | .mxcsrReserved s => .mxcsrReserved (g s)
  | .deviceMemory s => .deviceMemory (g s)
  | .endOfProgram s => .endOfProgram (g s)
  | .truncatedProgram s => .truncatedProgram (g s)
  | .outsideProgram s => .outsideProgram (g s)
  | r => r

/-- An outcome with another state. -/
def mapResult (g : State → State) : Result → Result
  | .next t => .next (g t)
  | .fault f => .fault (f.mapState g)
  | .refused r => .refused (r.mapState g)

end Sys2Proof.Machine
end

