-- ==== Sys2Proof/Certificates/Slice0/Obligations.lean ====
section
/-!
DEFINITION. The statements about the model, for the provers. Each docstring names the rules of spec/ it
formalises, or says that a clause is the model's own choice and names the log entry.
-/

open Sys2Proof Sys2Proof.Machine

/-! ### Reset and launch -/

/-- The values rule R35 gives after RESET: vector and opmask registers 0, `MXCSR`, `RIP`, `CS.base`,
general registers 0 but `rdx`, `RFLAGS`, `CR0`, `CR4`, `XCR0`, the segment bases, `CPL`. -/
def Obligations.ResetHoldsStatedValues : Prop :=
  (∀ r, State.reset.vreg r = 0#512) ∧ (∀ a, State.reset.opmask a = 0#64)
    ∧ State.reset.mxcsr = 0x00001F80#32 ∧ State.reset.rip = 0xFFF0#64
    ∧ State.reset.csBase = 0xFFFF0000#64 ∧ (∀ r, r ≠ 2#4 → State.reset.gpr r = 0#64)
    ∧ State.reset.rflags = 2#64 ∧ State.reset.cr0 = 0x60000010#64 ∧ State.reset.cr4 = 0#64
    ∧ State.reset.xcr0 = 1#64 ∧ State.reset.fsBase = 0#64 ∧ State.reset.gsBase = 0#64
    ∧ State.reset.cpl = 0#2

/-- The invariant holds at reset (rules R7, R21, R23, R26, R50, R59; the memory at reset is the model's choice,
log entry 9). -/
def Obligations.ResetMeetsInvariant : Prop := Inv State.reset

/-- Rule R261: after RESET the processor is in real-address mode with `CR4.OSXSAVE = 0` and `XCR0 = 1`,
fetches at FFFFFFF0h, and every encoding of the group raises `#UD` (one longer than 15 bytes `#GP(0)` first,
rule R102). This is said of the meanings, of `exec` alone: `step` itself refuses this mode before it fetches
(log entry 16). -/
def Obligations.EveryInstructionIsInvalidAfterReset : Prop :=
  State.reset.mode = .realAddress ∧ State.reset.cr4OSXSAVE = false ∧ State.reset.xcr0 = 1#64
    ∧ fetchAddress State.reset = 0xFFFFFFF0#64
    ∧ ∀ i : Instr, exec i State.reset
        = .fault (if i.length ≤ 15 then .ud State.reset else .gp 0#32 State.reset)

/-- The launch of program bytes from the reset state gives the control state of rule R263's defaults and
places the bytes at `RIP`. Three clauses are the model's choice: that the launch starts from the reset
registers (log entry 1), the values of `kwidth` and `nanOrder`, which are D12 and D13 and not rule R263's
(log entry 18), and that the reset memory, which `Inv` speaks of, lists nothing (log entry 9). -/
def Obligations.LaunchGivesDefaultControlState : Prop :=
  ∀ bytes : Bytes,
    let s := State.reset.launch bytes
    s.mode = .bits64 ∧ s.cr4OSXSAVE = true ∧ s.xcr0 = 0xE7#64 ∧ s.cr0TS = false
      ∧ s.cr4OSXMMEXCPT = true ∧ s.cr0AM = false ∧ s.rflagsAC = false ∧ s.cpl = 3#2
      ∧ s.cfg = { fma := true, avx512f := true, avx512vl := true, kwidth := .w64, nanOrder := .xyz }
      ∧ maxVL s.cfg = 512 ∧ s.mxcsr = 0x1F80#32 ∧ isCanonical s.rip = true
      ∧ s.prog = { base := s.rip, bytes := bytes } ∧ Inv s

/-- A word of the opcode table that the decoder reads is the first instruction that runs after it is loaded
into the reset machine (log entry 1). -/
def Obligations.LoadedTableWordRunsFirst : Prop :=
  ∀ nbits w i, decodeTableWord nbits w = some i →
    step (State.reset.withFetchWord nbits w) = exec i (State.reset.withFetchWord nbits w)

/-! ### Fetch and step -/

/-- A step runs the decoded instruction (rules R15, R69): when the program bytes at `RIP` start with an
instruction all of whose bytes are at canonical addresses and do not wrap, the step is `exec` of it. -/
def Obligations.StepRunsDecodedInstruction : Prop :=
  ∀ (s : State) (bytes rest : Bytes) (i : Instr), s.mode = .bits64 → mxcsrReservedBits s.mxcsr = 0#16 →
    s.mem.device = [] → programFrom s = some bytes → decode bytes = .ok (i, rest) →
    s.rip.toNat + i.length ≤ 2 ^ 64 → (∀ k < i.length, isCanonical (byteAddr s.rip k) = true) →
    step s = exec i s

/-- Rules R69, R228 (c): a byte that decoding needs at a non-canonical address is `#GP(0)`, whether it is
the first byte or a later one. That this also holds of a first byte outside the program bytes (the second
clause) is DEDUCED (log entry 12), and so is that decoding needs a byte past the fifteenth where fifteen do
not decide the group (log entry 13). -/
def Obligations.NonCanonicalFetchFaults : Prop :=
  ∀ s : State, s.mode = .bits64 → mxcsrReservedBits s.mxcsr = 0#16 → s.mem.device = [] →
    (∀ (bytes : Bytes) (n : Nat) (g : Bool), programFrom s = some bytes → n < bytes.length →
      s.rip.toNat + n < 2 ^ 64 → (∀ k < n, isCanonical (byteAddr s.rip k) = true) →
      isCanonical (byteAddr s.rip n) = false → decode (bytes.take n) = .error (.truncated g) →
      step s = .fault (.gp 0#32 s))
    ∧ (programFrom s = none → isCanonical s.rip = false → step s = .fault (.gp 0#32 s))

/-- Rules R69, R99, R102, R228 (b), D16: an instruction of the group longer than fifteen bytes raises
`#GP(0)`: when the first `n` program bytes, fifteen or more, show that it is of the group and lack operand
bytes alone, or hold it whole. In the first case nothing after them matters but whether the instruction runs
past 2^64 (D6; StepRefusesByName), which no program does that ends below (log entry 13). -/
def Obligations.OverlongFetchFaults : Prop :=
  ∀ (s : State) (bytes : Bytes) (n : Nat), s.mode = .bits64 → mxcsrReservedBits s.mxcsr = 0#16 →
    s.mem.device = [] → programFrom s = some bytes → 15 ≤ n → n ≤ bytes.length →
    s.rip.toNat + n ≤ 2 ^ 64 → (∀ k < n, isCanonical (byteAddr s.rip k) = true) →
    (decode (bytes.take n) = .error (.truncated true) ∧ s.rip.toNat + bytes.length < 2 ^ 64
      ∨ ∃ i rest, decode (bytes.take n) = .ok (i, rest) ∧ 15 < i.length) →
    step s = .fault (.gp 0#32 s)

/-- Bytes that are no admitted instruction of the group are refused by name however many bytes it takes to
decide it, before the length is compared with fifteen (rules R81, R86, R97, R99; D7, D15). An instruction
that the program bytes cut off is refused, unless fifteen of them show that it is of the group, and the first
address past the program ends the run (rule R269 c); an instruction that runs past 2^64 is refused, whatever
its length (rules R27, R70, D6); an address outside the program is refused. What is said of cut-off
instructions and of addresses outside is log entries 12 and 13. Each refusal carries the state (rule R269 b,
c). -/
def Obligations.StepRefusesByName : Prop :=
  ∀ s : State, s.mode = .bits64 → mxcsrReservedBits s.mxcsr = 0#16 → s.mem.device = [] →
    (programFrom s = some [] → step s = .refused (.endOfProgram s))
    ∧ (∀ (bytes : Bytes) (n : Nat), programFrom s = some bytes → n ≤ bytes.length →
      s.rip.toNat + n ≤ 2 ^ 64 → (∀ k < n, isCanonical (byteAddr s.rip k) = true) →
      (decode (bytes.take n) = .error .notOfGroup → step s = .refused (.notOfGroup s))
      ∧ (decode (bytes.take n) = .error .prefixCombination → step s = .refused (.prefixCombination s)))
    ∧ (∀ (bytes : Bytes) (g : Bool), programFrom s = some bytes → bytes ≠ [] →
      s.rip.toNat + bytes.length < 2 ^ 64 → (∀ k < bytes.length, isCanonical (byteAddr s.rip k) = true) →
      decode bytes = .error (.truncated g) → (g = true → bytes.length < 15) →
      step s = .refused (.truncatedProgram s))
    ∧ (∀ (bytes : Bytes) (n : Nat) (g : Bool), programFrom s = some bytes → n ≤ bytes.length →
      s.rip.toNat + n = 2 ^ 64 → (∀ k < n, isCanonical (byteAddr s.rip k) = true) →
      decode (bytes.take n) = .error (.truncated g) → step s = .refused (.instructionWraps s))
    ∧ (programFrom s = none → isCanonical s.rip = true → step s = .refused (.outsideProgram s))

/-- What the spec asks a model to refuse before any step: a mode other than 64-bit (D1), `MXCSR[31:16]` not
zero (rule R26), a map that marks device memory (rule R58). -/
def Obligations.UnadmittedStatesAreRefused : Prop :=
  ∀ s : State, (s.mode ≠ .bits64 → step s = .refused (.unsupportedMode s))
    ∧ (s.mode = .bits64 → mxcsrReservedBits s.mxcsr ≠ 0#16 → step s = .refused (.mxcsrReserved s))
    ∧ (s.mode = .bits64 → mxcsrReservedBits s.mxcsr = 0#16 → s.mem.device ≠ [] →
      step s = .refused (.deviceMemory s))

/-! ### Encoding -/

/-- Words written out from rules R83, R85, R87 to R98 and the examples of rules R171 to R202 decode to the
instructions they stand for. -/
def Obligations.HandWrittenWordsDecode : Prop :=
  decode [0xC4, 0xE2, 0x69, 0x9E, 0xCB]
      = .ok (.vfnmsub132psVex128 ⟨⟨[], []⟩, 1, 2, .reg 3⟩, [])
    ∧ decode [0xC4, 0xE2, 0x6D, 0xAE, 0x4C, 0x8B, 0x10]
      = .ok (.vfnmsub213psVex256 ⟨⟨[], []⟩, 1, 2, .mem (.sib 2 1 3 (.d8 0x10))⟩, [])
    ∧ decode [0xC4, 0x02, 0x25, 0xBE, 0x54, 0xEC, 0x80]
      = .ok (.vfnmsub231psVex256 ⟨⟨[], []⟩, 10, 11, .mem (.sib 3 13 12 (.d8 0x80))⟩, [])
    ∧ decode [0x62, 0xF2, 0x6D, 0x19, 0xAE, 0x48, 0xFF]
      = .ok (.vfnmsub213psEvex128
          ⟨⟨⟨[], []⟩, false, true, false, 1, 1, 2⟩, .bcst (.base 0 (.d8 0xFF))⟩, [])
    ∧ decode [0x62, 0xF2, 0x6D, 0x29, 0xBE, 0x48, 0x01]
      = .ok (.vfnmsub231psEvex256
          ⟨⟨⟨[], []⟩, false, true, false, 1, 1, 2⟩, .mem (.base 0 (.d8 0x01))⟩, [])
    ∧ decode [0x62, 0xA2, 0x6D, 0x40, 0x9E, 0xCB]
      = .ok (.vfnmsub132psEvex512 false ⟨⟨⟨[], []⟩, false, true, false, 0, 17, 18⟩, .reg 19⟩, [])
    ∧ decode [0x62, 0x52, 0x5D, 0xD5, 0xBE, 0xCB]
      = .ok (.vfnmsub231psEvex512er ⟨⟨⟨[], []⟩, false, true, true, 5, 9, 20⟩, 2, 11⟩, [])

/-- Decoding the encoding of a well-formed instruction, whatever follows it, gives the instruction back and
leaves what follows (rules R80 to R95, R110 to R112). -/
def Obligations.DecodeInvertsEncode : Prop :=
  ∀ (i : Instr) (rest : Bytes), i.wf = true → decode (encode i ++ rest) = .ok (i, rest)

/-- What the decoder gives is well formed, and it took exactly the bytes its length says (rules R81, R99,
R102, R110, R111). -/
def Obligations.DecodedInstructionIsWellFormed : Prop :=
  ∀ (bytes rest : Bytes) (i : Instr), decode bytes = .ok (i, rest) →
    i.wf = true ∧ bytes.length = i.length + rest.length ∧ bytes.drop i.length = rest

/-- Decoding depends on the bytes of the instruction alone: a decoder tells the length from them (rule
R102). -/
def Obligations.DecodeReadsOnlyTheInstruction : Prop :=
  ∀ (bytes rest tail : Bytes) (i : Instr), decode bytes = .ok (i, rest) →
    decode (bytes.take i.length ++ tail) = .ok (i, tail)

/-- Rules R84, R86, R89, R97 and D7: after admitted prefixes, another map, another `pp`, `W = 1`, another
opcode byte, and any first byte but C4h and 62h (C5h among them) are not of the group. -/
def Obligations.NeighboursAreNotOfTheGroup : Prop :=
  ∀ (pre : Prefixes) (bytes : Bytes), pre.admitted = true →
    (∀ p1 p2 op : Byte,
      (p1.extractLsb' 0 5 ≠ 2#5 ∨ p2.extractLsb' 0 2 ≠ 1#2 ∨ p2.getLsbD 7 = true
        ∨ (op ≠ 0x9E#8 ∧ op ≠ 0xAE#8 ∧ op ≠ 0xBE#8)) →
      decode (pre.bytes ++ 0xC4#8 :: p1 :: p2 :: op :: bytes) = .error .notOfGroup)
    ∧ (∀ p0 p1 p2 op : Byte,
      (p0.extractLsb' 0 3 ≠ 2#3 ∨ p1.extractLsb' 0 2 ≠ 1#2 ∨ p1.getLsbD 7 = true
        ∨ (op ≠ 0x9E#8 ∧ op ≠ 0xAE#8 ∧ op ≠ 0xBE#8)) →
      decode (pre.bytes ++ 0x62#8 :: p0 :: p1 :: p2 :: op :: bytes) = .error .notOfGroup)
    ∧ (∀ b : Byte,
      b ∉ [0x26#8, 0x2E#8, 0x36#8, 0x3E#8, 0x64#8, 0x65#8, 0x67#8, 0x66#8, 0xF0#8, 0xF2#8, 0xF3#8] →
      b.extractLsb' 4 4 ≠ 4#4 → b ≠ 0xC4#8 → b ≠ 0x62#8 →
      decode (pre.bytes ++ b :: bytes) = .error .notOfGroup)

/-- Rule R81, D15: more than one segment override, or more than one 67h, is refused. -/
def Obligations.RepeatedPrefixesAreRefused : Prop :=
  ∀ (legacy : List LegacyPrefix) (b : Byte) (bytes : Bytes),
    b ∉ [0x26#8, 0x2E#8, 0x36#8, 0x3E#8, 0x64#8, 0x65#8, 0x67#8, 0x66#8, 0xF0#8, 0xF2#8, 0xF3#8] →
    (2 ≤ legacy.countP LegacyPrefix.isSegment ∨ 2 ≤ legacy.count .addrSize) →
    decode (legacy.map LegacyPrefix.byte ++ b :: bytes) = .error .prefixCombination

/-- Rule R102: without prefixes a VEX row has 5 to 10 bytes and an EVEX row 6 to 11, and each prefix byte
adds one. -/
def Obligations.InstructionLengths : Prop :=
  (∀ f l o, (encode (vexInstr f l o)).length = (vexInstr f l o).length
    ∧ 5 + o.pre.length ≤ (vexInstr f l o).length ∧ (vexInstr f l o).length ≤ 10 + o.pre.length)
  ∧ (∀ f l' l o, (encode (evexInstr f l' l o)).length = (evexInstr f l' l o).length
    ∧ 6 + o.f.pre.length ≤ (evexInstr f l' l o).length ∧ (evexInstr f l' l o).length ≤ 11 + o.f.pre.length)
  ∧ (∀ f o, (encode (evexErInstr f o)).length = (evexErInstr f o).length
    ∧ (evexErInstr f o).length = 6 + o.f.pre.length)

/-! ### The memory operand -/

/-- Rules R110 to R114: the address expression of each form as an integer modulo 2^64, and the scale of the
8-bit displacement. -/
def Obligations.AddressExpressions : Prop :=
  let dispInt : Nat → Disp → Int := fun n d => match d with
    | .none => 0
    | .d8 b => b.toInt * n
    | .d32 b => b.toInt
  (∀ s len n r d, addrExpr s len n (.base r d) = BitVec.ofInt 64 ((s.gpr r).toNat + dispInt n d))
    ∧ (∀ s len n d, addrExpr s len n (.ripRel d) = BitVec.ofInt 64 (s.rip.toNat + len + d.toInt))
    ∧ (∀ s len n sc i b d, addrExpr s len n (.sib sc i b d) = BitVec.ofInt 64
        ((s.gpr b).toNat + (if i = 4#4 then 0 else (s.gpr i).toNat * 2 ^ sc.toNat) + dispInt n d))
    ∧ (∀ s len n sc i d, addrExpr s len n (.sibNoBase sc i d) = BitVec.ofInt 64
        ((if i = 4#4 then 0 else (s.gpr i).toNat * 2 ^ sc.toNat) + d.toInt))
    ∧ VLen.l128.dispScale = 16 ∧ VLen.l256.dispScale = 32 ∧ VLen.l512.dispScale = 64

/-- Rule R115: without 67h the effective address is the expression modulo 2^64; with it, the expression
modulo 2^32, and only the low 32 bits of the registers and of `RIP` matter. -/
def Obligations.AddressSizePrefixTruncates : Prop :=
  ∀ (s s' : State) (pre : Prefixes) (len n : Nat) (m : MemForm),
    (LegacyPrefix.addrSize ∉ pre.legacy → effectiveAddr s pre len n m = addrExpr s len n m)
    ∧ (LegacyPrefix.addrSize ∈ pre.legacy →
      (effectiveAddr s pre len n m).toNat = (addrExpr s len n m).toNat % 2 ^ 32
      ∧ ((∀ r, (s.gpr r).setWidth 32 = (s'.gpr r).setWidth 32) → s.rip.setWidth 32 = s'.rip.setWidth 32 →
        effectiveAddr s pre len n m = effectiveAddr s' pre len n m))

/-- Rule R116: the `FS` or `GS` base is added with its override prefix, and no other override changes the
address; for admitted prefixes. -/
def Obligations.SegmentOverridesAddBase : Prop :=
  ∀ (s : State) (pre : Prefixes) (len n : Nat) (m : MemForm), pre.admitted = true →
    (LegacyPrefix.fs ∈ pre.legacy → linearAddr s pre len n m = s.fsBase + effectiveAddr s pre len n m)
    ∧ (LegacyPrefix.gs ∈ pre.legacy → linearAddr s pre len n m = s.gsBase + effectiveAddr s pre len n m)
    ∧ (LegacyPrefix.fs ∉ pre.legacy → LegacyPrefix.gs ∉ pre.legacy →
      linearAddr s pre len n m = effectiveAddr s pre len n m)

/-- Rule R50: fetch and the operand read use one address space, in which an address names one byte. The
bytes that are fetched are the program's at their addresses; a data read at an address of the program finds
the program's byte; elsewhere it finds the map's; and a launch leaves every address of the map outside the
program as it was. That a byte of the program is readable as data only where the map lists its address is
the model's choice (log entry 11). -/
def Obligations.OneAddressSpace : Prop :=
  ∀ s : State,
    (s.prog.bytes.length ≤ 2 ^ 64 → ∀ bytes k, programFrom s = some bytes → k < bytes.length →
      s.prog.byte (byteAddr (fetchAddress s) k) = bytes[k]?)
    ∧ (∀ a b b', s.prog.byte a = some b → s.byteAt a = some b' → b' = b)
    ∧ (∀ a, s.prog.byte a = none → s.byteAt a = s.mem.byte a)
    ∧ (∀ a, (s.byteAt a).isSome = (s.mem.byte a).isSome)
    ∧ (∀ (bytes : Bytes) a, (s.launch bytes).prog.byte a = none →
      (s.launch bytes).byteAt a = s.mem.byte a)

/-- Rules R51, R53: a 32-bit read answers exactly when its four bytes are in the map, and is little-endian. -/
def Obligations.ReadsAreLittleEndian : Prop :=
  ∀ (s : State) (a : Word64) (w : Lane),
    s.read32 a = some w ↔ ∀ i < 4, s.byteAt (byteAddr a i) = some (w.extractLsb' (8 * i) 8)

/-! ### The lane function -/

/-- Rule R132: the value of a finite pattern, and the three named magnitudes as the extremes they are. -/
def Obligations.PatternValues : Prop :=
  (∀ b, FinitePattern b → laneValue b
      = (-1) ^ (signOf b).toNat * (if expOf b = 0 then (fracOf b : ℚ) * 2 ^ (-149 : ℤ)
          else (2 ^ 23 + (fracOf b : ℚ)) * 2 ^ ((expOf b : ℤ) - 150)))
    ∧ laneValue 0x7F7FFFFF#32 = (2 ^ 24 - 1) * 2 ^ 104
    ∧ (∀ b, FinitePattern b → |laneValue b| ≤ (2 ^ 24 - 1) * 2 ^ 104)
    ∧ laneValue 0x00800000#32 = 2 ^ (-126 : ℤ)
    ∧ (∀ b, FinitePattern b → expOf b ≠ 0 → 2 ^ (-126 : ℤ) ≤ |laneValue b|)
    ∧ laneValue 0x00000001#32 = 2 ^ (-149 : ℤ)
    ∧ (∀ b, isDenormal b = true → 2 ^ (-149 : ℤ) ≤ |laneValue b|)

/-- Rules R12, R142: what is rounded is the exact rational `-(val(x)*val(y)) - val(z)`. -/
def Obligations.ExactResultIsExact : Prop :=
  ∀ x y z, exactRational (exactValue x y z) = -(laneValue x * laneValue y) - laneValue z

/-- Rule R135: with `DAZ` a denormal lane is replaced by the zero of its sign, anything else is kept; the
lane function works on the replaced operands, raises no denormal exception, and calls `0 * inf` with a
replaced zero invalid. -/
def Obligations.DazReplacesDenormals : Prop :=
  (∀ b, isDenormal b = true → applyDaz true b = b &&& 0x80000000#32 ∧ isZero (applyDaz true b) = true
      ∧ signOf (applyDaz true b) = signOf b)
    ∧ (∀ b, isDenormal b = false → applyDaz true b = b)
    ∧ ∀ order x y z rc ftz um om,
      fnmsub32 order x y z rc true ftz um om
          = fnmsub32 order (applyDaz true x) (applyDaz true y) (applyDaz true z) rc false ftz um om
        ∧ (fnmsub32 order x y z rc true ftz um om).pre.de = false
        ∧ (isDenormal x = true → isInf y = true → isNaN z = false →
          (fnmsub32 order x y z rc true ftz um om).pre.ie = true)

/-- Rule R138: with a NaN operand the result is a NaN operand made quiet, the first in the order `x`, `y`,
`z` under the default of `nanOrder` (D13); `IE` exactly when some operand is an SNaN; no other flag. -/
def Obligations.NaNOperandIsReturnedQuiet : Prop :=
  ∀ order x y z rc daz ftz um om, (isNaN x = true ∨ isNaN y = true ∨ isNaN z = true) →
    let r := fnmsub32 order x y z rc daz ftz um om
    (∃ n, (n = x ∨ n = y ∨ n = z) ∧ isNaN n = true ∧ r.res = some (n ||| 0x00400000#32))
      ∧ (order = .xyz → r.res
          = some ((if isNaN x then x else if isNaN y then y else z) ||| 0x00400000#32))
      ∧ r.pre = { ie := isSNaN x || isSNaN y || isSNaN z, de := false, oe := false, ue := false, pe := false }
      ∧ r.post = FpFlags.empty

/-- Rule R139: `0 * inf`, and `inf - inf`, without a NaN operand: the default NaN and `IE` alone. -/
def Obligations.InvalidOperationGivesDefaultNaN : Prop :=
  ∀ order a b c rc daz ftz um om,
    let x := applyDaz daz a
    let y := applyDaz daz b
    let z := applyDaz daz c
    isNaN a = false → isNaN b = false → isNaN c = false →
    ((isZero x = true ∧ isInf y = true) ∨ (isInf x = true ∧ isZero y = true)
      ∨ ((isInf x = true ∨ isInf y = true) ∧ isInf z = true
        ∧ (!(Bool.xor (signOf x) (signOf y))) ≠ (!signOf z))) →
    fnmsub32 order a b c rc daz ftz um om
      = { res := some 0xFFC00000#32, pre := { FpFlags.empty with ie := true }, post := FpFlags.empty }

/-- Rule R140: where neither rule R138 nor rule R139 applies, `DE` exactly when an operand is denormal
after rule R135, and no `IE`. -/
def Obligations.DenormalOperandRaisesDE : Prop :=
  ∀ order a b c rc daz ftz um om,
    let x := applyDaz daz a
    let y := applyDaz daz b
    let z := applyDaz daz c
    isNaN a = false → isNaN b = false → isNaN c = false →
    ¬ (isZero x = true ∧ isInf y = true) → ¬ (isInf x = true ∧ isZero y = true) →
    ¬ ((isInf x = true ∨ isInf y = true) ∧ isInf z = true
        ∧ (!(Bool.xor (signOf x) (signOf y))) ≠ (!signOf z)) →
    (fnmsub32 order a b c rc daz ftz um om).pre
      = { FpFlags.empty with de := decide (daz = false ∧
          (isDenormal a = true ∨ isDenormal b = true ∨ isDenormal c = true)) }

/-- Rule R141: valid infinite operands give an infinity and no post-computation flag. -/
def Obligations.InfiniteOperandsGiveInfinity : Prop :=
  ∀ order a b c rc daz ftz um om,
    let x := applyDaz daz a
    let y := applyDaz daz b
    let z := applyDaz daz c
    let r := fnmsub32 order a b c rc daz ftz um om
    isNaN a = false → isNaN b = false → isNaN c = false →
    ((isInf x = true ∨ isInf y = true) → isZero x = false → isZero y = false →
      (isInf z = true → (!(Bool.xor (signOf x) (signOf y))) = (!signOf z)) →
      r.res = some (if (!(Bool.xor (signOf x) (signOf y))) then 0xFF800000#32 else 0x7F800000#32)
        ∧ r.post = FpFlags.empty)
    ∧ (isInf x = false → isInf y = false → isInf z = true →
      r.res = some (if !signOf z then 0xFF800000#32 else 0x7F800000#32) ∧ r.post = FpFlags.empty)

/-- Rule R142: an exact zero has the sign of its two like-signed zero terms, and else is `+0`, or `-0` when
rounding down; no post-computation flag. -/
def Obligations.ExactZeroSign : Prop :=
  ∀ order a b c rc daz ftz um om,
    let x := applyDaz daz a
    let y := applyDaz daz b
    let z := applyDaz daz c
    let r := fnmsub32 order a b c rc daz ftz um om
    FinitePattern x → FinitePattern y → FinitePattern z →
    -(laneValue x * laneValue y) - laneValue z = 0 →
    (((isZero x = true ∨ isZero y = true) ∧ isZero z = true
        ∧ (!(Bool.xor (signOf x) (signOf y))) = (!signOf z)) →
      r.res = some (if !signOf z then 0x80000000#32 else 0x00000000#32))
    ∧ (¬ ((isZero x = true ∨ isZero y = true) ∧ isZero z = true
        ∧ (!(Bool.xor (signOf x) (signOf y))) = (!signOf z)) →
      r.res = some (if rc = .rd then 0x80000000#32 else 0x00000000#32))
    ∧ r.post = FpFlags.empty

/-- Finite operands with a nonzero exact result are rounded by `Round32` (rules R137, R147). -/
def Obligations.FiniteLanesAreRounded : Prop :=
  ∀ order a b c rc daz ftz um om,
    let x := applyDaz daz a
    let y := applyDaz daz b
    let z := applyDaz daz c
    let r := fnmsub32 order a b c rc daz ftz um om
    FinitePattern x → FinitePattern y → FinitePattern z →
    -(laneValue x * laneValue y) - laneValue z ≠ 0 →
    (r.res, r.post) = round32 (exactValue x y z) rc ftz um om

/-- Rules R133, R137, R143, R145: with underflow and overflow masked and no flushing, a result that does
not overflow is the correctly rounded one: no finite single-precision number serves the rounding mode
better, ties go to the even one, the sign is that of the exact value, and `PE` says whether the two
differ. -/
def Obligations.RoundingIsCorrect : Prop :=
  ∀ (r : Int) (rc : RoundMode) (b : Lane) (post : FpFlags), r ≠ 0 →
    round32 r rc false true true = (some b, post) → post.oe = false →
    FinitePattern b ∧ signOf b = decide (r < 0) ∧ (post.pe = true ↔ laneValue b ≠ exactRational r)
    ∧ match rc with
      | .rd => laneValue b ≤ exactRational r
          ∧ ∀ c, FinitePattern c → laneValue c ≤ exactRational r → laneValue c ≤ laneValue b
      | .ru => exactRational r ≤ laneValue b
          ∧ ∀ c, FinitePattern c → exactRational r ≤ laneValue c → laneValue b ≤ laneValue c
      | .rz => |laneValue b| ≤ |exactRational r|
          ∧ ∀ c, FinitePattern c → |laneValue c| ≤ |exactRational r| → |laneValue c| ≤ |laneValue b|
      | .rn => ∀ c, FinitePattern c →
          |laneValue b - exactRational r| ≤ |laneValue c - exactRational r|
          ∧ (|laneValue b - exactRational r| = |laneValue c - exactRational r| →
              laneValue c = laneValue b ∨ b.getLsbD 0 = false)

/-- Rule R144: overflow happens exactly when the value rounded to 24 bits with unbounded exponent exceeds
the largest finite number; masked, the result is the infinity or the largest finite number of the sign by
the rounding mode, with `OE` and `PE`; unmasked, there is no result, and `PE` says whether the 24-bit
rounding was inexact. -/
def Obligations.OverflowRule : Prop :=
  ∀ (r : Int) (rc : RoundMode) (ftz um om : Bool), r ≠ 0 →
    let v := |exactRational r|
    let away := rc = .ru ∧ 0 < r ∨ rc = .rd ∧ r < 0
    let big := (rc = .rn ∧ (2 ^ 25 - 1) * 2 ^ 103 ≤ v) ∨ (away ∧ (2 ^ 24 - 1) * 2 ^ 104 < v)
      ∨ (2 : ℚ) ^ 128 ≤ v
    let out := round32 r rc ftz um om
    (out.2.oe = true ↔ big)
    ∧ (big → om = true → out.2 = { FpFlags.empty with oe := true, pe := true }
      ∧ ((rc = .rn ∨ away) → out.1 = some (if r < 0 then 0xFF800000#32 else 0x7F800000#32))
      ∧ (¬ (rc = .rn ∨ away) → out.1 = some (if r < 0 then 0xFF7FFFFF#32 else 0x7F7FFFFF#32)))
    ∧ (big → om = false → out.1 = none ∧ out.2 = { FpFlags.empty with oe := true, pe := out.2.pe }
      ∧ (out.2.pe = false ↔ ∃ m k : Nat, m < 2 ^ 24 ∧ r.natAbs = m * 2 ^ k))

/-- Rule R145: a result is tiny exactly when the value rounded to 24 bits with unbounded exponent is below
2^-126 (tininess is detected after rounding); unmasked, there is no result and `UE`; masked and flushed, the
zero of the sign with `UE` and `PE`; masked and not flushed, one rounding of the exact value to a multiple
of 2^-149, with `UE` and `PE` exactly when it is inexact. `q` is the exact magnitude in units of 2^-298. -/
def Obligations.UnderflowRule : Prop :=
  ∀ (r : Int) (rc : RoundMode) (ftz um om : Bool), r ≠ 0 →
    let q := r.natAbs
    let away := rc = .ru ∧ 0 < r ∨ rc = .rd ∧ r < 0
    let tiny := (rc = .rn ∧ q < 2 ^ 172 - 2 ^ 147) ∨ (away ∧ q ≤ 2 ^ 172 - 2 ^ 148)
      ∨ (rc ≠ .rn ∧ ¬ away ∧ q < 2 ^ 172)
    let out := round32 r rc ftz um om
    (¬ tiny → out.2.ue = false)
    ∧ (tiny → um = false → out.1 = none ∧ out.2 = { FpFlags.empty with ue := true, pe := out.2.pe }
      ∧ (out.2.pe = false ↔ ∃ m k : Nat, m < 2 ^ 24 ∧ q = m * 2 ^ k))
    ∧ (tiny → um = true → ftz = true →
      out = (some (if r < 0 then 0x80000000#32 else 0x00000000#32),
        { FpFlags.empty with ue := true, pe := true }))
    ∧ (tiny → um = true → ftz = false → ∃ b,
      out = (some b, { FpFlags.empty with
        ue := decide (magnitude b * 2 ^ 149 ≠ q), pe := decide (magnitude b * 2 ^ 149 ≠ q) })
      ∧ signOf b = decide (r < 0) ∧ magnitude b ≤ 2 ^ 23 ∧ magnitude b = rInt q (2 ^ 149) rc (decide (r < 0)))

/-! ### The instructions: results, completion and frame -/

/-- Rules R146, R147, R148, R170, R171, R172, R173: the VEX.128 rows complete, with four lanes computed by
their roles, the flags of all lanes gathered, and nothing else changed; for a register and for a memory
`SRC3`. -/
def Obligations.VexXmmRowsComplete : Prop :=
  VexResult .vfnmsub132psVex128 .l128 (fun s d s2 s3 => mxcsrLane s d s3 s2)
    ∧ VexResult .vfnmsub213psVex128 .l128 (fun s d s2 s3 => mxcsrLane s s2 d s3)
    ∧ VexResult .vfnmsub231psVex128 .l128 (fun s d s2 s3 => mxcsrLane s s2 s3 d)

/-- Rules R174, R175, R176: the same for the VEX.256 rows, with eight lanes. -/
def Obligations.VexYmmRowsComplete : Prop :=
  VexResult .vfnmsub132psVex256 .l256 (fun s d s2 s3 => mxcsrLane s d s3 s2)
    ∧ VexResult .vfnmsub213psVex256 .l256 (fun s d s2 s3 => mxcsrLane s s2 d s3)
    ∧ VexResult .vfnmsub231psVex256 .l256 (fun s d s2 s3 => mxcsrLane s s2 s3 d)

/-- Rules R150, R190 to R193: the EVEX.128 rows complete, enabled lanes computed, disabled lanes kept or
zeroed; for a register, a full-width memory and a broadcast `SRC3`. -/
def Obligations.EvexXmmRowsComplete : Prop :=
  EvexResult .vfnmsub132psEvex128 .l128 (fun s d s2 s3 => mxcsrLane s d s3 s2)
    ∧ EvexResult .vfnmsub213psEvex128 .l128 (fun s d s2 s3 => mxcsrLane s s2 d s3)
    ∧ EvexResult .vfnmsub231psEvex128 .l128 (fun s d s2 s3 => mxcsrLane s s2 s3 d)

/-- Rules R194, R195, R196: the same for the EVEX.256 rows. -/
def Obligations.EvexYmmRowsComplete : Prop :=
  EvexResult .vfnmsub132psEvex256 .l256 (fun s d s2 s3 => mxcsrLane s d s3 s2)
    ∧ EvexResult .vfnmsub213psEvex256 .l256 (fun s d s2 s3 => mxcsrLane s s2 d s3)
    ∧ EvexResult .vfnmsub231psEvex256 .l256 (fun s d s2 s3 => mxcsrLane s s2 s3 d)

/-- Rules R197, R198, R199: the same for the EVEX.512 rows with `L'L = 10b`. -/
def Obligations.EvexZmmRowsComplete : Prop :=
  EvexResult (.vfnmsub132psEvex512 false) .l512 (fun s d s2 s3 => mxcsrLane s d s3 s2)
    ∧ EvexResult (.vfnmsub213psEvex512 false) .l512 (fun s d s2 s3 => mxcsrLane s s2 d s3)
    ∧ EvexResult (.vfnmsub231psEvex512 false) .l512 (fun s d s2 s3 => mxcsrLane s s2 s3 d)

/-- Rules R134, R149, R200, R201, R202: the embedded-rounding rows complete whatever their operands and the
mask bits of `MXCSR`, round by `EVEX.RC`, and do not change `MXCSR`. -/
def Obligations.EmbeddedRoundingRowsComplete : Prop :=
  ErResult .vfnmsub132psEvex512er (fun rc s d s2 s3 => erLane rc s d s3 s2)
    ∧ ErResult .vfnmsub213psEvex512er (fun rc s d s2 s3 => erLane rc s s2 d s3)
    ∧ ErResult .vfnmsub231psEvex512er (fun rc s d s2 s3 => erLane rc s s2 s3 d)

/-! ### Exceptions -/

/-- Rules R148, R225, R231: an unmasked SIMD floating-point exception of a VEX row is `#XM`, or `#UD` when
`CR4.OSXMMEXCPT = 0`, with the flags of rule R148 and nothing else changed. The flag update with `#UD` is
D17 (log entry 21). -/
def Obligations.VexRowsRaiseSimdException : Prop :=
  VexTrap .vfnmsub132psVex128 .l128 (fun s d s2 s3 => mxcsrLane s d s3 s2)
    ∧ VexTrap .vfnmsub213psVex128 .l128 (fun s d s2 s3 => mxcsrLane s s2 d s3)
    ∧ VexTrap .vfnmsub231psVex128 .l128 (fun s d s2 s3 => mxcsrLane s s2 s3 d)
    ∧ VexTrap .vfnmsub132psVex256 .l256 (fun s d s2 s3 => mxcsrLane s d s3 s2)
    ∧ VexTrap .vfnmsub213psVex256 .l256 (fun s d s2 s3 => mxcsrLane s s2 d s3)
    ∧ VexTrap .vfnmsub231psVex256 .l256 (fun s d s2 s3 => mxcsrLane s s2 s3 d)

/-- The same for the plain EVEX rows, over their enabled lanes (rules R148, R150). -/
def Obligations.EvexRowsRaiseSimdException : Prop :=
  EvexTrap .vfnmsub132psEvex128 .l128 (fun s d s2 s3 => mxcsrLane s d s3 s2)
    ∧ EvexTrap .vfnmsub213psEvex128 .l128 (fun s d s2 s3 => mxcsrLane s s2 d s3)
    ∧ EvexTrap .vfnmsub231psEvex128 .l128 (fun s d s2 s3 => mxcsrLane s s2 s3 d)
    ∧ EvexTrap .vfnmsub132psEvex256 .l256 (fun s d s2 s3 => mxcsrLane s d s3 s2)
    ∧ EvexTrap .vfnmsub213psEvex256 .l256 (fun s d s2 s3 => mxcsrLane s s2 d s3)
    ∧ EvexTrap .vfnmsub231psEvex256 .l256 (fun s d s2 s3 => mxcsrLane s s2 s3 d)
    ∧ EvexTrap (.vfnmsub132psEvex512 false) .l512 (fun s d s2 s3 => mxcsrLane s d s3 s2)
    ∧ EvexTrap (.vfnmsub213psEvex512 false) .l512 (fun s d s2 s3 => mxcsrLane s s2 d s3)
    ∧ EvexTrap (.vfnmsub231psEvex512 false) .l512 (fun s d s2 s3 => mxcsrLane s s2 s3 d)

/-- Rules R102, R228 (b), D16: an instruction longer than 15 bytes is `#GP(0)`, before every other reason. -/
def Obligations.OverlongInstructionsFault : Prop :=
  ∀ (i : Instr) (s : State), s.mode = .bits64 → 15 < i.length → exec i s = .fault (.gp 0#32 s)

/-- Rules R222, R224: when a VEX row of at most 15 bytes is `#UD`: the six reasons, in every mode the spec
gives a rule for. -/
def Obligations.VexInvalidOpcodeReasons : Prop :=
  ∀ (f : Form) (l : Bool) (o : VexOperands) (s : State),
    s.mode ≠ .protected32 → s.mode ≠ .compatibility → o.length ≤ 15 →
    (s.cr0PE = false ∨ s.rflagsVM = true ∨ s.cr4OSXSAVE = false ∨ s.xcr0.extractLsb' 1 2 ≠ 3#2
      ∨ LegacyPrefix.lock ∈ o.pre.legacy ∨ LegacyPrefix.opSize ∈ o.pre.legacy
      ∨ LegacyPrefix.repne ∈ o.pre.legacy ∨ LegacyPrefix.rep ∈ o.pre.legacy ∨ o.pre.rex ≠ []
      ∨ s.cfg.fma = false) →
    exec (vexInstr f l o) s = .fault (.ud s)

/-- Rules R100, R223, R224: when a plain EVEX row of at most 15 bytes is `#UD`: the eight reasons. -/
def Obligations.EvexInvalidOpcodeReasons : Prop :=
  ∀ (f : Form) (l' l : Bool) (o : EvexOperands) (s : State),
    s.mode ≠ .protected32 → s.mode ≠ .compatibility → o.length ≤ 15 →
    (s.cr0PE = false ∨ s.rflagsVM = true ∨ s.cr4OSXSAVE = false ∨ s.xcr0.extractLsb' 1 2 ≠ 3#2
      ∨ s.xcr0.extractLsb' 5 3 ≠ 7#3
      ∨ LegacyPrefix.lock ∈ o.f.pre.legacy ∨ LegacyPrefix.opSize ∈ o.f.pre.legacy
      ∨ LegacyPrefix.repne ∈ o.f.pre.legacy ∨ LegacyPrefix.rep ∈ o.f.pre.legacy ∨ o.f.pre.rex ≠ []
      ∨ o.f.p0bit3 = true ∨ o.f.p1bit2 = false ∨ (l' = true ∧ l = true)
      ∨ (o.f.z = true ∧ o.f.aaa = 0#3) ∨ s.cfg.avx512f = false
      ∨ (l' = false ∧ s.cfg.avx512vl = false)) →
    exec (evexInstr f l' l o) s = .fault (.ud s)

/-- Rules R100, R200, R223, R224: the same for the embedded-rounding rows, which need `AVX512F` alone and
have no reserved `L'L`. -/
def Obligations.EmbeddedRoundingInvalidOpcodeReasons : Prop :=
  ∀ (f : Form) (o : EvexErOperands) (s : State),
    s.mode ≠ .protected32 → s.mode ≠ .compatibility → o.length ≤ 15 →
    (s.cr0PE = false ∨ s.rflagsVM = true ∨ s.cr4OSXSAVE = false ∨ s.xcr0.extractLsb' 1 2 ≠ 3#2
      ∨ s.xcr0.extractLsb' 5 3 ≠ 7#3
      ∨ LegacyPrefix.lock ∈ o.f.pre.legacy ∨ LegacyPrefix.opSize ∈ o.f.pre.legacy
      ∨ LegacyPrefix.repne ∈ o.f.pre.legacy ∨ LegacyPrefix.rep ∈ o.f.pre.legacy ∨ o.f.pre.rex ≠ []
      ∨ o.f.p0bit3 = true ∨ o.f.p1bit2 = false ∨ (o.f.z = true ∧ o.f.aaa = 0#3)
      ∨ s.cfg.avx512f = false) →
    exec (evexErInstr f o) s = .fault (.ud s)

/-- Rule R226: `#NM` when `CR0.TS = 1`, for every encoding that no `#UD` reason stops, before any operand is
read: whatever the memory operand. The state without `TS` says that no `#UD` reason holds. -/
def Obligations.TaskSwitchedRaisesDeviceNotAvailable : Prop :=
  (∀ f l o s, s.cr0TS = true → VexReady o { s with cr0 := s.cr0 &&& ~~~0x8#64 } →
    exec (vexInstr f l o) s = .fault (.nm s))
  ∧ (∀ f o s, s.cr0TS = true → EvexReady .l128 o.f o.length { s with cr0 := s.cr0 &&& ~~~0x8#64 } →
    exec (evexInstr f false false o) s = .fault (.nm s))
  ∧ (∀ f o s, s.cr0TS = true → EvexReady .l256 o.f o.length { s with cr0 := s.cr0 &&& ~~~0x8#64 } →
    exec (evexInstr f false true o) s = .fault (.nm s))
  ∧ (∀ f o s, s.cr0TS = true → EvexReady .l512 o.f o.length { s with cr0 := s.cr0 &&& ~~~0x8#64 } →
    exec (evexInstr f true false o) s = .fault (.nm s))
  ∧ (∀ f o s, s.cr0TS = true → EvexReady .l512 o.f o.length { s with cr0 := s.cr0 &&& ~~~0x8#64 } →
    exec (evexErInstr f o) s = .fault (.nm s))

/-- Rules R53, R70, R177, R227, R228 (a), R229: what a memory operand of a VEX row that cannot be read
does. That a wrap past 2^64 is refused is D6 (log entry 14); bit 3 of the page-fault code is a parameter of the map (log
entry 10). -/
def Obligations.VexOperandFaultOrder : Prop :=
  VexOperandFaults .vfnmsub132psVex128 .l128 ∧ VexOperandFaults .vfnmsub213psVex128 .l128
    ∧ VexOperandFaults .vfnmsub231psVex128 .l128 ∧ VexOperandFaults .vfnmsub132psVex256 .l256
    ∧ VexOperandFaults .vfnmsub213psVex256 .l256 ∧ VexOperandFaults .vfnmsub231psVex256 .l256

/-- Rules R53, R56, R62, R70, R203, R227 to R230: the same for the plain EVEX rows, where only bytes of
enabled lanes are checked and the broadcast element is checked for alignment. An operand that wraps past
2^64 is refused whatever the mask (rule R70, D6; its place before `#AC` and `#PF` is log entry 14); bit 3 of
the page-fault code is a parameter of the map (log entry 10). -/
def Obligations.EvexOperandFaultOrder : Prop :=
  EvexOperandFaults .vfnmsub132psEvex128 .l128 ∧ EvexOperandFaults .vfnmsub213psEvex128 .l128
    ∧ EvexOperandFaults .vfnmsub231psEvex128 .l128 ∧ EvexOperandFaults .vfnmsub132psEvex256 .l256
    ∧ EvexOperandFaults .vfnmsub213psEvex256 .l256 ∧ EvexOperandFaults .vfnmsub231psEvex256 .l256
    ∧ EvexOperandFaults (.vfnmsub132psEvex512 false) .l512
    ∧ EvexOperandFaults (.vfnmsub213psEvex512 false) .l512
    ∧ EvexOperandFaults (.vfnmsub231psEvex512 false) .l512

/-- Rules R56, R230: only the broadcast form raises `#AC`, only with alignment checking enabled. -/
def Obligations.OnlyBroadcastRaisesAlignmentCheck : Prop :=
  ∀ (i : Instr) (s : State) (c : BitVec 32) (t : State), exec i s = .fault (.ac c t) →
    s.cr0AM = true ∧ s.rflagsAC = true ∧ s.cpl = 3#2
      ∧ ∃ f l' l o m, i = evexInstr f l' l o ∧ o.src3 = .bcst m

/-- Rules R220, R234, R237, R238: a fault of a step carries the state before the step, except that a SIMD
floating-point exception (`#XM`, or `#UD` by rule R225) may have set flags of `MXCSR`; `#UD`, `#NM`, `#XM`
have no error code and `#SS`, `#GP`, `#AC` have 0; only `#PF` records an address. -/
def Obligations.FaultsArePrecise : Prop :=
  ∀ (s : State) (f : Fault), step s = .fault f →
    (f.state = s
      ∨ ∃ m, OnlyFlagsSet s.mxcsr m ∧ f.state = { s with mxcsr := m }
        ∧ (f = .xm f.state ∨ (f = .ud f.state ∧ s.cr4OSXMMEXCPT = false)))
    ∧ (f.vector = 6 ∨ f.vector = 7 ∨ f.vector = 19 → f.errorCode = none)
    ∧ (f.vector = 12 ∨ f.vector = 13 ∨ f.vector = 17 → f.errorCode = some 0#32)
    ∧ (f.address.isSome = true ↔ f.vector = 14)

/-- Rules R231, R239: re-executing the instruction in the state at the fault faults again, in the same
way. -/
def Obligations.FaultsRepeat : Prop :=
  ∀ (i : Instr) (s : State) (f : Fault), exec i s = .fault f → exec i f.state = .fault f

/-! ### The whole machine -/

/-- Every step keeps the invariant: the memory map in its canonical form and with the program's bytes where
the two overlap (rule R50), `MXCSR[31:16]` zero (rule R26),
`AVX512VL` only with `AVX512F` (D3), no vector bit at or above `MAXVL` (rules R7, R21), no opmask bit at or
above `kwidth` (rule R23). -/
def Obligations.StepKeepsInvariant : Prop :=
  ∀ s t : State, Inv s → step s = .next t → Inv t

/-- Rules R20, R25, R27, R28, R64, R67, R178: a completed step moves `RIP` by 5 to 15, changes at most one
vector register, sets flags of `MXCSR`, and changes nothing else; no byte of memory. -/
def Obligations.StepFrame : Prop :=
  ∀ s t : State, step s = .next t →
    (∃ len, 5 ≤ len ∧ len ≤ 15 ∧ t.rip = s.rip + BitVec.ofNat 64 len)
    ∧ (∃ dest, ∀ r, r ≠ dest → t.vreg r = s.vreg r)
    ∧ OnlyFlagsSet s.mxcsr t.mxcsr ∧ SameReadOnly s t ∧ SameParameters s t
    ∧ ∀ a, t.byteAt a = s.byteAt a

/-- Rule R269 (d): a run cannot loop. A program of `n` bytes completes fewer than `n / 5 + 1` steps. -/
def Obligations.RunsEnd : Prop :=
  ∀ (s : State) (k : Nat), s.prog.bytes.length < 2 ^ 64 → s.prog.bytes.length < 5 * k → ¬ SafeRun k s

/-- Rule R269 (a), (b), (c): a run that does not spend its step budget ends at some completed step `j` in a
state `t`, with the fault of the step at `t`, or with a refusal that carries `t`; at the end of the program
`RIP` is the first address past the program bytes. What state a fault carries is FaultsArePrecise. -/
def Obligations.RunsEndWithTheState : Prop :=
  ∀ (k : Nat) (s : State),
    (∀ f, Sys2Proof.core.run k s = .fault f →
      ∃ j < k, ∃ t, Sys2Proof.core.run j s = .next t ∧ step t = .fault f)
    ∧ (∀ r, Sys2Proof.core.run k s = .refused r →
      ∃ j < k, ∃ t, Sys2Proof.core.run j s = .next t ∧ step t = .refused r ∧ r.state = some t
        ∧ (r = .endOfProgram t → t.rip = t.prog.base + BitVec.ofNat 64 t.prog.bytes.length))

/-! ### What cannot matter -/

/-- Rules R30, R31, R222: in the meanings, only `PE`, `TS`, `AM` of `CR0`, `OSXMMEXCPT`, `OSXSAVE` of `CR4`,
`AC`, `VM` of `RFLAGS` and bits 1, 2, 5, 6, 7 of `XCR0` are consulted (not `EM`, `OSFXSR` or an arithmetic
flag). That `CS.base` is not is rule R29 (treated as zero in 64-bit mode) with log entry 8 (DEDUCED: no
meaning reads it in any mode). -/
def Obligations.OtherControlBitsDoNotMatter : Prop :=
  ∀ (i : Instr) (s : State) (c0 c4 fl xc cb : Word64),
    c0.getLsbD 0 = s.cr0.getLsbD 0 → c0.getLsbD 3 = s.cr0.getLsbD 3 → c0.getLsbD 18 = s.cr0.getLsbD 18 →
    c4.getLsbD 10 = s.cr4.getLsbD 10 → c4.getLsbD 18 = s.cr4.getLsbD 18 →
    fl.getLsbD 17 = s.rflags.getLsbD 17 → fl.getLsbD 18 = s.rflags.getLsbD 18 →
    (∀ b ∈ [1, 2, 5, 6, 7], xc.getLsbD b = s.xcr0.getLsbD b) →
    let g : State → State := fun t =>
      { t with cr0 := c0, cr4 := c4, rflags := fl, xcr0 := xc, csBase := cb }
    exec i (g s) = mapResult g (exec i s)

/-- Rules R23, R190 (a): only the low 16 bits of the opmask registers can matter, and `K[0]` cannot. -/
def Obligations.OpmaskHighBitsDoNotMatter : Prop :=
  ∀ (i : Instr) (s : State) (k : Vector Word64 8),
    (∀ a : Fin 8, a ≠ 0 → k[a].extractLsb' 0 16 = s.k[a].extractLsb' 0 16) →
    exec i { s with k := k } = mapResult (fun t => { t with k := k }) (exec i s)

/-- Rule R62: the bytes of disabled lanes do not matter, readable or not, mapped or not: two memory maps
that agree on the bytes of the enabled lanes of the operand give the same outcome. -/
def Obligations.BytesOfDisabledLanesDoNotMatter : Prop :=
  ∀ (f : Form) (vl : VLen) (o : EvexOperands) (m : MemForm) (s : State) (mem : MemMap),
    mem.pBit = s.mem.pBit → mem.rsvdBit = s.mem.rsvdBit →
    ((o.src3 = .mem m ∧ ∀ k < 4 * vl.lanes, enabled s o.f.aaa (k / 4) = true →
        State.byteAt { s with mem := mem } (byteAddr (linearAddr s o.f.pre o.length vl.dispScale m) k)
          = s.byteAt (byteAddr (linearAddr s o.f.pre o.length vl.dispScale m) k))
      ∨ (o.src3 = .bcst m ∧ ∀ j < vl.lanes, enabled s o.f.aaa j = false)) →
    let i := evexInstr f (vl == .l512) (vl == .l256) o
    exec i { s with mem := mem } = mapResult (fun t => { t with mem := mem }) (exec i s)

/-- Rules R134, R149: of `MXCSR`, an embedded-rounding row reads `DAZ` and `FTZ` alone. -/
def Obligations.EmbeddedRoundingReadsOnlyDazAndFtz : Prop :=
  ∀ (f : Form) (o : EvexErOperands) (s : State) (m : BitVec 32),
    mxcsrDAZ m = mxcsrDAZ s.mxcsr → mxcsrFTZ m = mxcsrFTZ s.mxcsr →
    exec (evexErInstr f o) { s with mxcsr := m }
      = mapResult (fun t => { t with mxcsr := m }) (exec (evexErInstr f o) s)
end

