-- ==== Sys2Proof/Laws/Decode.lean ====
section
/-!
SUPPORT. The decoder and the encoder, piece by piece: prefixes, displacements, memory operands, and the
fields of each prefix byte.
-/

namespace Sys2Proof

/-! ### Prefix bytes -/

@[simp] theorem legacyOfByte_byte (p : LegacyPrefix) : legacyOfByte p.byte = some p := by cases p <;> rfl

theorem legacyOfByte_some {b : Byte} {p : LegacyPrefix} (h : legacyOfByte b = some p) : p.byte = b := by
  have key : ∀ b : Byte, (legacyOfByte b).all (fun p => p.byte == b) = true := by decide
  have := key b
  rw [h] at this
  simpa using this

@[simp] theorem legacyOfByte_rexByte (r : BitVec 4) : legacyOfByte (4#4 ++ r) = none := by
  revert r; decide

@[simp] theorem isRexByte_rexByte (r : BitVec 4) : isRexByte (4#4 ++ r) = true := by revert r; decide

@[simp] theorem rexByte_low (r : BitVec 4) : (4#4 ++ r : Byte).extractLsb' 0 4 = r := by revert r; decide

theorem rexByte_of_isRexByte {b : Byte} (h : isRexByte b = true) : (4#4 ++ b.extractLsb' 0 4 : Byte) = b := by
  revert b; decide

theorem takeLegacy_append (ps : List LegacyPrefix) {b : Byte} (bs : Bytes) (h : legacyOfByte b = none) :
    takeLegacy (ps.map LegacyPrefix.byte ++ b :: bs) = (ps, b :: bs) := by
  induction ps with
  | nil => simp [takeLegacy, h]
  | cons p ps ih => simp [takeLegacy, ih]

theorem takeRex_append (rs : List (BitVec 4)) {b : Byte} (bs : Bytes) (h : isRexByte b = false) :
    takeRex (rs.map (fun r => (4#4 ++ r : Byte)) ++ b :: bs) = (rs, b :: bs) := by
  induction rs with
  | nil => simp [takeRex, h]
  | cons r rs ih => simp [takeRex, ih]

/-- The legacy prefixes taken, put back, give the bytes. -/
theorem takeLegacy_eq (bs : Bytes) :
    bs = (takeLegacy bs).1.map LegacyPrefix.byte ++ (takeLegacy bs).2 := by
  induction bs with
  | nil => rfl
  | cons b bs ih =>
    unfold takeLegacy
    split
    · next p h => simp only [List.map_cons, List.cons_append, legacyOfByte_some h]; rw [← ih]
    · rfl

theorem takeRex_eq (bs : Bytes) :
    bs = (takeRex bs).1.map (fun r => (4#4 ++ r : Byte)) ++ (takeRex bs).2 := by
  induction bs with
  | nil => rfl
  | cons b bs ih =>
    unfold takeRex
    split
    · next h => simp only [List.map_cons, List.cons_append, rexByte_of_isRexByte h]; rw [← ih]
    · rfl

/-! ### Displacements and memory operands -/

@[simp] theorem ext4_split (r : BitVec 4) : ext4 (r.getLsbD 3) (r.extractLsb' 0 3) = r := by revert r; decide

@[simp] theorem ext5_split (r : BitVec 5) : ext5 (r.getLsbD 4) (r.getLsbD 3) (r.extractLsb' 0 3) = r := by
  revert r; decide

theorem ext4_low (b : Bool) (r : BitVec 3) : (ext4 b r).extractLsb' 0 3 = r := by revert b r; decide

theorem disp32_join (d : BitVec 32) :
    d.extractLsb' 24 8 ++ d.extractLsb' 16 8 ++ d.extractLsb' 8 8 ++ d.extractLsb' 0 8 = d := by
  apply BitVec.eq_of_getLsbD_eq
  intro i hi
  simp only [BitVec.getLsbD_append, BitVec.getLsbD_extractLsb']
  by_cases h1 : i < 8
  · simp [h1]
  · by_cases h2 : i < 16
    · have : i - 8 < 8 := by omega
      have e : 8 + (i - 8) = i := by omega
      simp [h1, this, e]
    · by_cases h3 : i < 24
      · have a1 : ¬ i - 8 < 8 := by omega
        have a2 : i - 8 - 8 < 8 := by omega
        have e : 16 + (i - 8 - 8) = i := by omega
        simp [h1, a1, a2, e]
      · have a1 : ¬ i - 8 < 8 := by omega
        have a2 : ¬ i - 8 - 8 < 8 := by omega
        have a3 : i - 8 - 8 - 8 < 8 := by omega
        have e : 24 + (i - 8 - 8 - 8) = i := by omega
        simp [h1, a1, a2, a3, e]

@[simp] theorem takeDisp32_append (d : BitVec 32) (bs : Bytes) : takeDisp32 (disp32Bytes d ++ bs) = some (d, bs) := by
  simp [disp32Bytes, takeDisp32, disp32_join]

@[simp] theorem takeDisp_append (d : Disp) (bs : Bytes) : takeDisp d.mod (d.bytes ++ bs) = some (d, bs) := by
  cases d <;> simp [Disp.mod, Disp.bytes, takeDisp]

/-- A well-formed memory operand is read back from its encoding. -/
theorem takeMem_append {m : MemForm} (h : m.wf = true) (bs : Bytes) :
    takeMem m.rmEncoding.mod m.rmEncoding.rm m.rmEncoding.b m.rmEncoding.x (m.rmEncoding.tail ++ bs)
      = some (m, bs) := by
  have hsib : ∀ (sc : BitVec 2) (i b : BitVec 3), (sc ++ i ++ b : Byte).extractLsb' 0 3 = b
      ∧ (sc ++ i ++ b : Byte).extractLsb' 3 3 = i ∧ (sc ++ i ++ b : Byte).extractLsb' 6 2 = sc := by decide
  cases m with
  | base r d =>
    have h1 : r.extractLsb' 0 3 ≠ 4#3 := by
      simp only [MemForm.wf, Bool.and_eq_true] at h; simpa using h.1
    have h2 : ¬ (r.extractLsb' 0 3 = 5#3 ∧ d.mod = 0#2) := by
      rintro ⟨e, e'⟩
      cases d with
      | none => simp [MemForm.wf, e] at h
      | d8 b => simp [Disp.mod] at e'
      | d32 b => simp [Disp.mod] at e'
    simp only [MemForm.rmEncoding, takeMem, if_neg h1, if_neg h2, takeDisp_append, ext4_split]
  | ripRel d => simp [MemForm.rmEncoding, takeMem]
  | sib sc i b d =>
    have h2 : ¬ (b.extractLsb' 0 3 = 5#3 ∧ d.mod = 0#2) := by
      rintro ⟨e, e'⟩
      cases d with
      | none => simp [MemForm.wf, e] at h
      | d8 b => simp [Disp.mod] at e'
      | d32 b => simp [Disp.mod] at e'
    obtain ⟨e1, e2, e3⟩ := hsib sc (i.extractLsb' 0 3) (b.extractLsb' 0 3)
    simp only [MemForm.rmEncoding, takeMem, List.cons_append, if_true, e1, e2, e3, if_neg h2,
      takeDisp_append, ext4_split]
  | sibNoBase sc i d =>
    obtain ⟨e1, e2, e3⟩ := hsib sc (i.extractLsb' 0 3) 5#3
    simp only [MemForm.rmEncoding, takeMem, List.cons_append, if_true, e1, e2, e3, and_self,
      takeDisp32_append, ext4_split]

theorem rmEncoding_mod {m : MemForm} : m.rmEncoding.mod ≠ 3#2 := by
  cases m with
  | base r d => cases d <;> simp [MemForm.rmEncoding, Disp.mod]
  | ripRel d => simp [MemForm.rmEncoding]
  | sib sc i b d => cases d <;> simp [MemForm.rmEncoding, Disp.mod]
  | sibNoBase sc i d => simp [MemForm.rmEncoding]

/-! ### Lengths -/

@[simp] theorem disp_bytes_length (d : Disp) : d.bytes.length = d.length := by cases d <;> rfl

theorem memForm_tail_length (m : MemForm) : m.rmEncoding.tail.length = m.length := by
  cases m <;> simp [MemForm.rmEncoding, MemForm.length, disp32Bytes, Nat.add_comm]

theorem vexSrc3_tail_length (r : VexSrc3) : r.rmEncoding.tail.length = r.length := by
  cases r with
  | reg r => rfl
  | mem m => exact memForm_tail_length m

theorem evexSrc3_tail_length (r : EvexSrc3) : r.rmEncoding.tail.length = r.length := by
  cases r with
  | reg r => rfl
  | mem m => exact memForm_tail_length m
  | bcst m => exact memForm_tail_length m

@[simp] theorem prefixes_bytes_length (p : Prefixes) : p.bytes.length = p.length := by
  simp [Prefixes.bytes, Prefixes.length]

theorem encodeVex_length (f : Form) (l : Bool) (o : VexOperands) : (encodeVex f l o).length = o.length := by
  simp [encodeVex, VexOperands.length, vexSrc3_tail_length]; omega

theorem encodeEvexPlain_length (f : Form) (ll : BitVec 2) (o : EvexOperands) :
    (encodeEvexPlain f ll o).length = o.length := by
  simp [encodeEvexPlain, encodeEvex, EvexOperands.length, evexSrc3_tail_length]; omega

theorem encodeEvexEr_length (f : Form) (o : EvexErOperands) : (encodeEvexEr f o).length = o.length := by
  simp [encodeEvexEr, encodeEvex, EvexErOperands.length, regRm]

/-- A memory operand that was read is well formed and took the bytes its length says. -/
theorem takeDisp32_some {bs rest : Bytes} {d : BitVec 32} (h : takeDisp32 bs = some (d, rest)) :
    bs.length = 4 + rest.length ∧ bs.drop 4 = rest := by
  unfold takeDisp32 at h
  split at h
  · simp only [Option.some.injEq, Prod.mk.injEq] at h
    obtain ⟨-, rfl⟩ := h
    exact ⟨by simp; omega, rfl⟩
  · simp at h

theorem takeDisp_some {mod : BitVec 2} {bs rest : Bytes} {d : Disp} (h : takeDisp mod bs = some (d, rest)) :
    bs.length = d.length + rest.length ∧ bs.drop d.length = rest ∧ (d = .none ↔ mod = 0#2) := by
  unfold takeDisp at h
  split at h
  · next e =>
    simp only [Option.some.injEq, Prod.mk.injEq] at h
    obtain ⟨rfl, rfl⟩ := h
    simp [Disp.length, e]
  · next e0 =>
    split at h
    · next e =>
      split at h
      · simp only [Option.some.injEq, Prod.mk.injEq] at h
        obtain ⟨rfl, rfl⟩ := h
        simp [Disp.length, e, Nat.add_comm]
      · simp at h
    · next e =>
      split at h
      · next d' bs' h' =>
        simp only [Option.some.injEq, Prod.mk.injEq] at h
        obtain ⟨rfl, rfl⟩ := h
        obtain ⟨h1, h2⟩ := takeDisp32_some h'
        simp [Disp.length, h1, h2, e0]
      · simp at h

theorem takeMem_some {mod : BitVec 2} {rm : BitVec 3} {b x : Bool} {bs rest : Bytes} {m : MemForm}
    (h : takeMem mod rm b x bs = some (m, rest)) :
    m.wf = true ∧ bs.length = m.length + rest.length ∧ bs.drop m.length = rest := by
  unfold takeMem at h
  split at h
  · next hrm =>
    split at h
    · simp at h
    · next sib bs =>
      split at h
      · split at h
        · next d bs' h' =>
          simp only [Option.some.injEq, Prod.mk.injEq] at h
          obtain ⟨rfl, rfl⟩ := h
          obtain ⟨h1, h2⟩ := takeDisp32_some h'
          refine ⟨rfl, by simp [MemForm.length, h1]; omega, by simpa [MemForm.length] using h2⟩
        · simp at h
      · next hne =>
        split at h
        · next d bs' h' =>
          simp only [Option.some.injEq, Prod.mk.injEq] at h
          obtain ⟨rfl, rfl⟩ := h
          obtain ⟨h1, h2, h3⟩ := takeDisp_some h'
          refine ⟨?_, by simp [MemForm.length, h1]; omega, ?_⟩
          · simp only [MemForm.wf, ext4_low]
            by_cases e : sib.extractLsb' 0 3 = 5#3
            · have : d ≠ .none := fun ed => hne ⟨e, h3.1 ed⟩
              simp [this]
            · simp [e]
          · rw [MemForm.length, Nat.add_comm, List.drop_succ_cons]; exact h2
        · simp at h
  · next hrm =>
    split at h
    · split at h
      · next d bs' h' =>
        simp only [Option.some.injEq, Prod.mk.injEq] at h
        obtain ⟨rfl, rfl⟩ := h
        obtain ⟨h1, h2⟩ := takeDisp32_some h'
        exact ⟨rfl, h1, h2⟩
      · simp at h
    · next hne =>
      split at h
      · next d bs' h' =>
        simp only [Option.some.injEq, Prod.mk.injEq] at h
        obtain ⟨rfl, rfl⟩ := h
        obtain ⟨h1, h2, h3⟩ := takeDisp_some h'
        refine ⟨?_, h1, h2⟩
        simp only [MemForm.wf, ext4_low]
        by_cases e : rm = 5#3
        · have : d ≠ .none := fun ed => hne ⟨e, h3.1 ed⟩
          simp [this, hrm]
        · simp [e, hrm]
      · simp at h

/-! ### Fields of the prefix and ModRM bytes -/

theorem modrm_fields (mod : BitVec 2) (reg rm : BitVec 3) :
    (mod ++ reg ++ rm : Byte).extractLsb' 6 2 = mod ∧ (mod ++ reg ++ rm : Byte).extractLsb' 3 3 = reg
      ∧ (mod ++ reg ++ rm : Byte).extractLsb' 0 3 = rm := by
  revert mod reg rm; decide

@[simp] theorem formOfOpcode_opcode (f : Form) : formOfOpcode f.opcode = some f := by cases f <;> rfl

/-! ### Prefixes in front -/

theorem legacyOfByte_none {b : Byte}
    (h : b ∉ [0x26#8, 0x2E#8, 0x36#8, 0x3E#8, 0x64#8, 0x65#8, 0x67#8, 0x66#8, 0xF0#8, 0xF2#8, 0xF3#8]) :
    legacyOfByte b = none := by
  simp only [List.mem_cons, not_or, List.not_mem_nil, not_false_iff, and_true] at h
  unfold legacyOfByte; simp [h]

theorem takeLegacy_pre (pre : Prefixes) {b : Byte} (bs : Bytes) (h : legacyOfByte b = none) :
    takeLegacy (pre.bytes ++ b :: bs) = (pre.legacy, pre.rex.map (fun r => (4#4 ++ r : Byte)) ++ b :: bs) := by
  unfold Prefixes.bytes
  cases hr : pre.rex with
  | nil => simpa using takeLegacy_append pre.legacy bs h
  | cons r rs =>
    simp only [List.map_cons, List.append_assoc, List.cons_append]
    exact takeLegacy_append pre.legacy _ (legacyOfByte_rexByte r)

/-- Decoding after written-out admitted prefixes. -/
theorem decode_pre (pre : Prefixes) {b : Byte} (bs : Bytes) (ha : pre.admitted = true)
    (h : legacyOfByte b = none) (hx : isRexByte b = false) :
    decode (pre.bytes ++ b :: bs) = decodeAfterPrefixes pre (b :: bs) := by
  simp only [decode, takeLegacy_pre pre bs h, takeRex_append pre.rex bs hx]
  simp [ha]

/-! ### Parsers depend on the bytes they take alone -/

theorem takeDisp32_stable {bs rest tail : Bytes} {d} (h : takeDisp32 bs = some (d, rest)) :
    takeDisp32 (bs.take 4 ++ tail) = some (d, tail) := by
  unfold takeDisp32 at h
  split at h
  · simp only [Option.some.injEq, Prod.mk.injEq] at h
    obtain ⟨rfl, rfl⟩ := h
    simp [takeDisp32]
  · simp at h

theorem takeDisp_stable {mod} {bs rest tail : Bytes} {d} (h : takeDisp mod bs = some (d, rest)) :
    takeDisp mod (bs.take d.length ++ tail) = some (d, tail) := by
  unfold takeDisp at h ⊢
  split at h
  · simp only [Option.some.injEq, Prod.mk.injEq] at h
    obtain ⟨rfl, rfl⟩ := h
    simp [Disp.length, *]
  · split at h
    · split at h
      · simp only [Option.some.injEq, Prod.mk.injEq] at h
        obtain ⟨rfl, rfl⟩ := h
        simp [Disp.length, *]
      · simp at h
    · split at h
      · next h' =>
        simp only [Option.some.injEq, Prod.mk.injEq] at h
        obtain ⟨rfl, rfl⟩ := h
        have := takeDisp32_stable (tail := tail) h'
        simp [Disp.length, *]
      · simp at h

theorem takeMem_stable {mod rm b x} {bs rest tail : Bytes} {m} (h : takeMem mod rm b x bs = some (m, rest)) :
    takeMem mod rm b x (bs.take m.length ++ tail) = some (m, tail) := by
  unfold takeMem at h
  split at h
  · split at h
    · simp at h
    · next sib bs =>
      split at h
      · split at h
        · next h' =>
          simp only [Option.some.injEq, Prod.mk.injEq] at h
          obtain ⟨rfl, rfl⟩ := h
          have := takeDisp32_stable (tail := tail) h'
          simp [MemForm.length, takeMem, *]
        · simp at h
      · split at h
        · next d bs' h' =>
          simp only [Option.some.injEq, Prod.mk.injEq] at h
          obtain ⟨rfl, rfl⟩ := h
          have := takeDisp_stable (tail := tail) h'
          rw [MemForm.length, Nat.add_comm, List.take_succ_cons, List.cons_append]
          simp [takeMem, *]
        · simp at h
  · split at h
    · split at h
      · next h' =>
        simp only [Option.some.injEq, Prod.mk.injEq] at h
        obtain ⟨rfl, rfl⟩ := h
        have := takeDisp32_stable (tail := tail) h'
        simp [MemForm.length, takeMem, *]
      · simp at h
    · split at h
      · next d bs' h' =>
        simp only [Option.some.injEq, Prod.mk.injEq] at h
        obtain ⟨rfl, rfl⟩ := h
        have := takeDisp_stable (tail := tail) h'
        simp [MemForm.length, takeMem, *]
      · simp at h

/-! ### A decision stays when more bytes follow -/

theorem takeLegacy_snd_head {bs : Bytes} {b : Byte} {rest : Bytes} (h : (takeLegacy bs).2 = b :: rest) :
    legacyOfByte b = none := by
  induction bs with
  | nil => simp [takeLegacy] at h
  | cons c bs ih =>
    unfold takeLegacy at h
    split at h
    · exact ih h
    · next e => simp only [List.cons.injEq] at h; rw [← h.1]; exact e

theorem takeRex_snd_head {bs : Bytes} {b : Byte} {rest : Bytes} (h : (takeRex bs).2 = b :: rest) :
    isRexByte b = false := by
  induction bs with
  | nil => simp [takeRex] at h
  | cons c bs ih =>
    unfold takeRex at h
    split at h
    · exact ih h
    · next e => simp only [List.cons.injEq] at h; rw [← h.1]; simpa using e

theorem takeLegacy_fst_append (bs tail : Bytes) :
    ∃ more, (takeLegacy (bs ++ tail)).1 = (takeLegacy bs).1 ++ more := by
  induction bs with
  | nil => exact ⟨_, rfl⟩
  | cons b bs ih =>
    obtain ⟨more, e⟩ := ih
    simp only [List.cons_append, takeLegacy]
    split
    · exact ⟨more, by simp [e]⟩
    · exact ⟨[], by simp⟩

theorem takeLegacy_append_of_cons {bs : Bytes} {b : Byte} {rest : Bytes} (tail : Bytes)
    (h : (takeLegacy bs).2 = b :: rest) :
    takeLegacy (bs ++ tail) = ((takeLegacy bs).1, b :: (rest ++ tail)) := by
  conv_lhs => rw [takeLegacy_eq bs, h, List.append_assoc, List.cons_append]
  exact takeLegacy_append _ _ (takeLegacy_snd_head h)

theorem takeRex_append_of_cons {bs : Bytes} {b : Byte} {rest : Bytes} (tail : Bytes)
    (h : (takeRex bs).2 = b :: rest) :
    takeRex (bs ++ tail) = ((takeRex bs).1, b :: (rest ++ tail)) := by
  conv_lhs => rw [takeRex_eq bs, h, List.append_assoc, List.cons_append]
  exact takeRex_append _ _ (takeRex_snd_head h)

theorem decodeVexOperands_error {pre : Prefixes} {f : Form} {p1 p2 : Byte} {bs : Bytes} {e : DecodeError}
    (h : decodeVexOperands pre f p1 p2 bs = .error e) : e = .truncated true := by
  cases bs with
  | nil => exact (Except.error.inj h).symm
  | cons m bs =>
    unfold decodeVexOperands at h
    dsimp only at h
    split at h
    · simp at h
    · split at h
      · simp at h
      · exact (Except.error.inj h).symm

theorem decodeEvexOperands_error {pre : Prefixes} {f : Form} {p0 p1 p2 : Byte} {bs : Bytes}
    {e : DecodeError} (h : decodeEvexOperands pre f p0 p1 p2 bs = .error e) : e = .truncated true := by
  cases bs with
  | nil => exact (Except.error.inj h).symm
  | cons m bs =>
    unfold decodeEvexOperands at h
    dsimp only at h
    split at h
    · split at h <;> simp at h
    · split at h
      · simp at h
      · exact (Except.error.inj h).symm

theorem decodeVex_error_append {pre : Prefixes} {bs : Bytes} {e : DecodeError} (tail : Bytes)
    (h : decodeVex pre bs = .error e) (hne : ∀ g, e ≠ .truncated g) : decodeVex pre (bs ++ tail) = .error e := by
  rcases bs with _ | ⟨p1, _ | ⟨p2, _ | ⟨op, bs⟩⟩⟩ <;> simp only [decodeVex, List.cons_append] at h ⊢
  · exact absurd (Except.error.inj h).symm (hne _)
  · split at h
    · next c => simpa [c] using h
    · exact absurd (Except.error.inj h).symm (hne _)
  · split at h
    · next c => simpa [c] using h
    · next c =>
      split at h
      · next c' => simp only [c, c', if_true, if_false]; exact h
      · exact absurd (Except.error.inj h).symm (hne _)
  · split at h
    · next c => simpa [c] using h
    · next c =>
      split at h
      · next c' => simp only [c, c', if_true, if_false]; exact h
      · next c' =>
        split at h
        · next c'' => simp only [c, c', if_false]; exact h
        · exact absurd (decodeVexOperands_error h) (hne _)

theorem decodeEvex_error_append {pre : Prefixes} {bs : Bytes} {e : DecodeError} (tail : Bytes)
    (h : decodeEvex pre bs = .error e) (hne : ∀ g, e ≠ .truncated g) : decodeEvex pre (bs ++ tail) = .error e := by
  rcases bs with _ | ⟨p0, _ | ⟨p1, _ | ⟨p2, _ | ⟨op, bs⟩⟩⟩⟩ <;>
    simp only [decodeEvex, List.cons_append] at h ⊢
  · exact absurd (Except.error.inj h).symm (hne _)
  · split at h
    · next c => simpa [c] using h
    · exact absurd (Except.error.inj h).symm (hne _)
  · split at h
    · next c => simpa [c] using h
    · next c =>
      split at h
      · next c' => simp only [c, c', if_true, if_false]; exact h
      · exact absurd (Except.error.inj h).symm (hne _)
  · split at h
    · next c => simpa [c] using h
    · next c =>
      split at h
      · next c' => simp only [c, c', if_true, if_false]; exact h
      · exact absurd (Except.error.inj h).symm (hne _)
  · split at h
    · next c => simpa [c] using h
    · next c =>
      split at h
      · next c' => simp only [c, c', if_true, if_false]; exact h
      · next c' =>
        split at h
        · next c'' => simp only [c, c', if_false]; exact h
        · exact absurd (decodeEvexOperands_error h) (hne _)

theorem decodeAfterPrefixes_error_append {pre : Prefixes} {b : Byte} {bs : Bytes} {e : DecodeError}
    (tail : Bytes) (h : decodeAfterPrefixes pre (b :: bs) = .error e) (hne : ∀ g, e ≠ .truncated g) :
    decodeAfterPrefixes pre (b :: (bs ++ tail)) = .error e := by
  simp only [decodeAfterPrefixes] at h ⊢
  split at h
  · next c => rw [if_pos c]; exact decodeVex_error_append tail h hne
  · next c =>
    rw [if_neg c]
    split at h
    · next c' => rw [if_pos c']; exact decodeEvex_error_append tail h hne
    · next c' => rw [if_neg c']; exact h

theorem not_admitted_append {ps more : List LegacyPrefix} {rs rs' : List (BitVec 4)}
    (h : (Prefixes.mk ps rs).admitted = false) : (Prefixes.mk (ps ++ more) rs').admitted = false := by
  simp only [Prefixes.admitted, Bool.and_eq_false_iff, decide_eq_false_iff_not, List.filter_append,
    List.length_append] at h ⊢
  omega

/-- What the decoder decides against, it decides against whatever bytes follow; only an instruction cut
off can become another answer. -/
theorem decode_error_append {bs : Bytes} {e : DecodeError} (tail : Bytes) (h : decode bs = .error e)
    (hne : ∀ g, e ≠ .truncated g) : decode (bs ++ tail) = .error e := by
  unfold decode at h
  dsimp only at h
  split at h
  · next ha =>
    cases hl : (takeLegacy bs).2 with
    | nil =>
      rw [hl] at h
      exact absurd (Except.error.inj h).symm (hne _)
    | cons b rest =>
      rw [hl] at h ha
      cases hr : (takeRex (b :: rest)).2 with
      | nil =>
        rw [hr] at h
        exact absurd (Except.error.inj h).symm (hne _)
      | cons c rest' =>
        rw [hr] at h
        have e2 := takeRex_append_of_cons tail hr
        rw [List.cons_append] at e2
        unfold decode
        dsimp only
        rw [takeLegacy_append_of_cons tail hl]
        dsimp only
        rw [e2]
        dsimp only
        rw [if_pos ha]
        exact decodeAfterPrefixes_error_append tail h hne
  · next ha =>
    obtain ⟨more, em⟩ := takeLegacy_fst_append bs tail
    unfold decode
    dsimp only
    rw [em, if_neg (by simpa using not_admitted_append (by simpa using ha))]
    exact h

/-! ### Bytes that show the group -/

/-- The answer of a decoder from the opcode byte on: an instruction, or operand bytes are missing. -/
def OfGroup (r : Except DecodeError (Instr × Bytes)) : Prop :=
  (∃ p, r = .ok p) ∨ r = .error (.truncated true)

theorem ofGroup_vexOperands (pre : Prefixes) (f : Form) (p1 p2 : Byte) (bs : Bytes) :
    OfGroup (decodeVexOperands pre f p1 p2 bs) := by
  cases h : decodeVexOperands pre f p1 p2 bs with
  | ok p => exact .inl ⟨p, rfl⟩
  | error e => exact .inr (by rw [decodeVexOperands_error h])

theorem ofGroup_evexOperands (pre : Prefixes) (f : Form) (p0 p1 p2 : Byte) (bs : Bytes) :
    OfGroup (decodeEvexOperands pre f p0 p1 p2 bs) := by
  cases h : decodeEvexOperands pre f p0 p1 p2 bs with
  | ok p => exact .inl ⟨p, rfl⟩
  | error e => exact .inr (by rw [decodeEvexOperands_error h])

theorem decodeVex_ofGroup_append {pre : Prefixes} {bs : Bytes} (tail : Bytes)
    (h : decodeVex pre bs = .error (.truncated true)) : OfGroup (decodeVex pre (bs ++ tail)) := by
  rcases bs with _ | ⟨p1, _ | ⟨p2, _ | ⟨op, bs⟩⟩⟩ <;> simp only [decodeVex, List.cons_append] at h ⊢
  · simp at h
  · split at h <;> simp at h
  · split at h
    · simp at h
    · split at h <;> simp at h
  · split at h
    · simp at h
    · next c =>
      split at h
      · simp at h
      · next c' =>
        simp only [c, c', if_false]
        split at h
        · simp at h
        · exact ofGroup_vexOperands _ _ _ _ _

theorem decodeEvex_ofGroup_append {pre : Prefixes} {bs : Bytes} (tail : Bytes)
    (h : decodeEvex pre bs = .error (.truncated true)) : OfGroup (decodeEvex pre (bs ++ tail)) := by
  rcases bs with _ | ⟨p0, _ | ⟨p1, _ | ⟨p2, _ | ⟨op, bs⟩⟩⟩⟩ <;>
    simp only [decodeEvex, List.cons_append] at h ⊢
  · simp at h
  · split at h <;> simp at h
  · split at h
    · simp at h
    · split at h <;> simp at h
  · split at h
    · simp at h
    · split at h <;> simp at h
  · split at h
    · simp at h
    · next c =>
      split at h
      · simp at h
      · next c' =>
        simp only [c, c', if_false]
        split at h
        · simp at h
        · exact ofGroup_evexOperands _ _ _ _ _ _

/-- Bytes that show the group but not the whole instruction show it whatever follows them: more bytes only
complete the instruction or leave it cut off. -/
theorem decode_ofGroup_append {bs : Bytes} (tail : Bytes) (h : decode bs = .error (.truncated true)) :
    OfGroup (decode (bs ++ tail)) := by
  unfold decode at h
  dsimp only at h
  split at h
  · next ha =>
    cases hl : (takeLegacy bs).2 with
    | nil => rw [hl] at h; simp [takeRex, decodeAfterPrefixes] at h
    | cons b rest =>
      rw [hl] at h ha
      cases hr : (takeRex (b :: rest)).2 with
      | nil => rw [hr] at h; simp [decodeAfterPrefixes] at h
      | cons c rest' =>
        rw [hr] at h
        have e2 := takeRex_append_of_cons tail hr
        rw [List.cons_append] at e2
        unfold decode
        dsimp only
        rw [takeLegacy_append_of_cons tail hl]
        dsimp only
        rw [e2]
        dsimp only
        rw [if_pos ha]
        simp only [decodeAfterPrefixes] at h ⊢
        split at h
        · next c => rw [if_pos c]; exact decodeVex_ofGroup_append tail h
        · next c =>
          rw [if_neg c]
          split at h
          · next c' => rw [if_pos c']; exact decodeEvex_ofGroup_append tail h
          · simp at h
  · simp at h

end Sys2Proof
end

