-- ==== Sys2Proof/Laws/Flags.lean ====
section
/-!
SUPPORT. `MXCSR` and flag sets: what setting flags does to each field, what gathering the flags of the
enabled lanes means, and what `PackedFPReport` answers.
-/

namespace Sys2Proof.Machine

/-! ### Flag sets -/

@[simp] theorem union_ie (a b : FpFlags) : (a.union b).ie = (a.ie || b.ie) := rfl
@[simp] theorem union_de (a b : FpFlags) : (a.union b).de = (a.de || b.de) := rfl
@[simp] theorem union_oe (a b : FpFlags) : (a.union b).oe = (a.oe || b.oe) := rfl
@[simp] theorem union_ue (a b : FpFlags) : (a.union b).ue = (a.ue || b.ue) := rfl
@[simp] theorem union_pe (a b : FpFlags) : (a.union b).pe = (a.pe || b.pe) := rfl
@[simp] theorem empty_ie : FpFlags.empty.ie = false := rfl
@[simp] theorem empty_de : FpFlags.empty.de = false := rfl
@[simp] theorem empty_oe : FpFlags.empty.oe = false := rfl
@[simp] theorem empty_ue : FpFlags.empty.ue = false := rfl
@[simp] theorem empty_pe : FpFlags.empty.pe = false := rfl

/-! ### Bits of `MXCSR` after flags are set -/

theorem bits_getLsbD (f : FpFlags) (n : Nat) :
    f.bits.getLsbD n = ((n == 0 && f.ie) || (n == 1 && f.de) || (n == 3 && f.oe) || (n == 4 && f.ue)
      || (n == 5 && f.pe)) := by
  obtain ⟨ie, de, oe, ue, pe⟩ := f
  by_cases h : n < 32
  · have key : ∀ n < 32, ∀ ie de oe ue pe : Bool, (FpFlags.bits ⟨ie, de, oe, ue, pe⟩).getLsbD n
        = ((n == 0 && ie) || (n == 1 && de) || (n == 3 && oe) || (n == 4 && ue) || (n == 5 && pe)) := by
      decide
    exact key n h ie de oe ue pe
  · rw [BitVec.getLsbD_of_ge _ _ (by omega)]
    have : n ≠ 0 ∧ n ≠ 1 ∧ n ≠ 3 ∧ n ≠ 4 ∧ n ≠ 5 := by omega
    simp [this]

@[simp] theorem setFlags_IE (m : BitVec 32) (f : FpFlags) : mxcsrIE (setFlags m f) = (mxcsrIE m || f.ie) := by
  simp only [mxcsrIE, setFlags, BitVec.getLsbD_or, bits_getLsbD]; simp
@[simp] theorem setFlags_DE (m : BitVec 32) (f : FpFlags) : mxcsrDE (setFlags m f) = (mxcsrDE m || f.de) := by
  simp only [mxcsrDE, setFlags, BitVec.getLsbD_or, bits_getLsbD]; simp
@[simp] theorem setFlags_ZE (m : BitVec 32) (f : FpFlags) : mxcsrZE (setFlags m f) = mxcsrZE m := by
  simp only [mxcsrZE, setFlags, BitVec.getLsbD_or, bits_getLsbD]; simp
@[simp] theorem setFlags_OE (m : BitVec 32) (f : FpFlags) : mxcsrOE (setFlags m f) = (mxcsrOE m || f.oe) := by
  simp only [mxcsrOE, setFlags, BitVec.getLsbD_or, bits_getLsbD]; simp
@[simp] theorem setFlags_UE (m : BitVec 32) (f : FpFlags) : mxcsrUE (setFlags m f) = (mxcsrUE m || f.ue) := by
  simp only [mxcsrUE, setFlags, BitVec.getLsbD_or, bits_getLsbD]; simp
@[simp] theorem setFlags_PE (m : BitVec 32) (f : FpFlags) : mxcsrPE (setFlags m f) = (mxcsrPE m || f.pe) := by
  simp only [mxcsrPE, setFlags, BitVec.getLsbD_or, bits_getLsbD]; simp

theorem bits_getLsbD_high (f : FpFlags) {n : Nat} (h : 6 ≤ n) : f.bits.getLsbD n = false := by
  rw [bits_getLsbD]
  have : n ≠ 0 ∧ n ≠ 1 ∧ n ≠ 3 ∧ n ≠ 4 ∧ n ≠ 5 := by omega
  simp [this]

/-- The control bits and the reserved bits are left alone. -/
@[simp] theorem setFlags_control (m : BitVec 32) (f : FpFlags) :
    (setFlags m f).extractLsb' 6 26 = m.extractLsb' 6 26 := by
  ext i hi
  simp only [setFlags, BitVec.getElem_extractLsb', BitVec.getLsbD_or,
    bits_getLsbD_high f (show 6 ≤ 6 + i by omega), Bool.or_false]

@[simp] theorem setFlags_reserved (m : BitVec 32) (f : FpFlags) :
    mxcsrReservedBits (setFlags m f) = mxcsrReservedBits m := by
  ext i hi
  simp only [mxcsrReservedBits, setFlags, BitVec.getElem_extractLsb', BitVec.getLsbD_or,
    bits_getLsbD_high f (show 6 ≤ 16 + i by omega), Bool.or_false]

/-- Setting flags sets flags only. -/
theorem onlyFlagsSet_setFlags (m : BitVec 32) (f : FpFlags) : OnlyFlagsSet m (setFlags m f) := by
  refine ⟨by simp, by simp, ?_, ?_, ?_, ?_, ?_⟩ <;> intro h <;> simp [h]

theorem onlyFlagsSet_refl (m : BitVec 32) : OnlyFlagsSet m m := by simp [OnlyFlagsSet]

/-! ### Gathering -/

/-- A property of flag sets that unions and the empty set respect holds of a gathered set exactly when it
holds of the flags of some enabled lane. -/
theorem gather_field (get : FpFlags → Bool) (h0 : get FpFlags.empty = false)
    (hu : ∀ a b, get (a.union b) = (get a || get b)) (kl : Nat) (en : Nat → Bool) (flags : Nat → FpFlags) :
    get (gatherFlags kl en flags) = true ↔ ∃ j < kl, en j = true ∧ get (flags j) = true := by
  have key : ∀ (l : List Nat) (acc : FpFlags),
      get (l.foldl (fun acc j => acc.union (flags j)) acc) = true
        ↔ get acc = true ∨ ∃ j ∈ l, get (flags j) = true := by
    intro l
    induction l with
    | nil => simp
    | cons a l ih => intro acc; simp [ih, hu, or_assoc]
  simp [gatherFlags, key, h0, and_assoc]

theorem gather_ie (kl : Nat) (en : Nat → Bool) (flags : Nat → FpFlags) :
    (gatherFlags kl en flags).ie = true ↔ ∃ j < kl, en j = true ∧ (flags j).ie = true :=
  gather_field FpFlags.ie rfl (fun _ _ => rfl) kl en flags
theorem gather_de (kl : Nat) (en : Nat → Bool) (flags : Nat → FpFlags) :
    (gatherFlags kl en flags).de = true ↔ ∃ j < kl, en j = true ∧ (flags j).de = true :=
  gather_field FpFlags.de rfl (fun _ _ => rfl) kl en flags
theorem gather_oe (kl : Nat) (en : Nat → Bool) (flags : Nat → FpFlags) :
    (gatherFlags kl en flags).oe = true ↔ ∃ j < kl, en j = true ∧ (flags j).oe = true :=
  gather_field FpFlags.oe rfl (fun _ _ => rfl) kl en flags
theorem gather_ue (kl : Nat) (en : Nat → Bool) (flags : Nat → FpFlags) :
    (gatherFlags kl en flags).ue = true ↔ ∃ j < kl, en j = true ∧ (flags j).ue = true :=
  gather_field FpFlags.ue rfl (fun _ _ => rfl) kl en flags
theorem gather_pe (kl : Nat) (en : Nat → Bool) (flags : Nat → FpFlags) :
    (gatherFlags kl en flags).pe = true ↔ ∃ j < kl, en j = true ∧ (flags j).pe = true :=
  gather_field FpFlags.pe rfl (fun _ _ => rfl) kl en flags

/-- Gathering looks at the enabled lanes below `kl` alone. -/
theorem gatherFlags_congr {kl : Nat} {en en' : Nat → Bool} {flags flags' : Nat → FpFlags}
    (he : ∀ j < kl, en j = en' j) (hf : ∀ j < kl, en j = true → flags j = flags' j) :
    gatherFlags kl en flags = gatherFlags kl en' flags' := by
  have hb : ∀ {a b : Bool}, (a = true ↔ b = true) → a = b := by decide
  have h : ∀ get : FpFlags → Bool, (∃ j < kl, en j = true ∧ get (flags j) = true)
      ↔ ∃ j < kl, en' j = true ∧ get (flags' j) = true := by
    intro get
    constructor
    · rintro ⟨j, hj, e, g⟩; exact ⟨j, hj, by rw [← he j hj]; exact e, by rw [← hf j hj e]; exact g⟩
    · rintro ⟨j, hj, e, g⟩
      rw [← he j hj] at e
      exact ⟨j, hj, e, by rw [hf j hj e]; exact g⟩
  have e1 := hb ((gather_ie kl en flags).trans ((h FpFlags.ie).trans (gather_ie kl en' flags').symm))
  have e2 := hb ((gather_de kl en flags).trans ((h FpFlags.de).trans (gather_de kl en' flags').symm))
  have e3 := hb ((gather_oe kl en flags).trans ((h FpFlags.oe).trans (gather_oe kl en' flags').symm))
  have e4 := hb ((gather_ue kl en flags).trans ((h FpFlags.ue).trans (gather_ue kl en' flags').symm))
  have e5 := hb ((gather_pe kl en flags).trans ((h FpFlags.pe).trans (gather_pe kl en' flags').symm))
  generalize gatherFlags kl en flags = a at *
  generalize gatherFlags kl en' flags' = b at *
  cases a; cases b; simp_all

/-- The flags of a union of two sets, lane by lane. -/
theorem gather_union (kl : Nat) (en : Nat → Bool) (p q : Nat → FpFlags) :
    (gatherFlags kl en p).union (gatherFlags kl en q) = gatherFlags kl en fun j => (p j).union (q j) := by
  have hb : ∀ {a b : Bool}, (a = true ↔ b = true) → a = b := by decide
  have h : ∀ (get : FpFlags → Bool) (h0 : get FpFlags.empty = false)
      (hu : ∀ a b, get (a.union b) = (get a || get b)),
      get ((gatherFlags kl en p).union (gatherFlags kl en q))
        = get (gatherFlags kl en fun j => (p j).union (q j)) := by
    intro get h0 hu
    apply hb
    rw [hu, Bool.or_eq_true, gather_field get h0 hu, gather_field get h0 hu, gather_field get h0 hu]
    simp only [hu, Bool.or_eq_true]
    constructor
    · rintro (⟨j, hj, e, g⟩ | ⟨j, hj, e, g⟩)
      exacts [⟨j, hj, e, .inl g⟩, ⟨j, hj, e, .inr g⟩]
    · rintro ⟨j, hj, e, g | g⟩
      exacts [.inl ⟨j, hj, e, g⟩, .inr ⟨j, hj, e, g⟩]
  have e1 := h FpFlags.ie rfl fun _ _ => rfl
  have e2 := h FpFlags.de rfl fun _ _ => rfl
  have e3 := h FpFlags.oe rfl fun _ _ => rfl
  have e4 := h FpFlags.ue rfl fun _ _ => rfl
  have e5 := h FpFlags.pe rfl fun _ _ => rfl
  generalize (gatherFlags kl en p).union (gatherFlags kl en q) = a at *
  generalize gatherFlags kl en (fun j => (p j).union (q j)) = b at *
  cases a; cases b; simp_all

/-- `MXCSR` with the gathered flags set gains what rule R148 says. -/
theorem mxcsrGains_setFlags (m : BitVec 32) (kl : Nat) (en : Nat → Bool) (flags : Nat → FpFlags) :
    MxcsrGains m (setFlags m (gatherFlags kl en flags)) kl en flags := by
  simp only [MxcsrGains, setFlags_IE, setFlags_DE, setFlags_OE, setFlags_UE, setFlags_PE, setFlags_ZE,
    setFlags_control, Bool.or_eq_true, gather_ie, gather_de, gather_oe, gather_ue, gather_pe, and_self]

/-! ### Masks -/

theorem unmasked_eq_false_iff (m : BitVec 32) (f : FpFlags) : unmasked m f = false ↔ Masked m f := by
  simp only [unmasked, Masked, Bool.or_eq_false_iff, Bool.and_eq_false_iff]
  cases f.ie <;> cases f.de <;> cases f.oe <;> cases f.ue <;> cases f.pe <;> simp <;> tauto

theorem unmasked_eq_true_iff (m : BitVec 32) (f : FpFlags) : unmasked m f = true ↔ ¬ Masked m f := by
  rw [← unmasked_eq_false_iff]; simp

/-- A gathered set is masked exactly when the flags of every enabled lane are. -/
theorem masked_gather_iff (m : BitVec 32) (kl : Nat) (en : Nat → Bool) (flags : Nat → FpFlags) :
    Masked m (gatherFlags kl en flags) ↔ ∀ j < kl, en j = true → Masked m (flags j) := by
  simp only [Masked, gather_ie, gather_de, gather_oe, gather_ue, gather_pe]
  constructor
  · rintro ⟨h1, h2, h3, h4, h5⟩ j hj e
    exact ⟨fun g => h1 ⟨j, hj, e, g⟩, fun g => h2 ⟨j, hj, e, g⟩, fun g => h3 ⟨j, hj, e, g⟩,
      fun g => h4 ⟨j, hj, e, g⟩, fun g => h5 ⟨j, hj, e, g⟩⟩
  · intro h
    refine ⟨?_, ?_, ?_, ?_, ?_⟩ <;> rintro ⟨j, hj, e, g⟩
    exacts [(h j hj e).1 g, (h j hj e).2.1 g, (h j hj e).2.2.1 g, (h j hj e).2.2.2.1 g, (h j hj e).2.2.2.2 g]

/-- Everything `PackedFPReport` can answer. -/
theorem packedFPReport_cases (sae : Bool) (m : BitVec 32) (pre post : FpFlags) :
    (sae = true ∧ packedFPReport sae m pre post = .deliver m)
    ∨ (sae = false ∧ ¬ Masked m pre ∧ packedFPReport sae m pre post = .trap (setFlags m pre))
    ∨ (sae = false ∧ Masked m pre ∧ ¬ Masked m post
        ∧ packedFPReport sae m pre post = .trap (setFlags m (pre.union post)))
    ∨ (sae = false ∧ Masked m pre ∧ Masked m post
        ∧ packedFPReport sae m pre post = .deliver (setFlags m (pre.union post))) := by
  cases sae
  · by_cases h1 : Masked m pre <;> by_cases h2 : Masked m post <;>
      simp_all [packedFPReport, unmasked_eq_true_iff]
  · simp [packedFPReport]

end Sys2Proof.Machine
end

