-- ==== Sys2Proof/Laws/Memory.lean ====
section
/-!
SUPPORT. The memory map: its canonical form is kept by every operation, and what a read answers after
one.
-/

namespace Sys2Proof.Machine

theorem risingFrom_mono {lo lo' : Nat} (h : lo' ≤ lo) :
    ∀ {cs : List Host.Cell}, risingFrom lo cs = true → risingFrom lo' cs = true
  | [], _ => rfl
  | (a, b) :: cs, hr => by
    simp only [risingFrom, Bool.and_eq_true, decide_eq_true_eq] at hr ⊢
    exact ⟨Nat.le_trans h hr.1, hr.2⟩

theorem risingFrom_insertCell {n : Nat} {b : Byte} :
    ∀ {cs : List Host.Cell} {lo : Nat}, risingFrom lo cs = true → lo ≤ n →
      risingFrom lo (insertCell n b cs) = true
  | [], lo, _, h => by simp [insertCell, risingFrom, h]
  | (a, c) :: cs, lo, hr, h => by
    simp only [risingFrom, Bool.and_eq_true, decide_eq_true_eq] at hr
    unfold insertCell
    split
    · next hlt => simp [risingFrom, h, hr.2]; omega
    · split
      · simp [risingFrom, hr.1, hr.2]
      · next h1 h2 =>
        simp only [risingFrom, Bool.and_eq_true, decide_eq_true_eq]
        exact ⟨hr.1, risingFrom_insertCell hr.2 (by omega)⟩

theorem risingFrom_removeCell {n : Nat} :
    ∀ {cs : List Host.Cell} {lo : Nat}, risingFrom lo cs = true → risingFrom lo (removeCell n cs) = true
  | [], _, _ => rfl
  | (a, c) :: cs, lo, hr => by
    simp only [risingFrom, Bool.and_eq_true, decide_eq_true_eq] at hr
    unfold removeCell
    split
    · exact risingFrom_mono (by omega) hr.2
    · simp only [risingFrom, Bool.and_eq_true, decide_eq_true_eq]
      exact ⟨hr.1, risingFrom_removeCell hr.2⟩

theorem mem_insertCell {n : Nat} {b : Byte} {c : Host.Cell} :
    ∀ {cs : List Host.Cell}, c ∈ insertCell n b cs → c = (n, b) ∨ c ∈ cs
  | [], h => by simp [insertCell] at h; exact .inl h
  | (a, d) :: cs, h => by
    unfold insertCell at h
    split at h
    · simpa using h
    · split at h
      · next e =>
        rcases List.mem_cons.1 h with h | h
        · exact .inl (by rw [h, e])
        · exact .inr (List.mem_cons_of_mem _ h)
      · rcases List.mem_cons.1 h with h | h
        · exact .inr (by simp [h])
        · rcases mem_insertCell h with h | h
          · exact .inl h
          · exact .inr (List.mem_cons_of_mem _ h)

theorem mem_removeCell {n : Nat} {c : Host.Cell} :
    ∀ {cs : List Host.Cell}, c ∈ removeCell n cs → c ∈ cs
  | [], h => by simp [removeCell] at h
  | (a, d) :: cs, h => by
    unfold removeCell at h
    split at h
    · exact List.mem_cons_of_mem _ h
    · rcases List.mem_cons.1 h with h | h
      · simp [h]
      · exact List.mem_cons_of_mem _ (mem_removeCell h)

/-- Placing a byte at a canonical address keeps the canonical form. -/
theorem place_wf {m : MemMap} {a : Word64} {b : Byte} (h : m.wf = true) (ha : isCanonical a = true) :
    (m.place a b).wf = true := by
  simp only [MemMap.wf, Bool.and_eq_true, List.all_eq_true, decide_eq_true_eq] at h ⊢
  refine ⟨risingFrom_insertCell h.1 (Nat.zero_le _), fun c hc => ?_⟩
  rcases mem_insertCell hc with rfl | hc
  · exact ⟨a.isLt, by simpa using ha⟩
  · exact h.2 c hc

/-- Taking an address out of the map keeps the canonical form. -/
theorem unmap_wf {m : MemMap} {a : Word64} (h : m.wf = true) : (m.unmap a).wf = true := by
  simp only [MemMap.wf, Bool.and_eq_true, List.all_eq_true] at h ⊢
  exact ⟨risingFrom_removeCell h.1, fun c hc => h.2 c (mem_removeCell hc)⟩

/-- The memory map of the reset state has the canonical form. -/
theorem reset_mem_wf : State.reset.mem.wf = true := rfl

theorem lookupCell_insertCell_same {n : Nat} {b : Byte} :
    ∀ {cs : List Host.Cell}, lookupCell (insertCell n b cs) n = some b
  | [] => by simp [insertCell, lookupCell]
  | (a, c) :: cs => by
    unfold insertCell
    split
    · simp [lookupCell]
    · split
      · next e => simp [lookupCell, e]
      · next _ h => simp [lookupCell, Ne.symm h, lookupCell_insertCell_same]

theorem lookupCell_insertCell_other {n k : Nat} {b : Byte} (h : k ≠ n) :
    ∀ {cs : List Host.Cell}, lookupCell (insertCell n b cs) k = lookupCell cs k
  | [] => by simp [insertCell, lookupCell, Ne.symm h]
  | (a, c) :: cs => by
    unfold insertCell
    split
    · simp [lookupCell, Ne.symm h]
    · split
      · next e => subst e; simp [lookupCell, Ne.symm h]
      · simp [lookupCell, lookupCell_insertCell_other h]

/-- A placed byte is read back. -/
theorem place_byte_same (m : MemMap) (a : Word64) (b : Byte) : (m.place a b).byte a = some b :=
  lookupCell_insertCell_same

/-- Placing a byte leaves every other address alone. -/
theorem place_byte_other (m : MemMap) {a c : Word64} (b : Byte) (h : c ≠ a) :
    (m.place a b).byte c = m.byte c :=
  lookupCell_insertCell_other fun e => h (BitVec.eq_of_toNat_eq e)

theorem lookupCell_none_of_rising {k : Nat} :
    ∀ {cs : List Host.Cell} {lo : Nat}, k < lo → risingFrom lo cs = true → lookupCell cs k = none
  | [], _, _, _ => rfl
  | (a, c) :: cs, lo, h, hr => by
    simp only [risingFrom, Bool.and_eq_true, decide_eq_true_eq] at hr
    have hne : a ≠ k := by omega
    simp [lookupCell, hne, lookupCell_none_of_rising (lo := a + 1) (by omega : k < a + 1) hr.2]

theorem lookupCell_removeCell_same {n : Nat} :
    ∀ {cs : List Host.Cell} {lo : Nat}, risingFrom lo cs = true → lookupCell (removeCell n cs) n = none
  | [], _, _ => rfl
  | (a, c) :: cs, lo, hr => by
    simp only [risingFrom, Bool.and_eq_true, decide_eq_true_eq] at hr
    unfold removeCell
    split
    · next e => exact lookupCell_none_of_rising (lo := a + 1) (by omega) hr.2
    · next e => simp [lookupCell, e, lookupCell_removeCell_same hr.2]

/-- In a map in canonical form, an address that was taken out is unreadable. -/
theorem unmap_byte_same {m : MemMap} (a : Word64) (h : m.wf = true) : (m.unmap a).byte a = none := by
  simp only [MemMap.wf, Bool.and_eq_true] at h
  exact lookupCell_removeCell_same h.1

/-! ### One address space -/

/-- Everything a data read of one byte can find (rule R50): nothing outside the map, the program's byte
where the program has one, else the map's. -/
theorem byteAt_cases (s : State) (a : Word64) :
    (s.mem.byte a = none ∧ s.byteAt a = none)
    ∨ (∃ b b', s.mem.byte a = some b ∧ s.prog.byte a = some b' ∧ s.byteAt a = some b')
    ∨ (∃ b, s.mem.byte a = some b ∧ s.prog.byte a = none ∧ s.byteAt a = some b) := by
  unfold State.byteAt
  cases s.mem.byte a <;> cases s.prog.byte a <;> simp

theorem byteAt_congr {s t : State} {a : Word64} (hm : t.mem.byte a = s.mem.byte a)
    (hp : t.prog.byte a = s.prog.byte a) : t.byteAt a = s.byteAt a := by
  simp [State.byteAt, hm, hp]

theorem risingFrom_map {f : Host.Cell → Byte} :
    ∀ {cs : List Host.Cell} {lo : Nat}, risingFrom lo (cs.map fun c => (c.1, f c)) = risingFrom lo cs
  | [], _ => rfl
  | (a, b) :: cs, lo => by simp [risingFrom, risingFrom_map (cs := cs)]

theorem lookupCell_map {f : Host.Cell → Byte} {n : Nat} :
    ∀ {cs : List Host.Cell},
      lookupCell (cs.map fun c => (c.1, f c)) n = (lookupCell cs n).map fun b => f (n, b)
  | [] => rfl
  | (a, b) :: cs => by
    by_cases h : a = n
    · simp [lookupCell, h]
    · simp [lookupCell, h, lookupCell_map (cs := cs)]

/-- Placing a program keeps the canonical form. -/
@[simp] theorem withProgram_wf (m : MemMap) (p : Program) : (m.withProgram p).wf = m.wf := by
  simp [MemMap.withProgram, MemMap.wf, risingFrom_map, Function.comp_def]

/-- A map that a program was placed in holds the program. -/
@[simp] theorem withProgram_holds (m : MemMap) (p : Program) : (m.withProgram p).holds p = true := by
  simp only [MemMap.withProgram, MemMap.holds, List.all_map, List.all_eq_true, Function.comp]
  rintro ⟨n, b⟩ -
  cases p.byte (BitVec.ofNat 64 n) <;> simp

/-- What placing a program does to one byte of the map. -/
theorem withProgram_byte (m : MemMap) (p : Program) (a : Word64) :
    (m.withProgram p).byte a = (m.byte a).map fun b => (p.byte a).getD b := by
  simp [MemMap.byte, MemMap.withProgram, lookupCell_map]

@[simp] theorem withProgram_device (m : MemMap) (p : Program) : (m.withProgram p).device = m.device := rfl
@[simp] theorem withProgram_pBit (m : MemMap) (p : Program) : (m.withProgram p).pBit = m.pBit := rfl
@[simp] theorem withProgram_rsvdBit (m : MemMap) (p : Program) : (m.withProgram p).rsvdBit = m.rsvdBit := rfl

theorem lookupCell_mem {n : Nat} {b : Byte} :
    ∀ {cs : List Host.Cell}, lookupCell cs n = some b → (n, b) ∈ cs
  | [], h => by simp [lookupCell] at h
  | (a, c) :: cs, h => by
    unfold lookupCell at h
    split at h
    · next e => simp_all
    · exact List.mem_cons_of_mem _ (lookupCell_mem h)

/-- In a map that holds the program, the byte a data read finds is the map's. -/
theorem byteAt_of_holds {s : State} (h : s.mem.holds s.prog = true) (a : Word64) :
    s.byteAt a = s.mem.byte a := by
  unfold State.byteAt
  cases hb : s.mem.byte a with
  | none => rfl
  | some b =>
    have := List.all_eq_true.1 h _ (lookupCell_mem hb)
    simpa using this

/-- A 32-bit read answers exactly when its four bytes are readable, and then with those bytes. -/
theorem read32_eq_some {s : State} {a : Word64} {w : Lane} :
    s.read32 a = some w ↔
      ∃ b0 b1 b2 b3, s.byteAt a = some b0 ∧ s.byteAt (a + 1#64) = some b1 ∧ s.byteAt (a + 2#64) = some b2
        ∧ s.byteAt (a + 3#64) = some b3 ∧ w = b3 ++ b2 ++ b1 ++ b0 := by
  unfold State.read32
  constructor
  · intro h
    split at h
    · next b0 b1 b2 b3 e0 e1 e2 e3 => exact ⟨b0, b1, b2, b3, e0, e1, e2, e3, by simpa using h.symm⟩
    · cases h
  · rintro ⟨b0, b1, b2, b3, e0, e1, e2, e3, rfl⟩
    simp [e0, e1, e2, e3]

end Sys2Proof.Machine
end

