-- ==== Sys2Proof/Laws/Numerics.lean ====
section
/-!
SUPPORT. The lane function: which flags each stage can raise, when a lane has no result, and what
rounding to an integer answers.
-/

namespace Sys2Proof.Machine

/-! ### Rounding to an integer -/

theorem rInt_of_dvd {num den : Nat} (h : num % den = 0) (rc : RoundMode) (neg : Bool) :
    rInt num den rc neg = num / den := by simp [rInt, h]

/-- The result is the floor or one more. -/
theorem rInt_cases (num den : Nat) (rc : RoundMode) (neg : Bool) :
    rInt num den rc neg = num / den ∨ (num % den ≠ 0 ∧ rInt num den rc neg = num / den + 1) := by
  unfold rInt
  by_cases h : num % den = 0
  · simp [h]
  · cases rc <;> simp only [h, if_false] <;> repeat' split
    all_goals simp [h]

theorem le_rInt (num den : Nat) (rc : RoundMode) (neg : Bool) : num / den ≤ rInt num den rc neg := by
  rcases rInt_cases num den rc neg with h | ⟨_, h⟩ <;> omega

theorem rInt_le (num den : Nat) (rc : RoundMode) (neg : Bool) : rInt num den rc neg ≤ num / den + 1 := by
  rcases rInt_cases num den rc neg with h | ⟨_, h⟩ <;> omega

/-- Scaling numerator and denominator alike changes nothing. -/
theorem rInt_mul (num den c : Nat) (hc : 0 < c) (rc : RoundMode) (neg : Bool) :
    rInt (num * c) (den * c) rc neg = rInt num den rc neg := by
  have h1 : num * c / (den * c) = num / den := Nat.mul_div_mul_right _ _ hc
  have h2 : num * c % (den * c) = num % den * c := Nat.mul_mod_mul_right _ _ _
  have h3 : (num % den * c = 0) = (num % den = 0) := by
    simp [Nat.ne_of_gt hc]
  have h4 : (2 * (num % den * c) < den * c) = (2 * (num % den) < den) := by
    rw [← Nat.mul_assoc]; simp [hc]
  have h5 : (den * c < 2 * (num % den * c)) = (den < 2 * (num % den)) := by
    rw [← Nat.mul_assoc]; simp [hc]
  unfold rInt
  simp only [h1, h2, h3, h4, h5]

/-! ### Which flags each stage raises -/

theorem overflow_pre (neg : Bool) (rc : RoundMode) (om inexact : Bool) :
    (overflow neg rc om inexact).2.ie = false ∧ (overflow neg rc om inexact).2.de = false := by
  unfold overflow; split <;> exact ⟨rfl, rfl⟩

theorem underflow_pre (q : Nat) (neg : Bool) (rc : RoundMode) (ftz um inexact : Bool) :
    (underflow q neg rc ftz um inexact).2.ie = false ∧ (underflow q neg rc ftz um inexact).2.de = false := by
  unfold underflow; repeat' split
  all_goals exact ⟨rfl, rfl⟩

/-- The three ways rounding can end, for some exponent, significand and inexactness (rule R137). -/
theorem round32_shape (r : Int) (rc : RoundMode) (ftz um om : Bool) :
    ∃ (e : Int) (w : Lane) (inexact : Bool), round32 r rc ftz um om
      = if e > 127 then overflow (decide (r < 0)) rc om inexact
        else if e < -126 then underflow r.natAbs (decide (r < 0)) rc ftz um inexact
        else (some w, { FpFlags.empty with pe := inexact }) :=
  ⟨_, _, _, rfl⟩

/-- Rounding raises post-computation flags only (rule R232). -/
theorem round32_pre (r : Int) (rc : RoundMode) (ftz um om : Bool) :
    (round32 r rc ftz um om).2.ie = false ∧ (round32 r rc ftz um om).2.de = false := by
  obtain ⟨e, w, inexact, h⟩ := round32_shape r rc ftz um om
  rw [h]
  split
  · exact overflow_pre _ _ _ _
  · split
    · exact underflow_pre _ _ _ _ _ _
    · exact ⟨rfl, rfl⟩

/-- Rounding takes the result away only with an unmasked overflow or underflow (rules R144, R145). -/
theorem round32_none {r : Int} {rc : RoundMode} {ftz um om : Bool} (h : (round32 r rc ftz um om).1 = none) :
    (om = false ∧ (round32 r rc ftz um om).2.oe = true) ∨ (um = false ∧ (round32 r rc ftz um om).2.ue = true) := by
  obtain ⟨e, w, inexact, h'⟩ := round32_shape r rc ftz um om
  rw [h'] at h ⊢
  revert h
  split
  · unfold overflow; cases om <;> simp
  · split
    · unfold underflow; cases um <;> cases ftz <;> simp
    · simp

/-- The pre-computation flags of a lane are `IE` and `DE`. -/
theorem fnmsub32_pre (order : NanOrder) (x y z : Lane) (rc : RoundMode) (daz ftz um om : Bool) :
    (fnmsub32 order x y z rc daz ftz um om).pre.oe = false
      ∧ (fnmsub32 order x y z rc daz ftz um om).pre.ue = false
      ∧ (fnmsub32 order x y z rc daz ftz um om).pre.pe = false := by
  unfold fnmsub32 fnmsubCore
  dsimp only
  repeat' split
  all_goals exact ⟨rfl, rfl, rfl⟩

/-- The post-computation flags of a lane are `OE`, `UE` and `PE`. -/
theorem fnmsub32_post (order : NanOrder) (x y z : Lane) (rc : RoundMode) (daz ftz um om : Bool) :
    (fnmsub32 order x y z rc daz ftz um om).post.ie = false
      ∧ (fnmsub32 order x y z rc daz ftz um om).post.de = false := by
  unfold fnmsub32 fnmsubCore
  dsimp only
  repeat' split
  all_goals first | exact round32_pre _ _ _ _ _ | exact ⟨rfl, rfl⟩

/-- A lane without a result raised an unmasked overflow or underflow. -/
theorem fnmsub32_none {order : NanOrder} {x y z : Lane} {rc : RoundMode} {daz ftz um om : Bool}
    (h : (fnmsub32 order x y z rc daz ftz um om).res = none) :
    (om = false ∧ (fnmsub32 order x y z rc daz ftz um om).post.oe = true)
      ∨ (um = false ∧ (fnmsub32 order x y z rc daz ftz um om).post.ue = true) := by
  revert h
  unfold fnmsub32 fnmsubCore
  dsimp only
  repeat' split
  all_goals first | (intro h; exact round32_none h) | simp

/-- A lane whose flags are all masked has a result. -/
theorem fnmsub32_some {order : NanOrder} {x y z : Lane} {rc : RoundMode} {daz ftz um om : Bool}
    (ho : (fnmsub32 order x y z rc daz ftz um om).post.oe = true → om = true)
    (hu : (fnmsub32 order x y z rc daz ftz um om).post.ue = true → um = true) :
    ∃ w, (fnmsub32 order x y z rc daz ftz um om).res = some w := by
  cases h : (fnmsub32 order x y z rc daz ftz um om).res with
  | some w => exact ⟨w, rfl⟩
  | none => rcases fnmsub32_none h with ⟨e, g⟩ | ⟨e, g⟩
            · simp [ho g] at e
            · simp [hu g] at e

/-- With everything masked a lane always has a result. -/
theorem fnmsub32_masked (order : NanOrder) (x y z : Lane) (rc : RoundMode) (daz ftz : Bool) :
    ∃ w, (fnmsub32 order x y z rc daz ftz true true).res = some w :=
  fnmsub32_some (fun _ => rfl) (fun _ => rfl)

end Sys2Proof.Machine
end

