-- ==== Sys2Proof/Laws/State.lean ====
section
/-!
SUPPORT. One lemma per field per update of `State`, and the reads of vector registers after an update.
-/

namespace Sys2Proof.Machine

/-! ### setVreg -/

@[simp] theorem setVreg_v (s : State) (r : BitVec 5) (w : VReg) : (s.setVreg r w).v = s.v.set r.toNat w r.isLt := rfl
@[simp] theorem setVreg_k (s : State) (r : BitVec 5) (w : VReg) : (s.setVreg r w).k = s.k := rfl
@[simp] theorem setVreg_mxcsr (s : State) (r : BitVec 5) (w : VReg) : (s.setVreg r w).mxcsr = s.mxcsr := rfl
@[simp] theorem setVreg_rip (s : State) (r : BitVec 5) (w : VReg) : (s.setVreg r w).rip = s.rip := rfl
@[simp] theorem setVreg_x (s : State) (r : BitVec 5) (w : VReg) : (s.setVreg r w).x = s.x := rfl
@[simp] theorem setVreg_fsBase (s : State) (r : BitVec 5) (w : VReg) : (s.setVreg r w).fsBase = s.fsBase := rfl
@[simp] theorem setVreg_gsBase (s : State) (r : BitVec 5) (w : VReg) : (s.setVreg r w).gsBase = s.gsBase := rfl
@[simp] theorem setVreg_csBase (s : State) (r : BitVec 5) (w : VReg) : (s.setVreg r w).csBase = s.csBase := rfl
@[simp] theorem setVreg_rflags (s : State) (r : BitVec 5) (w : VReg) : (s.setVreg r w).rflags = s.rflags := rfl
@[simp] theorem setVreg_cr0 (s : State) (r : BitVec 5) (w : VReg) : (s.setVreg r w).cr0 = s.cr0 := rfl
@[simp] theorem setVreg_cr4 (s : State) (r : BitVec 5) (w : VReg) : (s.setVreg r w).cr4 = s.cr4 := rfl
@[simp] theorem setVreg_xcr0 (s : State) (r : BitVec 5) (w : VReg) : (s.setVreg r w).xcr0 = s.xcr0 := rfl
@[simp] theorem setVreg_cpl (s : State) (r : BitVec 5) (w : VReg) : (s.setVreg r w).cpl = s.cpl := rfl
@[simp] theorem setVreg_longMode (s : State) (r : BitVec 5) (w : VReg) : (s.setVreg r w).longMode = s.longMode := rfl
@[simp] theorem setVreg_csL (s : State) (r : BitVec 5) (w : VReg) : (s.setVreg r w).csL = s.csL := rfl
@[simp] theorem setVreg_mem (s : State) (r : BitVec 5) (w : VReg) : (s.setVreg r w).mem = s.mem := rfl
@[simp] theorem setVreg_prog (s : State) (r : BitVec 5) (w : VReg) : (s.setVreg r w).prog = s.prog := rfl
@[simp] theorem setVreg_cfg (s : State) (r : BitVec 5) (w : VReg) : (s.setVreg r w).cfg = s.cfg := rfl

/-! ### setMxcsr -/

@[simp] theorem setMxcsr_v (s : State) (m : BitVec 32) : (s.setMxcsr m).v = s.v := rfl
@[simp] theorem setMxcsr_k (s : State) (m : BitVec 32) : (s.setMxcsr m).k = s.k := rfl
@[simp] theorem setMxcsr_mxcsr (s : State) (m : BitVec 32) : (s.setMxcsr m).mxcsr = m := rfl
@[simp] theorem setMxcsr_rip (s : State) (m : BitVec 32) : (s.setMxcsr m).rip = s.rip := rfl
@[simp] theorem setMxcsr_x (s : State) (m : BitVec 32) : (s.setMxcsr m).x = s.x := rfl
@[simp] theorem setMxcsr_fsBase (s : State) (m : BitVec 32) : (s.setMxcsr m).fsBase = s.fsBase := rfl
@[simp] theorem setMxcsr_gsBase (s : State) (m : BitVec 32) : (s.setMxcsr m).gsBase = s.gsBase := rfl
@[simp] theorem setMxcsr_csBase (s : State) (m : BitVec 32) : (s.setMxcsr m).csBase = s.csBase := rfl
@[simp] theorem setMxcsr_rflags (s : State) (m : BitVec 32) : (s.setMxcsr m).rflags = s.rflags := rfl
@[simp] theorem setMxcsr_cr0 (s : State) (m : BitVec 32) : (s.setMxcsr m).cr0 = s.cr0 := rfl
@[simp] theorem setMxcsr_cr4 (s : State) (m : BitVec 32) : (s.setMxcsr m).cr4 = s.cr4 := rfl
@[simp] theorem setMxcsr_xcr0 (s : State) (m : BitVec 32) : (s.setMxcsr m).xcr0 = s.xcr0 := rfl
@[simp] theorem setMxcsr_cpl (s : State) (m : BitVec 32) : (s.setMxcsr m).cpl = s.cpl := rfl
@[simp] theorem setMxcsr_longMode (s : State) (m : BitVec 32) : (s.setMxcsr m).longMode = s.longMode := rfl
@[simp] theorem setMxcsr_csL (s : State) (m : BitVec 32) : (s.setMxcsr m).csL = s.csL := rfl
@[simp] theorem setMxcsr_mem (s : State) (m : BitVec 32) : (s.setMxcsr m).mem = s.mem := rfl
@[simp] theorem setMxcsr_prog (s : State) (m : BitVec 32) : (s.setMxcsr m).prog = s.prog := rfl
@[simp] theorem setMxcsr_cfg (s : State) (m : BitVec 32) : (s.setMxcsr m).cfg = s.cfg := rfl

/-! ### advance -/

@[simp] theorem advance_v (s : State) (n : Nat) : (s.advance n).v = s.v := rfl
@[simp] theorem advance_k (s : State) (n : Nat) : (s.advance n).k = s.k := rfl
@[simp] theorem advance_mxcsr (s : State) (n : Nat) : (s.advance n).mxcsr = s.mxcsr := rfl
@[simp] theorem advance_rip (s : State) (n : Nat) : (s.advance n).rip = s.rip + BitVec.ofNat 64 n := rfl
@[simp] theorem advance_x (s : State) (n : Nat) : (s.advance n).x = s.x := rfl
@[simp] theorem advance_fsBase (s : State) (n : Nat) : (s.advance n).fsBase = s.fsBase := rfl
@[simp] theorem advance_gsBase (s : State) (n : Nat) : (s.advance n).gsBase = s.gsBase := rfl
@[simp] theorem advance_csBase (s : State) (n : Nat) : (s.advance n).csBase = s.csBase := rfl
@[simp] theorem advance_rflags (s : State) (n : Nat) : (s.advance n).rflags = s.rflags := rfl
@[simp] theorem advance_cr0 (s : State) (n : Nat) : (s.advance n).cr0 = s.cr0 := rfl
@[simp] theorem advance_cr4 (s : State) (n : Nat) : (s.advance n).cr4 = s.cr4 := rfl
@[simp] theorem advance_xcr0 (s : State) (n : Nat) : (s.advance n).xcr0 = s.xcr0 := rfl
@[simp] theorem advance_cpl (s : State) (n : Nat) : (s.advance n).cpl = s.cpl := rfl
@[simp] theorem advance_longMode (s : State) (n : Nat) : (s.advance n).longMode = s.longMode := rfl
@[simp] theorem advance_csL (s : State) (n : Nat) : (s.advance n).csL = s.csL := rfl
@[simp] theorem advance_mem (s : State) (n : Nat) : (s.advance n).mem = s.mem := rfl
@[simp] theorem advance_prog (s : State) (n : Nat) : (s.advance n).prog = s.prog := rfl
@[simp] theorem advance_cfg (s : State) (n : Nat) : (s.advance n).cfg = s.cfg := rfl

/-! ### placeProgram -/

@[simp] theorem placeProgram_v (s : State) (bs : Bytes) : (placeProgram s bs).v = s.v := rfl
@[simp] theorem placeProgram_k (s : State) (bs : Bytes) : (placeProgram s bs).k = s.k := rfl
@[simp] theorem placeProgram_mxcsr (s : State) (bs : Bytes) : (placeProgram s bs).mxcsr = s.mxcsr := rfl
@[simp] theorem placeProgram_rip (s : State) (bs : Bytes) : (placeProgram s bs).rip = s.rip := rfl
@[simp] theorem placeProgram_x (s : State) (bs : Bytes) : (placeProgram s bs).x = s.x := rfl
@[simp] theorem placeProgram_fsBase (s : State) (bs : Bytes) : (placeProgram s bs).fsBase = s.fsBase := rfl
@[simp] theorem placeProgram_gsBase (s : State) (bs : Bytes) : (placeProgram s bs).gsBase = s.gsBase := rfl
@[simp] theorem placeProgram_csBase (s : State) (bs : Bytes) : (placeProgram s bs).csBase = s.csBase := rfl
@[simp] theorem placeProgram_rflags (s : State) (bs : Bytes) : (placeProgram s bs).rflags = s.rflags := rfl
@[simp] theorem placeProgram_cr0 (s : State) (bs : Bytes) : (placeProgram s bs).cr0 = s.cr0 := rfl
@[simp] theorem placeProgram_cr4 (s : State) (bs : Bytes) : (placeProgram s bs).cr4 = s.cr4 := rfl
@[simp] theorem placeProgram_xcr0 (s : State) (bs : Bytes) : (placeProgram s bs).xcr0 = s.xcr0 := rfl
@[simp] theorem placeProgram_cpl (s : State) (bs : Bytes) : (placeProgram s bs).cpl = s.cpl := rfl
@[simp] theorem placeProgram_longMode (s : State) (bs : Bytes) : (placeProgram s bs).longMode = s.longMode := rfl
@[simp] theorem placeProgram_csL (s : State) (bs : Bytes) : (placeProgram s bs).csL = s.csL := rfl
@[simp] theorem placeProgram_mem (s : State) (bs : Bytes) : (placeProgram s bs).mem = s.mem.withProgram ⟨s.rip, bs⟩ := rfl
@[simp] theorem placeProgram_prog (s : State) (bs : Bytes) : (placeProgram s bs).prog = ⟨s.rip, bs⟩ := rfl
@[simp] theorem placeProgram_cfg (s : State) (bs : Bytes) : (placeProgram s bs).cfg = s.cfg := rfl

/-! ### enterLaunchControl -/

@[simp] theorem enterLaunchControl_v (s : State) : (enterLaunchControl s).v = s.v := rfl
@[simp] theorem enterLaunchControl_k (s : State) : (enterLaunchControl s).k = s.k := rfl
@[simp] theorem enterLaunchControl_mxcsr (s : State) : (enterLaunchControl s).mxcsr = s.mxcsr := rfl
@[simp] theorem enterLaunchControl_rip (s : State) : (enterLaunchControl s).rip = s.rip := rfl
@[simp] theorem enterLaunchControl_x (s : State) : (enterLaunchControl s).x = s.x := rfl
@[simp] theorem enterLaunchControl_fsBase (s : State) : (enterLaunchControl s).fsBase = s.fsBase := rfl
@[simp] theorem enterLaunchControl_gsBase (s : State) : (enterLaunchControl s).gsBase = s.gsBase := rfl
@[simp] theorem enterLaunchControl_csBase (s : State) : (enterLaunchControl s).csBase = s.csBase := rfl
@[simp] theorem enterLaunchControl_rflags (s : State) : (enterLaunchControl s).rflags = s.rflags &&& ~~~0x60000#64 := rfl
@[simp] theorem enterLaunchControl_cr0 (s : State) : (enterLaunchControl s).cr0 = (s.cr0 ||| 0x1#64) &&& ~~~0x40008#64 := rfl
@[simp] theorem enterLaunchControl_cr4 (s : State) : (enterLaunchControl s).cr4 = s.cr4 ||| 0x40400#64 := rfl
@[simp] theorem enterLaunchControl_xcr0 (s : State) : (enterLaunchControl s).xcr0 = 0xE7#64 := rfl
@[simp] theorem enterLaunchControl_cpl (s : State) : (enterLaunchControl s).cpl = 3#2 := rfl
@[simp] theorem enterLaunchControl_longMode (s : State) : (enterLaunchControl s).longMode = true := rfl
@[simp] theorem enterLaunchControl_csL (s : State) : (enterLaunchControl s).csL = true := rfl
@[simp] theorem enterLaunchControl_mem (s : State) : (enterLaunchControl s).mem = s.mem := rfl
@[simp] theorem enterLaunchControl_prog (s : State) : (enterLaunchControl s).prog = s.prog := rfl
@[simp] theorem enterLaunchControl_cfg (s : State) : (enterLaunchControl s).cfg = s.cfg := rfl

/-! ### Vector and opmask registers and bytes after an update -/

@[simp] theorem setVreg_vreg_same (s : State) (r : BitVec 5) (w : VReg) : (s.setVreg r w).vreg r = w := by
  simp [State.vreg, State.setVreg]

theorem setVreg_vreg_other (s : State) {r q : BitVec 5} (w : VReg) (h : q ≠ r) :
    (s.setVreg r w).vreg q = s.vreg q := by
  have : r.toNat ≠ q.toNat := fun e => h (BitVec.eq_of_toNat_eq e.symm)
  simp [State.vreg, State.setVreg, this]

@[simp] theorem setVreg_byteAt (s : State) (r : BitVec 5) (w : VReg) (a : Word64) :
    (s.setVreg r w).byteAt a = s.byteAt a := rfl
@[simp] theorem setMxcsr_byteAt (s : State) (m : BitVec 32) (a : Word64) : (s.setMxcsr m).byteAt a = s.byteAt a := rfl
@[simp] theorem advance_byteAt (s : State) (n : Nat) (a : Word64) : (s.advance n).byteAt a = s.byteAt a := rfl
@[simp] theorem setMxcsr_vreg (s : State) (m : BitVec 32) (r : BitVec 5) : (s.setMxcsr m).vreg r = s.vreg r := rfl
@[simp] theorem advance_vreg (s : State) (n : Nat) (r : BitVec 5) : (s.advance n).vreg r = s.vreg r := rfl
@[simp] theorem setVreg_opmask (s : State) (r : BitVec 5) (w : VReg) (a : BitVec 3) :
    (s.setVreg r w).opmask a = s.opmask a := rfl
@[simp] theorem setMxcsr_opmask (s : State) (m : BitVec 32) (a : BitVec 3) : (s.setMxcsr m).opmask a = s.opmask a := rfl
@[simp] theorem advance_opmask (s : State) (n : Nat) (a : BitVec 3) : (s.advance n).opmask a = s.opmask a := rfl

/-! ### Reset -/

@[simp] theorem reset_vreg (r : BitVec 5) : State.reset.vreg r = 0#512 := by simp [State.vreg, State.reset]
@[simp] theorem reset_opmask (a : BitVec 3) : State.reset.opmask a = 0#64 := by simp [State.opmask, State.reset]
@[simp] theorem reset_gpr (r : BitVec 4) : State.reset.gpr r = 0#64 := by simp [State.gpr, State.reset]

end Sys2Proof.Machine
end

