-- ==== Sys2Proof/Laws/Ops.lean ====
section
/-!
SUPPORT. The shared operations: lanes of a vector, the checks before the effect, and the packed
computation. Each lemma says once what its operation can do.
-/

namespace Sys2Proof.Machine

/-! ### Lanes -/

theorem lane_getLsbD (v : VReg) (j i : Nat) (h : i < 32) : (lane v j).getLsbD i = v.getLsbD (32 * j + i) := by
  simp [lane, h]

theorem packLanes_getLsbD (kl : Nat) (f : Nat → Lane) (b : Nat) (h : b < 512) :
    (packLanes kl f).getLsbD b = (decide (b < 32 * kl) && (f (b / 32)).getLsbD (b % 32)) := by
  induction kl with
  | zero => simp [packLanes]
  | succ kl ih =>
    simp only [packLanes, BitVec.getLsbD_or, ih, BitVec.getLsbD_shiftLeft, BitVec.getLsbD_setWidth, h]
    by_cases h1 : b < 32 * kl
    · have h2 : b < 32 * (kl + 1) := by omega
      simp [h1, h2]
    · by_cases h2 : b < 32 * (kl + 1)
      · have e : b / 32 = kl := by omega
        have e' : b - 32 * kl = b % 32 := by omega
        have e3 : b % 32 < 512 := by omega
        simp [h1, h2, e, e', e3]
      · have e' : 32 ≤ b - 32 * kl := by omega
        simp [h1, h2, BitVec.getLsbD_of_ge _ _ e']

/-- Lane `j` of a packed vector. -/
theorem lane_packLanes {kl : Nat} (f : Nat → Lane) {j : Nat} (hj : j < kl) (hkl : kl ≤ 16) :
    lane (packLanes kl f) j = f j := by
  apply BitVec.eq_of_getLsbD_eq
  intro i hi
  have h1 : (32 * j + i) / 32 = j := by omega
  have h2 : (32 * j + i) % 32 = i := by omega
  have h3 : 32 * j + i < 32 * kl := by omega
  rw [lane_getLsbD _ _ _ hi, packLanes_getLsbD _ _ _ (by omega), h1, h2]
  simp [h3]

/-- A packed vector has no bit at or above its lanes. -/
theorem packLanes_high {kl : Nat} (f : Nat → Lane) {b : Nat} (h : 32 * kl ≤ b) :
    (packLanes kl f).getLsbD b = false := by
  by_cases hb : b < 512
  · rw [packLanes_getLsbD _ _ _ hb]
    have : ¬ b < 32 * kl := by omega
    simp [this]
  · exact BitVec.getLsbD_of_ge _ _ (by omega)

theorem packLanes_congr {kl : Nat} {f g : Nat → Lane} (h : ∀ j < kl, f j = g j) :
    packLanes kl f = packLanes kl g := by
  induction kl with
  | zero => rfl
  | succ kl ih => simp only [packLanes, ih fun j hj => h j (by omega), h kl (by omega)]

/-! ### Control bits in 64-bit mode -/

theorem mode_bits64_iff (s : State) :
    s.mode = .bits64 ↔ s.cr0PE = true ∧ s.rflagsVM = false ∧ s.longMode = true ∧ s.csL = true := by
  unfold State.mode
  cases s.cr0PE <;> cases s.rflagsVM <;> cases s.longMode <;> cases s.csL <;> simp

theorem modeRefused_bits64 {s : State} (h : s.mode = .bits64) : modeRefused s = false := by
  simp [modeRefused, h]

/-! ### Refusals -/

/-- A refusal carries the state it is made in (rule R269 b, c). -/
@[simp] theorem refusalOf_state (c : RefusalCause) (s : State) : (refusalOf c s).state = some s := by
  cases c <;> rfl

@[simp] theorem refusalOf_mapState (g : State → State) (c : RefusalCause) (s : State) :
    (refusalOf c s).mapState g = refusalOf c (g s) := by
  cases c <;> rfl

/-! ### The gate -/

/-- Everything the gate can answer, in its order (rule R233). -/
theorem gate_cases (s : State) (len : Nat) (e c : Bool) :
    (modeRefused s = true ∧ gate s len e c = some (.refuse .unsupportedMode))
    ∨ (modeRefused s = false ∧ 15 < len ∧ gate s len e c = some (.raise .gp))
    ∨ (modeRefused s = false ∧ len ≤ 15 ∧ (e || c) = true ∧ gate s len e c = some (.raise .ud))
    ∨ (modeRefused s = false ∧ len ≤ 15 ∧ (e || c) = false ∧ s.cr0TS = true
        ∧ gate s len e c = some (.raise .nm))
    ∨ (modeRefused s = false ∧ len ≤ 15 ∧ (e || c) = false ∧ s.cr0TS = false ∧ gate s len e c = none) := by
  unfold gate
  by_cases h2 : 15 < len
  · cases modeRefused s <;> simp [h2]
  · cases modeRefused s <;> cases (e || c) <;> cases s.cr0TS <;> simp [h2] <;> omega

theorem gate_eq_none_iff (s : State) (len : Nat) (e c : Bool) :
    gate s len e c = none ↔ modeRefused s = false ∧ len ≤ 15 ∧ (e || c) = false ∧ s.cr0TS = false := by
  constructor
  · intro h
    rcases gate_cases s len e c with h' | h' | h' | h' | h' <;> simp_all
  · rintro ⟨h1, h2, h3, h4⟩
    have : ¬ 15 < len := by omega
    unfold gate
    simp [h1, h3, h4, this]

theorem stateUD_bits64 {s : State} (h : s.mode = .bits64) :
    stateUD s = (!s.cr4OSXSAVE || !s.avxEnabled) := by
  obtain ⟨h1, h2, -, -⟩ := (mode_bits64_iff s).1 h
  simp [stateUD, h1, h2]

/-- A ready VEX row passes its gate. -/
theorem vex_gate_none {o : VexOperands} {s : State} (h : VexReady o s) :
    gate s o.length false (vexUD s o.pre) = none := by
  obtain ⟨hm, hl, hp, hx, ha, hf, ht⟩ := h
  rw [gate_eq_none_iff]
  simp [modeRefused_bits64 hm, hl, ht, vexUD, stateUD_bits64 hm, hp, hx, ha, hf]

/-- A ready EVEX row passes its gate. -/
theorem evex_gate_none {vl : VLen} {f : EvexFields} {len : Nat} {s : State} (h : EvexReady vl f len s) :
    gate s len (evexEncodingUD f) (evexStateUD s vl) = none := by
  obtain ⟨hm, hl, hp, h3, h2, hz, hx, ha, ha5, hf, hv, ht⟩ := h
  rw [gate_eq_none_iff]
  refine ⟨modeRefused_bits64 hm, hl, ?_, ht⟩
  have e1 : (f.z && f.aaa == 0#3) = false := by
    by_cases e : f.z = true
    · simp [hz e]
    · simp [e]
  have e2 : (vl != .l512 && !s.cfg.avx512vl) = false := by
    by_cases e : vl = .l512
    · simp [e]
    · simp [hv e]
  simp [evexEncodingUD, evexStateUD, stateUD_bits64 hm, hp, h3, h2, hx, ha, ha5, hf, e1, e2]

/-! ### The operand check -/

theorem canonical_of_byteAddr {a : Word64} {k : Nat} (h : isCanonical (byteAddr a k) = true) :
    isCanonical (a + BitVec.ofNat 64 k) = true := h

theorem runsPastTop_false {addr : Word64} {size : Nat} (h : addr.toNat + size ≤ 2 ^ 64) :
    runsPastTop addr size = false := by
  simp [runsPastTop]; omega

/-- Everything the operand check can answer, in its order (rules R53, R70, R233). -/
theorem checkRead_cases (s : State) (addr : Word64) (size : Nat) (offs : List Nat) (stack al : Bool) :
    (2 ^ 64 < addr.toNat + size ∧ checkRead s addr size offs stack al = some (.refuse .operandWraps))
    ∨ (addr.toNat + size ≤ 2 ^ 64 ∧ (∃ k ∈ offs, isCanonical (byteAddr addr k) = false)
        ∧ checkRead s addr size offs stack al = some (.raise (if stack then .ss else .gp)))
    ∨ (addr.toNat + size ≤ 2 ^ 64 ∧ (∀ k ∈ offs, isCanonical (byteAddr addr k) = true)
        ∧ al = true ∧ offs ≠ [] ∧ s.alignmentChecked = true ∧ addr.extractLsb' 0 2 ≠ 0#2
        ∧ checkRead s addr size offs stack al = some (.raise .ac))
    ∨ (addr.toNat + size ≤ 2 ^ 64 ∧ (∀ k ∈ offs, isCanonical (byteAddr addr k) = true)
        ∧ ¬ (al = true ∧ offs ≠ [] ∧ s.alignmentChecked = true ∧ addr.extractLsb' 0 2 ≠ 0#2)
        ∧ ∃ k, offs.find? (unmappedAt s addr) = some k
          ∧ checkRead s addr size offs stack al = some (.raise (.pf (byteAddr addr k) false)))
    ∨ (addr.toNat + size ≤ 2 ^ 64 ∧ (∀ k ∈ offs, isCanonical (byteAddr addr k) = true)
        ∧ ¬ (al = true ∧ offs ≠ [] ∧ s.alignmentChecked = true ∧ addr.extractLsb' 0 2 ≠ 0#2)
        ∧ (∀ k ∈ offs, unmappedAt s addr k = false)
        ∧ checkRead s addr size offs stack al = none) := by
  by_cases h1 : 2 ^ 64 < addr.toNat + size
  · left
    refine ⟨h1, by simp only [checkRead, runsPastTop, h1]; simp⟩
  have h1' : addr.toNat + size ≤ 2 ^ 64 := by omega
  have h1b := runsPastTop_false h1'
  by_cases h2 : offs.any (fun k => !isCanonical (byteAddr addr k)) = true
  · right; left
    refine ⟨h1', by simpa using h2, by simp [checkRead, h1b, h2]⟩
  have h2' : ∀ k ∈ offs, isCanonical (byteAddr addr k) = true := by simpa using h2
  by_cases h3 : al = true ∧ offs ≠ [] ∧ s.alignmentChecked = true ∧ addr.extractLsb' 0 2 ≠ 0#2
  · right; right; left
    refine ⟨h1', h2', h3.1, h3.2.1, h3.2.2.1, h3.2.2.2, ?_⟩
    simp only [checkRead, h1b, h2]
    simp [h3]
  have h3' : (al && !offs.isEmpty && s.alignmentChecked && addr.extractLsb' 0 2 != 0#2) = false := by
    rw [Bool.eq_false_iff]
    intro h
    apply h3
    simpa [and_assoc] using h
  right; right; right
  cases h4 : offs.find? (unmappedAt s addr) with
  | some k =>
    left
    refine ⟨h1', h2', h3, k, rfl, ?_⟩
    simp only [checkRead, h1b, h2, h3', h4]
    simp
  | none =>
    right
    refine ⟨h1', h2', h3, by simpa using h4, ?_⟩
    simp only [checkRead, h1b, h2, h3', h4]
    simp

/-- The checks pass when the operand does not wrap, every byte read is canonical and mapped, and the
alignment is right. -/
theorem checkRead_none {s : State} {addr : Word64} {size : Nat} {offs : List Nat} {stack al : Bool}
    (hw : addr.toNat + size ≤ 2 ^ 64) (hc : ∀ k ∈ offs, isCanonical (byteAddr addr k) = true)
    (ha : al = true → offs ≠ [] → s.alignmentChecked = true → addr.extractLsb' 0 2 = 0#2)
    (hm : ∀ k ∈ offs, unmappedAt s addr k = false) : checkRead s addr size offs stack al = none := by
  rcases checkRead_cases s addr size offs stack al with
    ⟨h, -⟩ | ⟨-, ⟨k, hk, h⟩, -⟩ | ⟨-, -, h1, h2, h3, h4, -⟩ | ⟨-, -, -, k, hk, -⟩ | ⟨-, -, -, -, h⟩
  · omega
  · simp [hc k hk] at h
  · exact absurd (ha h1 h2 h3) h4
  · have := List.find?_some hk
    simp [hm k (List.mem_of_find?_eq_some hk)] at this
  · exact h

theorem mem_fullOffsets {kl : Nat} {en : Nat → Bool} {k : Nat} :
    k ∈ fullOffsets kl en ↔ ∃ j < kl, en j = true ∧ ∃ i < 4, k = 4 * j + i := by
  simp only [fullOffsets, List.mem_flatMap, List.mem_filter, List.mem_range, List.mem_cons,
    List.not_mem_nil, or_false]
  constructor
  · rintro ⟨j, ⟨hj, he⟩, h⟩
    rcases h with h | h | h | h
    exacts [⟨j, hj, he, 0, by omega, by omega⟩, ⟨j, hj, he, 1, by omega, by omega⟩,
      ⟨j, hj, he, 2, by omega, by omega⟩, ⟨j, hj, he, 3, by omega, by omega⟩]
  · rintro ⟨j, hj, he, i, hi, rfl⟩
    refine ⟨j, ⟨hj, he⟩, ?_⟩
    omega

theorem mem_bcstOffsets {kl : Nat} {en : Nat → Bool} {k : Nat} :
    k ∈ bcstOffsets kl en ↔ (∃ j < kl, en j = true) ∧ k < 4 := by
  unfold bcstOffsets
  have h : (List.range kl).any en = true ↔ ∃ j < kl, en j = true := by simp
  by_cases e : (List.range kl).any en = true
  · rw [if_pos e]
    simp only [List.mem_cons, List.not_mem_nil, or_false, h.1 e, true_and]
    omega
  · rw [if_neg e]
    simp only [List.not_mem_nil, false_iff, not_and]
    intro h'
    exact absurd (h.2 h') e

theorem byteAddr_add (addr : Word64) (m n : Nat) :
    byteAddr addr (m + n) = byteAddr addr m + BitVec.ofNat 64 n := by
  simp [byteAddr, BitVec.ofNat_add, BitVec.add_assoc]

/-- The four bytes of a lane that can be read pass every check of the map. -/
theorem LaneReadable.bytes {s : State} {addr : Word64} {off : Nat} {w : Lane} (h : LaneReadable s addr off w)
    {i : Nat} (hi : i < 4) :
    isCanonical (byteAddr addr (off + i)) = true ∧ unmappedAt s addr (off + i) = false := by
  obtain ⟨hc, hr⟩ := h
  refine ⟨hc i hi, ?_⟩
  obtain ⟨b0, b1, b2, b3, h0, h1, h2, h3, -⟩ := read32_eq_some.1 hr
  have : i = 0 ∨ i = 1 ∨ i = 2 ∨ i = 3 := by omega
  unfold unmappedAt
  rw [byteAddr_add]
  rcases this with rfl | rfl | rfl | rfl
  · simp [h0]
  · simp [h1]
  · simp [h2]
  · simp [h3]

/-! ### Readable sources pass their check -/

theorem vex_check_none {vl : VLen} {o : VexOperands} {s : State} {s3 : Nat → Lane} (h : VexSource vl o s s3) :
    vexOperandCheck vl o s = none := by
  unfold VexSource at h
  unfold vexOperandCheck
  cases hs : o.src3 with
  | reg r => rfl
  | mem m =>
    simp only [hs] at h
    have hb : ∀ k ∈ fullOffsets vl.lanes allLanes, ∃ j < vl.lanes, ∃ i < 4, k = 4 * j + i := by
      intro k hk
      obtain ⟨j, hj, -, i, hi, e⟩ := mem_fullOffsets.1 hk
      exact ⟨j, hj, i, hi, e⟩
    refine checkRead_none h.1 ?_ (by simp) ?_ <;>
    · intro k hk
      obtain ⟨j, hj, i, hi, rfl⟩ := hb k hk
      have := (h.2 j hj).bytes hi
      first | exact this.1 | exact this.2

theorem vexSrc3Lane_eq {vl : VLen} {o : VexOperands} {s : State} {s3 : Nat → Lane} (h : VexSource vl o s s3)
    {j : Nat} (hj : j < vl.lanes) : vexSrc3Lane o s j = s3 j := by
  unfold VexSource at h
  unfold vexSrc3Lane
  cases hs : o.src3 with
  | reg r => simp only [hs] at h; exact (h j hj).symm
  | mem m => simp only [hs] at h; simp [memLane, (h.2 j hj).2]

theorem evex_check_none {vl : VLen} {o : EvexOperands} {s : State} {s3 : Nat → Lane} (h : EvexSource vl o s s3) :
    evexOperandCheck vl o s = none := by
  unfold EvexSource at h
  unfold evexOperandCheck
  cases hs : o.src3 with
  | reg r => rfl
  | mem m =>
    simp only [hs] at h
    refine checkRead_none h.1 ?_ (by simp) ?_ <;>
    · intro k hk
      obtain ⟨j, hj, he, i, hi, rfl⟩ := mem_fullOffsets.1 hk
      have := (h.2 j hj he).bytes hi
      first | exact this.1 | exact this.2
  | bcst m =>
    simp only [hs] at h
    obtain ⟨hw, h⟩ := h
    refine checkRead_none hw ?_ ?_ ?_
    · intro k hk
      obtain ⟨he, hk⟩ := mem_bcstOffsets.1 hk
      obtain ⟨-, e, hr, -⟩ := h he
      simpa using (hr.bytes hk).1
    · intro _ hne hal
      obtain ⟨k, hk⟩ := List.exists_mem_of_ne_nil _ hne
      exact (h (mem_bcstOffsets.1 hk).1).1 hal
    · intro k hk
      obtain ⟨he, hk⟩ := mem_bcstOffsets.1 hk
      obtain ⟨-, e, hr, -⟩ := h he
      simpa using (hr.bytes hk).2

theorem evexSrc3Lane_eq {vl : VLen} {o : EvexOperands} {s : State} {s3 : Nat → Lane} (h : EvexSource vl o s s3)
    {j : Nat} (hj : j < vl.lanes) (he : enabled s o.f.aaa j = true) : evexSrc3Lane vl o s j = s3 j := by
  unfold EvexSource at h
  unfold evexSrc3Lane
  cases hs : o.src3 with
  | reg r => simp only [hs] at h; exact (h j hj he).symm
  | mem m => simp only [hs] at h; simp [memLane, (h.2 j hj he).2]
  | bcst m =>
    simp only [hs] at h
    obtain ⟨-, e, hr, h3⟩ := h.2 ⟨j, hj, he⟩
    have := hr.2
    simp [bcstLane, h3 j hj, byteAddr] at this ⊢
    simp [this]

/-! ### The packed computation -/

/-- Everything the packed computation can answer: one next state, or one exception that leaves the state
as it was but for flags of `MXCSR`. -/
theorem runPacked_cases (job : Job) (en : Nat → Bool) (d s2 : VReg) (s3 : Nat → Lane) (s : State) :
    (∃ m, OnlyFlagsSet s.mxcsr m ∧ (job.sae = true → m = s.mxcsr)
        ∧ runPacked job en d s2 s3 s
          = .next (((s.setMxcsr m).setVreg job.dest (packLanes job.kl (newLane job s en d s2 s3))).advance job.len))
    ∨ (∃ m, OnlyFlagsSet s.mxcsr m ∧ job.sae = false
        ∧ runPacked job en d s2 s3 s = takeException (if s.cr4OSXMMEXCPT then .xm else .ud) (s.setMxcsr m)) := by
  unfold runPacked
  dsimp only
  rcases packedFPReport_cases job.sae s.mxcsr (gatherFlags job.kl en fun j => (computeLane job s d s2 s3 j).pre)
    (gatherFlags job.kl en fun j => (computeLane job s d s2 s3 j).post) with
    ⟨h, e⟩ | ⟨h, -, e⟩ | ⟨h, -, -, e⟩ | ⟨h, -, -, e⟩ <;> rw [e]
  · exact .inl ⟨_, onlyFlagsSet_refl _, fun _ => rfl, rfl⟩
  · exact .inr ⟨_, onlyFlagsSet_setFlags _ _, h, rfl⟩
  · exact .inr ⟨_, onlyFlagsSet_setFlags _ _, h, rfl⟩
  · exact .inl ⟨_, onlyFlagsSet_setFlags _ _, by simp [h], rfl⟩

/-- Without suppression, when every flag of an enabled lane is masked, the lanes are delivered. -/
theorem runPacked_deliver {job : Job} {en : Nat → Bool} {d s2 : VReg} {s3 : Nat → Lane} {s : State}
    (hsae : job.sae = false)
    (h : ∀ j < job.kl, en j = true → Masked s.mxcsr (computeLane job s d s2 s3 j).pre
      ∧ Masked s.mxcsr (computeLane job s d s2 s3 j).post) :
    runPacked job en d s2 s3 s
      = .next (((s.setMxcsr (setFlags s.mxcsr (gatherFlags job.kl en fun j =>
            (computeLane job s d s2 s3 j).pre.union (computeLane job s d s2 s3 j).post))).setVreg job.dest
          (packLanes job.kl (newLane job s en d s2 s3))).advance job.len) := by
  have h1 := (masked_gather_iff s.mxcsr job.kl en fun j => (computeLane job s d s2 s3 j).pre).2
    fun j hj e => (h j hj e).1
  have h2 := (masked_gather_iff s.mxcsr job.kl en fun j => (computeLane job s d s2 s3 j).post).2
    fun j hj e => (h j hj e).2
  unfold runPacked
  dsimp only
  rcases packedFPReport_cases job.sae s.mxcsr (gatherFlags job.kl en fun j => (computeLane job s d s2 s3 j).pre)
    (gatherFlags job.kl en fun j => (computeLane job s d s2 s3 j).post) with
    ⟨h', e⟩ | ⟨-, h', e⟩ | ⟨-, -, h', e⟩ | ⟨-, -, -, e⟩
  · simp [hsae] at h'
  · exact absurd h1 h'
  · exact absurd h2 h'
  · rw [e, gather_union]

/-- An unmasked pre-computation flag: the exception, with the pre-computation flags alone. -/
theorem runPacked_trap_pre {job : Job} {en : Nat → Bool} {d s2 : VReg} {s3 : Nat → Lane} {s : State}
    (hsae : job.sae = false)
    (h : ∃ j < job.kl, en j = true ∧ ¬ Masked s.mxcsr (computeLane job s d s2 s3 j).pre) :
    runPacked job en d s2 s3 s = takeException (if s.cr4OSXMMEXCPT then .xm else .ud)
      (s.setMxcsr (setFlags s.mxcsr (gatherFlags job.kl en fun j => (computeLane job s d s2 s3 j).pre))) := by
  have h1 : ¬ Masked s.mxcsr (gatherFlags job.kl en fun j => (computeLane job s d s2 s3 j).pre) := by
    rw [masked_gather_iff]
    obtain ⟨j, hj, e, hn⟩ := h
    exact fun g => hn (g j hj e)
  unfold runPacked
  dsimp only
  rcases packedFPReport_cases job.sae s.mxcsr (gatherFlags job.kl en fun j => (computeLane job s d s2 s3 j).pre)
    (gatherFlags job.kl en fun j => (computeLane job s d s2 s3 j).post) with
    ⟨h', e⟩ | ⟨-, -, e⟩ | ⟨-, h', -, e⟩ | ⟨-, h', -, e⟩
  · simp [hsae] at h'
  · rw [e]
  · exact absurd h' h1
  · exact absurd h' h1

/-- No unmasked pre-computation flag but an unmasked post-computation flag: the exception, with all flags. -/
theorem runPacked_trap_post {job : Job} {en : Nat → Bool} {d s2 : VReg} {s3 : Nat → Lane} {s : State}
    (hsae : job.sae = false)
    (hp : ∀ j < job.kl, en j = true → Masked s.mxcsr (computeLane job s d s2 s3 j).pre)
    (h : ∃ j < job.kl, en j = true ∧ ¬ Masked s.mxcsr (computeLane job s d s2 s3 j).post) :
    runPacked job en d s2 s3 s = takeException (if s.cr4OSXMMEXCPT then .xm else .ud)
      (s.setMxcsr (setFlags s.mxcsr (gatherFlags job.kl en fun j =>
        (computeLane job s d s2 s3 j).pre.union (computeLane job s d s2 s3 j).post))) := by
  have h1 := (masked_gather_iff s.mxcsr job.kl en fun j => (computeLane job s d s2 s3 j).pre).2 hp
  have h2 : ¬ Masked s.mxcsr (gatherFlags job.kl en fun j => (computeLane job s d s2 s3 j).post) := by
    rw [masked_gather_iff]
    obtain ⟨j, hj, e, hn⟩ := h
    exact fun g => hn (g j hj e)
  unfold runPacked
  dsimp only
  rcases packedFPReport_cases job.sae s.mxcsr (gatherFlags job.kl en fun j => (computeLane job s d s2 s3 j).pre)
    (gatherFlags job.kl en fun j => (computeLane job s d s2 s3 j).post) with
    ⟨h', e⟩ | ⟨-, h', e⟩ | ⟨-, -, h', e⟩ | ⟨-, -, h', e⟩
  · simp [hsae] at h'
  · exact absurd h1 h'
  · rw [e, gather_union]
  · exact absurd h' h2

/-- Under suppression the lanes are always delivered and `MXCSR` is left alone (rule R149). -/
theorem runPacked_sae {job : Job} {en : Nat → Bool} {d s2 : VReg} {s3 : Nat → Lane} {s : State}
    (hsae : job.sae = true) :
    runPacked job en d s2 s3 s
      = .next ((s.setVreg job.dest (packLanes job.kl (newLane job s en d s2 s3))).advance job.len) := by
  simp only [runPacked, packedFPReport, hsae, if_true]
  rfl

end Sys2Proof.Machine
end

