-- ==== Sys2Proof/Laws/Exec.lean ====
section
/-!
SUPPORT. The meanings: which packed computation a row comes to once its checks pass, and, for every row,
everything `exec` can answer.
-/

namespace Sys2Proof.Machine

/-! ### The three kinds of rows -/

theorem instr_cases (i : Instr) :
    (∃ f l o, i = vexInstr f l o) ∨ (∃ f l' l o, i = evexInstr f l' l o) ∨ (∃ f o, i = evexErInstr f o) := by
  cases i with
  | vfnmsub132psVex128 o => exact .inl ⟨.f132, false, o, rfl⟩
  | vfnmsub213psVex128 o => exact .inl ⟨.f213, false, o, rfl⟩
  | vfnmsub231psVex128 o => exact .inl ⟨.f231, false, o, rfl⟩
  | vfnmsub132psVex256 o => exact .inl ⟨.f132, true, o, rfl⟩
  | vfnmsub213psVex256 o => exact .inl ⟨.f213, true, o, rfl⟩
  | vfnmsub231psVex256 o => exact .inl ⟨.f231, true, o, rfl⟩
  | vfnmsub132psEvex128 o => exact .inr (.inl ⟨.f132, false, false, o, rfl⟩)
  | vfnmsub213psEvex128 o => exact .inr (.inl ⟨.f213, false, false, o, rfl⟩)
  | vfnmsub231psEvex128 o => exact .inr (.inl ⟨.f231, false, false, o, rfl⟩)
  | vfnmsub132psEvex256 o => exact .inr (.inl ⟨.f132, false, true, o, rfl⟩)
  | vfnmsub213psEvex256 o => exact .inr (.inl ⟨.f213, false, true, o, rfl⟩)
  | vfnmsub231psEvex256 o => exact .inr (.inl ⟨.f231, false, true, o, rfl⟩)
  | vfnmsub132psEvex512 l o => exact .inr (.inl ⟨.f132, true, l, o, by cases l <;> rfl⟩)
  | vfnmsub213psEvex512 l o => exact .inr (.inl ⟨.f213, true, l, o, by cases l <;> rfl⟩)
  | vfnmsub231psEvex512 l o => exact .inr (.inl ⟨.f231, true, l, o, by cases l <;> rfl⟩)
  | vfnmsub132psEvex512er o => exact .inr (.inr ⟨.f132, o, rfl⟩)
  | vfnmsub213psEvex512er o => exact .inr (.inr ⟨.f213, o, rfl⟩)
  | vfnmsub231psEvex512er o => exact .inr (.inr ⟨.f231, o, rfl⟩)

theorem exec_vexInstr (f : Form) (l : Bool) (o : VexOperands) (s : State) :
    exec (vexInstr f l o) s = vexFnmsub f (if l then .l256 else .l128) o s := by
  cases f <;> cases l <;> rfl

theorem exec_evexInstr (f : Form) (l' l : Bool) (o : EvexOperands) (s : State) :
    exec (evexInstr f l' l o) s
      = evexFnmsub f (if l' then .l512 else if l then .l256 else .l128) (l' && l) o s := by
  cases f <;> cases l' <;> cases l <;> rfl

theorem exec_evexErInstr (f : Form) (o : EvexErOperands) (s : State) :
    exec (evexErInstr f o) s = evexErFnmsub f o s := by
  cases f <;> rfl

@[simp] theorem vexInstr_length (f : Form) (l : Bool) (o : VexOperands) :
    (vexInstr f l o).length = o.length := by
  cases f <;> cases l <;> rfl

@[simp] theorem evexInstr_length (f : Form) (l' l : Bool) (o : EvexOperands) :
    (evexInstr f l' l o).length = o.length := by
  cases f <;> cases l' <;> cases l <;> rfl

@[simp] theorem evexErInstr_length (f : Form) (o : EvexErOperands) :
    (evexErInstr f o).length = o.length := by
  cases f <;> rfl

/-! ### Rows whose checks pass -/

theorem vexFnmsub_ready {form : Form} {vl : VLen} {o : VexOperands} {s : State} {s3 : Nat → Lane}
    (hr : VexReady o s) (hs : VexSource vl o s s3) :
    vexFnmsub form vl o s
      = runPacked (vexJob form vl o s) allLanes (s.vreg (vexReg o.dest)) (s.vreg (vexReg o.src2))
          (vexSrc3Lane o s) s := by
  simp [vexFnmsub, vex_gate_none hr, vex_check_none hs, unlessStopped]

theorem evexFnmsub_ready {form : Form} {vl : VLen} {o : EvexOperands} {s : State} {s3 : Nat → Lane}
    (hr : EvexReady vl o.f o.length s) (hs : EvexSource vl o s s3) :
    evexFnmsub form vl false o s
      = runPacked (evexJob form vl o s) (enabled s o.f.aaa) (s.vreg o.f.dest) (s.vreg o.f.src2)
          (evexSrc3Lane vl o s) s := by
  simp [evexFnmsub, evex_gate_none hr, evex_check_none hs, unlessStopped]

theorem evexErFnmsub_ready {form : Form} {o : EvexErOperands} {s : State}
    (hr : EvexReady .l512 o.f o.length s) :
    evexErFnmsub form o s
      = runPacked (evexErJob form o) (enabled s o.f.aaa) (s.vreg o.f.dest) (s.vreg o.f.src2)
          (fun j => lane (s.vreg o.src3) j) s := by
  simp [evexErFnmsub, evex_gate_none hr, unlessStopped]

theorem vlen_lanes_le (vl : VLen) : vl.lanes ≤ 16 := by cases vl <;> decide

/-! ### The state a completed row leaves -/

/-- The state every completed row leaves: a new `MXCSR`, a new destination register, `RIP` moved. -/
def after (s : State) (m : BitVec 32) (dest : BitVec 5) (kl : Nat) (f : Nat → Lane) (len : Nat) : State :=
  ((s.setMxcsr m).setVreg dest (packLanes kl f)).advance len

theorem after_frame (s : State) (m : BitVec 32) (dest : BitVec 5) {kl : Nat} (f : Nat → Lane) (len : Nat) :
    Frame s (after s m dest kl f len) dest len kl := by
  refine ⟨fun b hb => ?_, fun r hr => ?_, rfl, ?_, ⟨rfl, rfl, rfl⟩, fun _ => rfl⟩
  · simp [after, packLanes_high f hb]
  · simp [after, setVreg_vreg_other _ _ hr]
  · exact ⟨rfl, rfl, rfl, rfl, rfl, rfl, rfl, rfl, rfl, rfl, rfl, rfl⟩

@[simp] theorem after_mxcsr (s : State) (m : BitVec 32) (dest : BitVec 5) (kl : Nat) (f : Nat → Lane)
    (len : Nat) : (after s m dest kl f len).mxcsr = m := rfl

@[simp] theorem after_rip (s : State) (m : BitVec 32) (dest : BitVec 5) (kl : Nat) (f : Nat → Lane)
    (len : Nat) : (after s m dest kl f len).rip = s.rip + BitVec.ofNat 64 len := rfl

theorem after_lane (s : State) (m : BitVec 32) (dest : BitVec 5) {kl : Nat} (hkl : kl ≤ 16) (f : Nat → Lane)
    (len : Nat) {j : Nat} (hj : j < kl) : lane ((after s m dest kl f len).vreg dest) j = f j := by
  simp [after, lane_packLanes f hj hkl]

/-! ### Everything a row can answer -/

/-- What an instruction can answer: a next state that differs in one vector register, in flags of
`MXCSR` and in `RIP`; a fault that leaves the state as it was, or as it was but for flags of `MXCSR`; or one
of two refusals. -/
def Answers (s : State) (len : Nat) (vl : VLen) (r : Result) : Prop :=
  (∃ m dest f, OnlyFlagsSet s.mxcsr m ∧ r = .next (after s m dest vl.lanes f len))
    ∨ (∃ c, c ≠ .xm ∧ r = takeException c s)
    ∨ (∃ m, OnlyFlagsSet s.mxcsr m
        ∧ r = takeException (if s.cr4OSXMMEXCPT then .xm else .ud) (s.setMxcsr m))
    ∨ r = refuse .unsupportedMode s ∨ r = refuse .operandWraps s

theorem answers_gate {s : State} {len : Nat} {vl : VLen} {e c : Bool} {go : Result}
    (h : gate s len e c = none → Answers s len vl go) :
    Answers s len vl (unlessStopped (gate s len e c) s go) := by
  rcases gate_cases s len e c with ⟨-, g⟩ | ⟨-, -, g⟩ | ⟨-, -, -, g⟩ | ⟨-, -, -, -, g⟩ | ⟨-, -, -, -, g⟩ <;> rw [g]
  · exact .inr (.inr (.inr (.inl rfl)))
  · exact .inr (.inl ⟨.gp, by simp, rfl⟩)
  · exact .inr (.inl ⟨.ud, by simp, rfl⟩)
  · exact .inr (.inl ⟨.nm, by simp, rfl⟩)
  · exact h g

theorem answers_checkRead {s : State} {len : Nat} {vl : VLen} {addr : Word64} {size : Nat}
    {offs : List Nat} {stack al : Bool} {go : Result}
    (h : checkRead s addr size offs stack al = none → Answers s len vl go) :
    Answers s len vl (unlessStopped (checkRead s addr size offs stack al) s go) := by
  rcases checkRead_cases s addr size offs stack al with
    ⟨-, g⟩ | ⟨-, -, g⟩ | ⟨-, -, -, -, -, -, g⟩ | ⟨-, -, -, k, -, g⟩ | ⟨-, -, -, -, g⟩ <;> rw [g]
  · exact .inr (.inr (.inr (.inr rfl)))
  · exact .inr (.inl ⟨if stack then .ss else .gp, by cases stack <;> simp, rfl⟩)
  · exact .inr (.inl ⟨.ac, by simp, rfl⟩)
  · exact .inr (.inl ⟨.pf (byteAddr addr k) false, by simp, rfl⟩)
  · exact h g

theorem answers_runPacked {job : Job} {en : Nat → Bool} {d s2 : VReg} {s3 : Nat → Lane} {s : State}
    {vl : VLen} {len : Nat} (hk : job.kl = vl.lanes) (hl : job.len = len) :
    Answers s len vl (runPacked job en d s2 s3 s) := by
  rcases runPacked_cases job en d s2 s3 s with ⟨m, hm, -, e⟩ | ⟨m, hm, -, e⟩
  · exact .inl ⟨m, job.dest, newLane job s en d s2 s3, hm, by rw [e, hk, hl]; rfl⟩
  · exact .inr (.inr (.inl ⟨m, hm, e⟩))

theorem answers_vex (form : Form) (vl : VLen) (o : VexOperands) (s : State) :
    Answers s o.length vl (vexFnmsub form vl o s) := by
  refine answers_gate fun _ => ?_
  unfold vexOperandCheck
  cases o.src3 with
  | reg r => exact answers_runPacked rfl rfl
  | mem m => exact answers_checkRead fun _ => answers_runPacked rfl rfl

theorem answers_evex (form : Form) (vl : VLen) (l : Bool) (o : EvexOperands) (s : State) :
    Answers s o.length vl (evexFnmsub form vl l o s) := by
  refine answers_gate fun _ => ?_
  unfold evexOperandCheck
  cases o.src3 with
  | reg r => exact answers_runPacked rfl rfl
  | mem m => exact answers_checkRead fun _ => answers_runPacked rfl rfl
  | bcst m => exact answers_checkRead fun _ => answers_runPacked rfl rfl

theorem answers_er (form : Form) (o : EvexErOperands) (s : State) :
    Answers s o.length .l512 (evexErFnmsub form o s) :=
  answers_gate fun _ => answers_runPacked rfl rfl

/-- The vector length of a row (rule R7). -/
def rowLength : Instr → VLen
  | .vfnmsub132psVex128 _ | .vfnmsub213psVex128 _ | .vfnmsub231psVex128 _ => .l128
  | .vfnmsub132psVex256 _ | .vfnmsub213psVex256 _ | .vfnmsub231psVex256 _ => .l256
  | .vfnmsub132psEvex128 _ | .vfnmsub213psEvex128 _ | .vfnmsub231psEvex128 _ => .l128
  | .vfnmsub132psEvex256 _ | .vfnmsub213psEvex256 _ | .vfnmsub231psEvex256 _ => .l256
  | .vfnmsub132psEvex512 _ _ | .vfnmsub213psEvex512 _ _ | .vfnmsub231psEvex512 _ _ => .l512
  | .vfnmsub132psEvex512er _ | .vfnmsub213psEvex512er _ | .vfnmsub231psEvex512er _ => .l512

/-- Everything `exec` can answer, whatever the instruction and the state. -/
theorem exec_answers (i : Instr) (s : State) : Answers s i.length (rowLength i) (exec i s) := by
  cases i <;> first | exact answers_vex _ _ _ _ | exact answers_evex _ _ _ _ _ | exact answers_er _ _ _

/-- A next state of `exec`. -/
theorem exec_next {i : Instr} {s t : State} (h : exec i s = .next t) :
    ∃ m dest f, OnlyFlagsSet s.mxcsr m ∧ t = after s m dest (rowLength i).lanes f i.length := by
  rcases exec_answers i s with ⟨m, dest, f, hm, e⟩ | ⟨c, -, e⟩ | ⟨m, -, e⟩ | e | e <;> rw [e] at h
  · exact ⟨m, dest, f, hm, (Host.Outcome.next.inj h).symm⟩
  all_goals simp [takeException, refuse] at h

/-- A fault of `exec`: nothing has changed, but for flags of `MXCSR` after a SIMD floating-point exception
(rule R238). -/
theorem exec_fault {i : Instr} {s : State} {f : Fault} (h : exec i s = .fault f) :
    (∃ c, c ≠ .xm ∧ f = faultOf c s)
      ∨ ∃ m, OnlyFlagsSet s.mxcsr m ∧ f = faultOf (if s.cr4OSXMMEXCPT then .xm else .ud) (s.setMxcsr m) := by
  rcases exec_answers i s with ⟨m, dest, g, hm, e⟩ | ⟨c, hc, e⟩ | ⟨m, hm, e⟩ | e | e <;> rw [e] at h
  · simp at h
  · exact .inl ⟨c, hc, (Host.Outcome.fault.inj h).symm⟩
  · exact .inr ⟨m, hm, (Host.Outcome.fault.inj h).symm⟩
  all_goals simp [refuse] at h

/-- A refusal of `exec`, with the state it is asked in (rule R269 b). -/
theorem exec_refused {i : Instr} {s : State} {r : Refusal} (h : exec i s = .refused r) :
    r = .unsupportedMode s ∨ r = .operandWraps s := by
  rcases exec_answers i s with ⟨m, dest, g, -, e⟩ | ⟨c, -, e⟩ | ⟨m, -, e⟩ | e | e <;> rw [e] at h
  · simp at h
  · simp [takeException] at h
  · simp [takeException] at h
  · exact .inl (Host.Outcome.refused.inj h).symm
  · exact .inr (Host.Outcome.refused.inj h).symm

end Sys2Proof.Machine
end

