-- ==== Sys2Proof/Laws/PerInstr.lean ====
section
/-!
SUPPORT. The family of per-instruction facts: an instruction's encoding has the length rule R102 gives it
(30_encoding.md).
-/

namespace Sys2Proof.Laws.EncodeLength

/-- The encoding of the instruction is as many bytes as its length says (rule R102). -/
def Statement (i : Instr) : Prop := (encode i).length = i.length

theorem vfnmsub132psVex128 (o : VexOperands) : Statement (.vfnmsub132psVex128 o) := encodeVex_length _ _ o
theorem vfnmsub213psVex128 (o : VexOperands) : Statement (.vfnmsub213psVex128 o) := encodeVex_length _ _ o
theorem vfnmsub231psVex128 (o : VexOperands) : Statement (.vfnmsub231psVex128 o) := encodeVex_length _ _ o
theorem vfnmsub132psVex256 (o : VexOperands) : Statement (.vfnmsub132psVex256 o) := encodeVex_length _ _ o
theorem vfnmsub213psVex256 (o : VexOperands) : Statement (.vfnmsub213psVex256 o) := encodeVex_length _ _ o
theorem vfnmsub231psVex256 (o : VexOperands) : Statement (.vfnmsub231psVex256 o) := encodeVex_length _ _ o
theorem vfnmsub132psEvex128 (o : EvexOperands) : Statement (.vfnmsub132psEvex128 o) := encodeEvexPlain_length _ _ o
theorem vfnmsub213psEvex128 (o : EvexOperands) : Statement (.vfnmsub213psEvex128 o) := encodeEvexPlain_length _ _ o
theorem vfnmsub231psEvex128 (o : EvexOperands) : Statement (.vfnmsub231psEvex128 o) := encodeEvexPlain_length _ _ o
theorem vfnmsub132psEvex256 (o : EvexOperands) : Statement (.vfnmsub132psEvex256 o) := encodeEvexPlain_length _ _ o
theorem vfnmsub213psEvex256 (o : EvexOperands) : Statement (.vfnmsub213psEvex256 o) := encodeEvexPlain_length _ _ o
theorem vfnmsub231psEvex256 (o : EvexOperands) : Statement (.vfnmsub231psEvex256 o) := encodeEvexPlain_length _ _ o
theorem vfnmsub132psEvex512 (l : Bool) (o : EvexOperands) : Statement (.vfnmsub132psEvex512 l o) := encodeEvexPlain_length _ _ o
theorem vfnmsub213psEvex512 (l : Bool) (o : EvexOperands) : Statement (.vfnmsub213psEvex512 l o) := encodeEvexPlain_length _ _ o
theorem vfnmsub231psEvex512 (l : Bool) (o : EvexOperands) : Statement (.vfnmsub231psEvex512 l o) := encodeEvexPlain_length _ _ o
theorem vfnmsub132psEvex512er (o : EvexErOperands) : Statement (.vfnmsub132psEvex512er o) := encodeEvexEr_length _ o
theorem vfnmsub213psEvex512er (o : EvexErOperands) : Statement (.vfnmsub213psEvex512er o) := encodeEvexEr_length _ o
theorem vfnmsub231psEvex512er (o : EvexErOperands) : Statement (.vfnmsub231psEvex512er o) := encodeEvexEr_length _ o

end Sys2Proof.Laws.EncodeLength
end

