-- ==== Sys2Proof/Laws/Step.lean ====
section
/-!
SUPPORT. One step: what it can answer, what the fetch window holds, and the state of a launch.
-/

namespace Sys2Proof.Machine

/-! ### Launch checks -/

theorem launchRefusal_none_iff (s : State) :
    launchRefusal s = none
      ↔ s.mode = .bits64 ∧ mxcsrReservedBits s.mxcsr = 0#16 ∧ s.mem.device = [] := by
  unfold launchRefusal
  by_cases h1 : s.mode = .bits64 <;> by_cases h2 : mxcsrReservedBits s.mxcsr = 0#16 <;>
    by_cases h3 : s.mem.device = [] <;> simp [h1, h2, h3]

theorem fetchAddress_bits64 {s : State} (h : s.mode = .bits64) : fetchAddress s = s.rip := by
  simp [fetchAddress, h]

/-! ### The fetch window -/

/-- When the first `n` addresses from `a` on are canonical and none but the last is the top of the address
space, the window starts with the first `n` bytes. -/
theorem fetchWindow_take {n : Nat} :
    ∀ {a : Word64} {bs : Bytes}, n ≤ bs.length → a.toNat + n ≤ 2 ^ 64 →
      (∀ k < n, isCanonical (byteAddr a k) = true) → ∃ rest, (fetchWindow a bs).1 = bs.take n ++ rest := by
  induction n with
  | zero => intro a bs _ _ _; exact ⟨(fetchWindow a bs).1, by simp⟩
  | succ n ih =>
    intro a bs hl hw hc
    cases bs with
    | nil => simp at hl
    | cons b bs =>
      have h0 : isCanonical a = true := by simpa [byteAddr] using hc 0 (by omega)
      unfold fetchWindow
      simp only [h0, Bool.not_true, Bool.false_eq_true, if_false]
      by_cases htop : a = 0xFFFFFFFFFFFFFFFF#64
      · have : n = 0 := by subst htop; simp at hw; omega
        subst this
        exact ⟨[], by simp [htop]⟩
      · simp only [htop, if_false]
        have hlt : a.toNat + 1 < 2 ^ 64 := by
          have h1 := a.isLt
          have h2 : a.toNat ≠ 2 ^ 64 - 1 := fun e => htop (BitVec.eq_of_toNat_eq (by simpa using e))
          omega
        have hn : (a + 1#64).toNat = a.toNat + 1 := by
          rw [BitVec.toNat_add]; simp; omega
        obtain ⟨rest, hr⟩ := ih (a := a + 1#64) (bs := bs) (by simpa using hl) (by omega) (fun k hk => by
          have := hc (k + 1) (by omega)
          rw [Nat.add_comm k 1, byteAddr_add] at this
          simpa [byteAddr] using this)
        exact ⟨rest, by simp [hr]⟩

/-- When every byte is at a canonical address below the top, the window is all of them. -/
theorem fetchWindow_all :
    ∀ {bs : Bytes} {a : Word64}, a.toNat + bs.length < 2 ^ 64 →
      (∀ k < bs.length, isCanonical (byteAddr a k) = true) → fetchWindow a bs = (bs, .programEnd)
  | [], _, _, _ => rfl
  | b :: bs, a, hw, hc => by
    have h0 : isCanonical a = true := by simpa [byteAddr] using hc 0 (by simp)
    unfold fetchWindow
    simp only [h0, Bool.not_true, Bool.false_eq_true, if_false]
    by_cases htop : a = 0xFFFFFFFFFFFFFFFF#64
    · subst htop; simp at hw; omega
    · have hlt : a.toNat + 1 < 2 ^ 64 := by
        have h1 := a.isLt
        have h2 : a.toNat ≠ 2 ^ 64 - 1 := fun e => htop (BitVec.eq_of_toNat_eq (by simpa using e))
        omega
      have hn : (a + 1#64).toNat = a.toNat + 1 := by
        rw [BitVec.toNat_add]; simp; omega
      rw [fetchWindow_all (a := a + 1#64) (by simp at hw; omega) (fun k hk => by
        have := hc (k + 1) (by simp; omega)
        rw [Nat.add_comm k 1, byteAddr_add] at this
        simpa [byteAddr] using this)]
      simp [htop]

/-- The window stops at the top of the address space. -/
theorem fetchWindow_top {n : Nat} :
    ∀ {bs : Bytes} {a : Word64}, n < bs.length → a.toNat + n + 1 = 2 ^ 64 →
      (∀ k < n + 1, isCanonical (byteAddr a k) = true) → fetchWindow a bs = (bs.take (n + 1), .wraps) := by
  induction n with
  | zero =>
    intro bs a hl hw hc
    cases bs with
    | nil => simp at hl
    | cons b bs =>
      have h0 : isCanonical a = true := by simpa [byteAddr] using hc 0 (by omega)
      have htop : a = 0xFFFFFFFFFFFFFFFF#64 := BitVec.eq_of_toNat_eq (by simp; omega)
      unfold fetchWindow
      simp only [h0, Bool.not_true, Bool.false_eq_true, if_false]
      simp [htop]
  | succ n ih =>
    intro bs a hl hw hc
    cases bs with
    | nil => simp at hl
    | cons b bs =>
      have h0 : isCanonical a = true := by simpa [byteAddr] using hc 0 (by omega)
      have htop : a ≠ 0xFFFFFFFFFFFFFFFF#64 := by rintro rfl; simp at hw
      have hn' : (a + 1#64).toNat = a.toNat + 1 := by rw [BitVec.toNat_add]; simp; omega
      have hsh : ∀ k, byteAddr a (k + 1) = byteAddr (a + 1#64) k := by
        intro k; rw [Nat.add_comm, byteAddr_add]; simp [byteAddr]
      have := ih (bs := bs) (a := a + 1#64) (by simpa using hl) (by omega)
        (fun k hk => by rw [← hsh]; exact hc (k + 1) (by omega))
      simp [fetchWindow, h0, htop, this]

/-- The window stops before the first non-canonical address. -/
theorem fetchWindow_nonCanonical {n : Nat} :
    ∀ {bs : Bytes} {a : Word64}, n < bs.length → a.toNat + n < 2 ^ 64 →
      (∀ k < n, isCanonical (byteAddr a k) = true) → isCanonical (byteAddr a n) = false →
      fetchWindow a bs = (bs.take n, .nonCanonical) := by
  induction n with
  | zero =>
    intro bs a hl _ _ hc
    cases bs with
    | nil => simp at hl
    | cons b bs =>
      have : isCanonical a = false := by simpa [byteAddr] using hc
      simp [fetchWindow, this]
  | succ n ih =>
    intro bs a hl hw hc hn
    cases bs with
    | nil => simp at hl
    | cons b bs =>
      have h0 : isCanonical a = true := by simpa [byteAddr] using hc 0 (by omega)
      have htop : a ≠ 0xFFFFFFFFFFFFFFFF#64 := by rintro rfl; simp at hw; omega
      have hn' : (a + 1#64).toNat = a.toNat + 1 := by
        have h2 : a.toNat ≠ 2 ^ 64 - 1 := fun e => htop (BitVec.eq_of_toNat_eq (by simpa using e))
        rw [BitVec.toNat_add]; simp; omega
      have hsh : ∀ k, byteAddr a (k + 1) = byteAddr (a + 1#64) k := by
        intro k; rw [Nat.add_comm, byteAddr_add]; simp [byteAddr]
      have := ih (bs := bs) (a := a + 1#64) (by simpa using hl) (by omega)
        (fun k hk => by rw [← hsh]; exact hc (k + 1) (by omega)) (by rw [← hsh]; exact hn)
      simp [fetchWindow, h0, htop, this]

/-- The window is a beginning of the bytes. -/
theorem fetchWindow_prefix : ∀ (bs : Bytes) (a : Word64), ∃ n, (fetchWindow a bs).1 = bs.take n
  | [], _ => ⟨0, rfl⟩
  | b :: bs, a => by
    unfold fetchWindow
    split_ifs
    · exact ⟨0, rfl⟩
    · exact ⟨1, by simp⟩
    · obtain ⟨n, hn⟩ := fetchWindow_prefix bs (a + 1#64)
      exact ⟨n + 1, by simp [hn]⟩

/-! ### What a step can answer -/

/-- A step that answers anything but a refusal of the state runs `exec` on a fetched instruction or stops in
the fetch. -/
theorem step_cases (s : State) :
    (∃ c, launchRefusal s = some c ∧ step s = refuse c s)
    ∨ (launchRefusal s = none ∧ ∃ i, fetch s = .instr i ∧ step s = exec i s)
    ∨ (launchRefusal s = none ∧ ∃ st, fetch s = .stop st ∧ step s = st.result s) := by
  unfold step
  cases h : launchRefusal s with
  | some c => exact .inl ⟨c, rfl, rfl⟩
  | none =>
    cases h' : fetch s with
    | instr i => exact .inr (.inl ⟨rfl, i, rfl, rfl⟩)
    | stop st => exact .inr (.inr ⟨rfl, st, rfl, rfl⟩)

/-- A next state of a step comes from the fetched instruction. -/
theorem step_next {s t : State} (h : step s = .next t) :
    launchRefusal s = none ∧ ∃ i, fetch s = .instr i ∧ exec i s = .next t := by
  rcases step_cases s with ⟨c, -, e⟩ | ⟨hl, i, hf, e⟩ | ⟨-, st, -, e⟩ <;> rw [e] at h
  · simp [refuse] at h
  · exact ⟨hl, i, hf, h⟩
  · cases st <;> simp [Stop.result, takeException, refuse] at h

/-- What the program bytes from the fetch address on are. -/
theorem programFrom_eq_some {s : State} {bs : Bytes} :
    programFrom s = some bs ↔ (fetchAddress s - s.prog.base).toNat ≤ s.prog.bytes.length
      ∧ bs = s.prog.bytes.drop (fetchAddress s - s.prog.base).toNat := by
  unfold programFrom
  dsimp only
  split
  · next h => simp only [Option.some.injEq, h, true_and]; exact eq_comm
  · next h => exact ⟨fun e => absurd e (by simp), fun e => absurd e.1 h⟩

/-- Everything that can become of an instruction that fifteen bytes do not complete: `#GP(0)`, or one of
four refusals. -/
theorem decideLong_cases (w : Bytes × FetchLimit) :
    decideLong w = .raise .gp ∨ decideLong w = .refuse .notOfGroup ∨ decideLong w = .refuse .prefixCombination
      ∨ decideLong w = .refuse .instructionWraps ∨ decideLong w = .refuse .truncatedProgram := by
  unfold decideLong cutOff
  cases w.2 <;> (split <;> simp)

/-- A fetch inside the program decodes the fetchable ones of at most fifteen bytes. -/
theorem fetch_of_bytes {s : State} {bs : Bytes} (h : programFrom s = some bs) (hne : bs ≠ []) :
    fetch s = decodeFetched (fetchWindow (fetchAddress s) (bs.take maxFetch)) (fetchWindow (fetchAddress s) bs) := by
  cases bs with
  | nil => exact absurd rfl hne
  | cons b bs => simp [fetch, h]

/-- A fetched instruction is decoded from the program bytes that can be fetched, at most fifteen. -/
theorem fetch_instr {s : State} {i : Instr} (h : fetch s = .instr i) :
    ∃ bs rest, programFrom s = some bs ∧ bs ≠ []
      ∧ decode (fetchWindow (fetchAddress s) (bs.take maxFetch)).1 = .ok (i, rest) := by
  unfold fetch at h
  split at h
  · simp at h
  · next bs hp hne =>
    unfold decodeFetched at h
    split at h
    · next j rest hd =>
      exact ⟨bs, rest, hne, hp, by rw [hd]; injection h with h; rw [h]⟩
    all_goals simp at h
  · simp at h

/-! ### Runs -/

theorem core_run_succ (M : Host.Core) (k : Nat) (s : M.State) :
    M.run (k + 1) s = match M.step s with
      | .next s' => M.run k s'
      | .fault r => .fault r
      | .refused r => .refused r := by
  cases h : M.step s <;> simp [Host.Core.run, h]

theorem run_next {k : Nat} {s s' : State} (h : step s = .next s') :
    Sys2Proof.core.run (k + 1) s = Sys2Proof.core.run k s' := by
  refine (core_run_succ Sys2Proof.core k s).trans ?_
  have h' : Sys2Proof.core.step s = .next s' := h
  rw [h']

theorem run_fault {k : Nat} {s : State} {f : Fault} (h : step s = .fault f) :
    Sys2Proof.core.run (k + 1) s = .fault f := by
  refine (core_run_succ Sys2Proof.core k s).trans ?_
  have h' : Sys2Proof.core.step s = .fault f := h
  rw [h']

theorem run_refused {k : Nat} {s : State} {r : Refusal} (h : step s = .refused r) :
    Sys2Proof.core.run (k + 1) s = .refused r := by
  refine (core_run_succ Sys2Proof.core k s).trans ?_
  have h' : Sys2Proof.core.step s = .refused r := h
  rw [h']

/-- A run that takes a step and completes takes it to a next state. -/
theorem run_succ_next {k : Nat} {s t : State} (h : Sys2Proof.core.run (k + 1) s = .next t) :
    ∃ s', step s = .next s' ∧ Sys2Proof.core.run k s' = .next t := by
  cases hs : step s with
  | next s' => exact ⟨s', rfl, by rw [← run_next hs]; exact h⟩
  | fault f => rw [run_fault hs] at h; simp at h
  | refused r => rw [run_refused hs] at h; simp at h

/-! ### The launch -/

theorem launch_mode (s : State) (bs : Bytes) : (s.launch bs).mode = .bits64 := by
  unfold State.launch
  split
  · next h => exact h
  · simp [State.mode, State.cr0PE, State.rflagsVM]

theorem launch_rip (s : State) (bs : Bytes) : (s.launch bs).rip = s.rip := by
  unfold State.launch; split <;> rfl

/-- A launch leaves the map with the program's bytes in it, and nothing else of it changed (rule R50). -/
theorem launch_mem (s : State) (bs : Bytes) : (s.launch bs).mem = s.mem.withProgram ⟨s.rip, bs⟩ := by
  unfold State.launch; split <;> rfl

theorem launch_prog (s : State) (bs : Bytes) : (s.launch bs).prog = ⟨s.rip, bs⟩ := by
  unfold State.launch; split <;> rfl

end Sys2Proof.Machine
end

