-- ==== Sys2Proof/Tests/Slice0.lean ====
section
/-!
SUPPORT. Small tests: ill-formed terms, decoded words, the lane vectors of 95_test_vectors.md, one or two
steps per instruction, and for every obligation with hypotheses a concrete state and operands that meet
them (the theorems `witness_…`).
-/

namespace Sys2Proof.Tests

open Sys2Proof Sys2Proof.Machine

set_option Elab.async false

/-! ### Helpers -/

/-- A vector of sixteen equal lanes. -/
def splat (w : Lane) : VReg := packLanes 16 fun _ => w

/-- No prefix. -/
def noPre : Prefixes := ⟨[], []⟩

/-- Sixteen lanes of 3.0 from `10000000h` on. -/
def threes : List Host.Cell :=
  (List.range 64).map fun k => (0x10000000 + k, if k % 4 = 3 then 0x40#8 else if k % 4 = 2 then 0x40#8 else 0#8)

/-- A launched machine with `V[1] = a`, `V[2] = b`, `V[3] = c` in every lane, `x[0] = 10000000h`,
`x[4] = 0000800000000000h`, `K[1] = FFF5h`. -/
def machine (a b c : Lane) (mx : BitVec 32) : State :=
  { State.reset.launch [] with
    rip := 0x20000000#64
    mxcsr := mx
    v := (((Vector.replicate 32 0#512).set 1 (splat a)).set 2 (splat b)).set 3 (splat c)
    x := (((Vector.replicate 16 0#64).set 0 0x10000000#64).set 4 0x0000800000000000#64).set 6
      0xFFFFFFFFFFFFFFF8#64
    k := (Vector.replicate 8 0#64).set 1 0xFFF5#64
    mem := { cells := threes, pBit := false, rsvdBit := false, device := [] } }

/-- `V[1] = 2.0`, `V[2] = 4.0`, `V[3] = 3.0`, every exception masked. -/
def s0 : State := machine 0x40000000#32 0x40800000#32 0x40400000#32 0x1F80#32

/-- The third of 1.0, rounded, in all three registers: every form is inexact. -/
def sInexact (mx : BitVec 32) : State := machine 0x3EAAAAAB#32 0x3EAAAAAB#32 0x3EAAAAAB#32 mx

/-- A signalling NaN in all three registers: every form is invalid. -/
def sInvalid (mx : BitVec 32) : State := machine 0x7F812345#32 0x7F812345#32 0x7F812345#32 mx

/-- `xmm1, xmm2, xmm3` and the like. -/
def oReg : VexOperands := ⟨noPre, 1, 2, .reg 3⟩

/-- A memory `SRC3` of a VEX row. -/
def oMem (m : MemForm) : VexOperands := ⟨noPre, 1, 2, .mem m⟩

/-- The fields of an EVEX row with destination 1, second source 2. -/
def fields (z : Bool) (aaa : BitVec 3) : EvexFields := ⟨noPre, false, true, z, aaa, 1, 2⟩

/-- An EVEX row with register 3 as `SRC3`. -/
def eReg (z : Bool) (aaa : BitVec 3) : EvexOperands := ⟨fields z aaa, .reg 3⟩

/-- An EVEX row with a full-width memory `SRC3`. -/
def eMem (aaa : BitVec 3) (m : MemForm) : EvexOperands := ⟨fields false aaa, .mem m⟩

/-- An EVEX row with a broadcast `SRC3`. -/
def eBcst (aaa : BitVec 3) (m : MemForm) : EvexOperands := ⟨fields false aaa, .bcst m⟩

/-- `[x[0]]`. -/
def atX0 : MemForm := .base 0 .none

/-- Lanes of `V[1]` in the next state, or nothing when there is none. -/
def lanesAfter (r : Result) (js : List Nat) : List Lane :=
  match r with
  | .next t => js.map (lane (t.vreg 1#5))
  | .fault _ => []
  | .refused _ => []

/-- `MXCSR` and `RIP` of the next state. -/
def mxcsrRipAfter (r : Result) : Option (BitVec 32 × Word64) :=
  match r with
  | .next t => some (t.mxcsr, t.rip)
  | .fault _ => none
  | .refused _ => none

/-- Vector number, error code, address and `MXCSR` of a fault. -/
def faultAfter (r : Result) : Option (Nat × Option (BitVec 32) × Option Word64 × BitVec 32) :=
  match r with
  | .next _ => none
  | .fault f => some (f.vector, f.errorCode, f.address, f.state.mxcsr)
  | .refused _ => none

/-- The outcome is this fault. -/
def faultIs (r : Result) (f : Fault) : Bool :=
  match r with
  | .next _ => false
  | .fault g => decide (g = f)
  | .refused _ => false

/-- The outcome is this refusal. -/
def refusalIs (r : Result) (q : Refusal) : Bool :=
  match r with
  | .next _ => false
  | .fault _ => false
  | .refused q' => decide (q' = q)

theorem eq_of_refusalIs {r : Result} {q : Refusal} (h : refusalIs r q = true) : r = .refused q := by
  cases r <;> simp_all [refusalIs]

theorem eq_of_faultIs {r : Result} {f : Fault} (h : faultIs r f = true) : r = .fault f := by
  cases r <;> simp_all [faultIs]

/-! ### Well-formedness: an ill-formed term for each check -/

theorem test_wf_two_segment_overrides :
    (Instr.vfnmsub132psVex128 ⟨⟨[.fs, .gs], []⟩, 1, 2, .reg 3⟩).wf = false := by decide

theorem test_wf_two_address_sizes :
    (Instr.vfnmsub213psEvex512er ⟨⟨⟨[.addrSize, .addrSize], []⟩, false, true, false, 0, 1, 2⟩, 0, 3⟩).wf
      = false := by decide

theorem test_wf_base_needs_sib :
    (Instr.vfnmsub231psVex256 (oMem (.base 12 (.d8 0)))).wf = false := by decide

theorem test_wf_base_needs_displacement :
    (Instr.vfnmsub132psEvex128 (eMem 0 (.base 13 .none))).wf = false := by decide

theorem test_wf_sib_base_needs_displacement :
    (Instr.vfnmsub132psEvex256 (eBcst 0 (.sib 0 1 5 .none))).wf = false := by decide

theorem test_wf_admits_forbidden_prefix_repeats :
    (Instr.vfnmsub132psEvex512 true ⟨⟨⟨[.lock, .lock, .fs], [8]⟩, true, false, true, 0, 31, 30⟩,
      .mem (.ripRel 5)⟩).wf = true := by decide

/-! ### Decoding: words written out from rules R83 to R98 -/

theorem test_decode_vex128 :
    decode [0xC4, 0xE2, 0x69, 0x9E, 0xCB] = .ok (.vfnmsub132psVex128 oReg, [])
      ∧ decode [0xC4, 0xE2, 0x69, 0xAE, 0xCB] = .ok (.vfnmsub213psVex128 oReg, [])
      ∧ decode [0xC4, 0xE2, 0x69, 0xBE, 0xCB] = .ok (.vfnmsub231psVex128 oReg, []) := by decide

theorem test_decode_vex256 :
    decode [0xC4, 0xE2, 0x6D, 0x9E, 0x08] = .ok (.vfnmsub132psVex256 (oMem atX0), [])
      ∧ decode [0xC4, 0xE2, 0x6D, 0xAE, 0xCB] = .ok (.vfnmsub213psVex256 oReg, [])
      ∧ decode [0xC4, 0xE2, 0x6D, 0xBE, 0xCB] = .ok (.vfnmsub231psVex256 oReg, []) := by decide

theorem test_decode_evex128 :
    decode [0x62, 0xF2, 0x6D, 0x09, 0x9E, 0xCB] = .ok (.vfnmsub132psEvex128 (eReg false 1), [])
      ∧ decode [0x62, 0xF2, 0x6D, 0x19, 0xAE, 0x08] = .ok (.vfnmsub213psEvex128 (eBcst 1 atX0), [])
      ∧ decode [0x62, 0xF2, 0x6D, 0x8F, 0xBE, 0xCB] = .ok (.vfnmsub231psEvex128 (eReg true 7), []) := by decide

theorem test_decode_evex256 :
    decode [0x62, 0xF2, 0x6D, 0x29, 0x9E, 0xCB] = .ok (.vfnmsub132psEvex256 (eReg false 1), [])
      ∧ decode [0x62, 0xF2, 0x6D, 0x29, 0xAE, 0x08] = .ok (.vfnmsub213psEvex256 (eMem 1 atX0), [])
      ∧ decode [0x62, 0xF2, 0x6D, 0xA9, 0xBE, 0xCB] = .ok (.vfnmsub231psEvex256 (eReg true 1), []) := by decide

theorem test_decode_evex512 :
    decode [0x62, 0xF2, 0x6D, 0x49, 0x9E, 0xCB] = .ok (.vfnmsub132psEvex512 false (eReg false 1), [])
      ∧ decode [0x62, 0xF2, 0x6D, 0x48, 0xAE, 0x08] = .ok (.vfnmsub213psEvex512 false (eMem 0 atX0), [])
      ∧ decode [0x62, 0xF2, 0x6D, 0x68, 0xBE, 0xCB] = .ok (.vfnmsub231psEvex512 true (eReg false 0), []) := by
  decide

theorem test_decode_embedded_rounding :
    decode [0x62, 0xF2, 0x6D, 0x18, 0x9E, 0xCB] = .ok (.vfnmsub132psEvex512er ⟨fields false 0, 0, 3⟩, [])
      ∧ decode [0x62, 0xF2, 0x6D, 0x39, 0xAE, 0xCB] = .ok (.vfnmsub213psEvex512er ⟨fields false 1, 1, 3⟩, [])
      ∧ decode [0x62, 0xF2, 0x6D, 0xF9, 0xBE, 0xCB] = .ok (.vfnmsub231psEvex512er ⟨fields true 1, 3, 3⟩, []) := by
  decide

/-- The memory forms of rules R110 to R113: RIP-relative, no base, SIB base with displacement, `r12` with
SIB. -/
theorem test_decode_memory_forms :
    decode [0xC4, 0xE2, 0x69, 0x9E, 0x0D, 0x10, 0, 0, 0] = .ok (.vfnmsub132psVex128 (oMem (.ripRel 0x10)), [])
      ∧ decode [0xC4, 0xE2, 0x69, 0x9E, 0x0C, 0x25, 0, 0x10, 0, 0]
        = .ok (.vfnmsub132psVex128 (oMem (.sibNoBase 0 4 0x1000)), [])
      ∧ decode [0xC4, 0xE2, 0x69, 0x9E, 0x4C, 0x25, 0x08]
        = .ok (.vfnmsub132psVex128 (oMem (.sib 0 4 5 (.d8 8))), [])
      ∧ decode [0xC4, 0xC2, 0x69, 0x9E, 0x0C, 0x24] = .ok (.vfnmsub132psVex128 (oMem (.sib 0 4 12 .none)), []) := by
  decide

theorem test_table_word_decodes :
    decodeTableWord 40 0xCB9E69E2C4 = some (.vfnmsub132psVex128 oReg) := by decide

/-- After reset a loaded word runs first: `-(0*0)-0` is `-0` in every lane (vector L4). -/
theorem test_table_word_runs_first :
    lanesAfter (step (State.reset.withFetchWord 48 0xCBAE486DF262)) [0, 15] = [0x80000000#32, 0x80000000#32] := by
  decide +kernel

/-! ### The lane function: the vectors of 95_test_vectors.md -/

/-- One row of the lane vectors: operands, rounding mode, `DAZ FTZ UM OM`, result, and the two flag sets as
`IE DE OE UE PE`. -/
structure LaneVector where
  x : Lane
  y : Lane
  z : Lane
  rc : RoundMode
  controls : BitVec 4
  res : Option Lane
  pre : BitVec 5
  post : BitVec 5
  deriving DecidableEq, Repr

/-- Flags from the bits `IE DE OE UE PE`. -/
def flagsOf (b : BitVec 5) : FpFlags :=
  ⟨b.getLsbD 4, b.getLsbD 3, b.getLsbD 2, b.getLsbD 1, b.getLsbD 0⟩

/-- The lane function gives the row's result and flags. -/
def LaneVector.holds (r : LaneVector) : Bool :=
  decide (fnmsub32 .xyz r.x r.y r.z r.rc (r.controls.getLsbD 3) (r.controls.getLsbD 2)
    (r.controls.getLsbD 1) (r.controls.getLsbD 0) = ⟨r.res, flagsOf r.pre, flagsOf r.post⟩)

/-- Vectors L1 to L18 of 95_test_vectors.md. -/
theorem test_lane_exact_and_nan : ([
    ⟨0x40000000#32, 0x40400000#32, 0x40800000#32, .rn, 0b0011, some 0xC1200000#32, 0b00000, 0b00000⟩,
    ⟨0x3F800000#32, 0x3F800000#32, 0xBF800000#32, .rn, 0b0011, some 0x00000000#32, 0b00000, 0b00000⟩,
    ⟨0x3F800000#32, 0x3F800000#32, 0xBF800000#32, .rd, 0b0011, some 0x80000000#32, 0b00000, 0b00000⟩,
    ⟨0x00000000#32, 0x3F800000#32, 0x00000000#32, .rn, 0b0011, some 0x80000000#32, 0b00000, 0b00000⟩,
    ⟨0x00000000#32, 0x3F800000#32, 0x00000000#32, .ru, 0b0011, some 0x80000000#32, 0b00000, 0b00000⟩,
    ⟨0x80000000#32, 0x3F800000#32, 0x00000000#32, .rn, 0b0011, some 0x00000000#32, 0b00000, 0b00000⟩,
    ⟨0x80000000#32, 0x3F800000#32, 0x00000000#32, .rd, 0b0011, some 0x80000000#32, 0b00000, 0b00000⟩,
    ⟨0x00000000#32, 0x3F800000#32, 0x80000000#32, .rz, 0b0011, some 0x00000000#32, 0b00000, 0b00000⟩,
    ⟨0x3F800001#32, 0x3F800001#32, 0xBF800002#32, .rn, 0b0011, some 0xA8800000#32, 0b00000, 0b00000⟩,
    ⟨0x3EAAAAAB#32, 0x3EAAAAAB#32, 0x3F800000#32, .rn, 0b0011, some 0xBF8E38E4#32, 0b00000, 0b00001⟩,
    ⟨0x3EAAAAAB#32, 0x3EAAAAAB#32, 0x3F800000#32, .rd, 0b0011, some 0xBF8E38E4#32, 0b00000, 0b00001⟩,
    ⟨0x3EAAAAAB#32, 0x3EAAAAAB#32, 0x3F800000#32, .ru, 0b0011, some 0xBF8E38E3#32, 0b00000, 0b00001⟩,
    ⟨0x3EAAAAAB#32, 0x3EAAAAAB#32, 0x3F800000#32, .rz, 0b0011, some 0xBF8E38E3#32, 0b00000, 0b00001⟩,
    ⟨0xBEAAAAAB#32, 0x3EAAAAAB#32, 0xBF800000#32, .rn, 0b0011, some 0x3F8E38E4#32, 0b00000, 0b00001⟩,
    ⟨0xBEAAAAAB#32, 0x3EAAAAAB#32, 0xBF800000#32, .rd, 0b0011, some 0x3F8E38E3#32, 0b00000, 0b00001⟩,
    ⟨0xBEAAAAAB#32, 0x3EAAAAAB#32, 0xBF800000#32, .ru, 0b0011, some 0x3F8E38E4#32, 0b00000, 0b00001⟩,
    ⟨0xBEAAAAAB#32, 0x3EAAAAAB#32, 0xBF800000#32, .rz, 0b0011, some 0x3F8E38E3#32, 0b00000, 0b00001⟩,
    ⟨0x3F800001#32, 0x3F800001#32, 0x00000000#32, .rn, 0b0011, some 0xBF800002#32, 0b00000, 0b00001⟩
    ] : List LaneVector).all LaneVector.holds = true := by decide +kernel

/-- Vectors L19 to L40 of 95_test_vectors.md. -/
theorem test_lane_special_operands : ([
    ⟨0x7FC12345#32, 0x3F800000#32, 0x3F800000#32, .rn, 0b0011, some 0x7FC12345#32, 0b00000, 0b00000⟩,
    ⟨0x7F812345#32, 0x3F800000#32, 0x3F800000#32, .rn, 0b0011, some 0x7FC12345#32, 0b10000, 0b00000⟩,
    ⟨0x3F800000#32, 0xFF800001#32, 0x7FC00002#32, .rn, 0b0011, some 0xFFC00001#32, 0b10000, 0b00000⟩,
    ⟨0x7FC00001#32, 0x3F800000#32, 0x7F800002#32, .rn, 0b0011, some 0x7FC00001#32, 0b10000, 0b00000⟩,
    ⟨0x7F800002#32, 0xFFC00003#32, 0x7FC00004#32, .rn, 0b0011, some 0x7FC00002#32, 0b10000, 0b00000⟩,
    ⟨0x00000000#32, 0x7F800000#32, 0x7FC12345#32, .rn, 0b0011, some 0x7FC12345#32, 0b00000, 0b00000⟩,
    ⟨0x00000001#32, 0x7FC12345#32, 0x3F800000#32, .rn, 0b0011, some 0x7FC12345#32, 0b00000, 0b00000⟩,
    ⟨0x00000000#32, 0x7F800000#32, 0x3F800000#32, .rn, 0b0011, some 0xFFC00000#32, 0b10000, 0b00000⟩,
    ⟨0x7F800000#32, 0x80000000#32, 0x00000001#32, .rn, 0b0011, some 0xFFC00000#32, 0b10000, 0b00000⟩,
    ⟨0x7F800000#32, 0x3F800000#32, 0xFF800000#32, .rn, 0b0011, some 0xFFC00000#32, 0b10000, 0b00000⟩,
    ⟨0x7F800000#32, 0x3F800000#32, 0x7F800000#32, .rn, 0b0011, some 0xFF800000#32, 0b00000, 0b00000⟩,
    ⟨0xFF800000#32, 0xBF800000#32, 0x7F800000#32, .rn, 0b0011, some 0xFF800000#32, 0b00000, 0b00000⟩,
    ⟨0x7F800000#32, 0xBF800000#32, 0x3F800000#32, .rn, 0b0011, some 0x7F800000#32, 0b00000, 0b00000⟩,
    ⟨0x3F800000#32, 0x3F800000#32, 0xFF800000#32, .rn, 0b0011, some 0x7F800000#32, 0b00000, 0b00000⟩,
    ⟨0x7F800000#32, 0x00000001#32, 0x3F800000#32, .rn, 0b0011, some 0xFF800000#32, 0b01000, 0b00000⟩,
    ⟨0x7F800000#32, 0x00000001#32, 0x3F800000#32, .rn, 0b1011, some 0xFFC00000#32, 0b10000, 0b00000⟩,
    ⟨0x00000001#32, 0x3F800000#32, 0x00000000#32, .rn, 0b0011, some 0x80000001#32, 0b01000, 0b00000⟩,
    ⟨0x00000001#32, 0x3F800000#32, 0x00000000#32, .rn, 0b1011, some 0x80000000#32, 0b00000, 0b00000⟩,
    ⟨0x00000001#32, 0x3F800000#32, 0x00000000#32, .rn, 0b0111, some 0x80000000#32, 0b01000, 0b00011⟩,
    ⟨0x3F800000#32, 0x3F800000#32, 0x80000001#32, .rn, 0b0011, some 0xBF800000#32, 0b01000, 0b00001⟩,
    ⟨0x3F800000#32, 0x3F800000#32, 0x80000001#32, .rz, 0b0011, some 0xBF7FFFFF#32, 0b01000, 0b00001⟩,
    ⟨0x3F800000#32, 0x3F800000#32, 0x80000001#32, .rn, 0b1011, some 0xBF800000#32, 0b00000, 0b00000⟩
    ] : List LaneVector).all LaneVector.holds = true := by decide +kernel

/-- Vectors L41 to L53 of 95_test_vectors.md. -/
theorem test_lane_overflow_and_rounding : ([
    ⟨0x7F7FFFFF#32, 0x40000000#32, 0x00000000#32, .rn, 0b0011, some 0xFF800000#32, 0b00000, 0b00101⟩,
    ⟨0x7F7FFFFF#32, 0x40000000#32, 0x00000000#32, .ru, 0b0011, some 0xFF7FFFFF#32, 0b00000, 0b00101⟩,
    ⟨0x7F7FFFFF#32, 0x40000000#32, 0x00000000#32, .rd, 0b0011, some 0xFF800000#32, 0b00000, 0b00101⟩,
    ⟨0x7F7FFFFF#32, 0x40000000#32, 0x00000000#32, .rz, 0b0011, some 0xFF7FFFFF#32, 0b00000, 0b00101⟩,
    ⟨0xFF7FFFFF#32, 0x40000000#32, 0x00000000#32, .rn, 0b0011, some 0x7F800000#32, 0b00000, 0b00101⟩,
    ⟨0xFF7FFFFF#32, 0x40000000#32, 0x00000000#32, .rd, 0b0011, some 0x7F7FFFFF#32, 0b00000, 0b00101⟩,
    ⟨0xFF7FFFFF#32, 0x40000000#32, 0x00000000#32, .ru, 0b0011, some 0x7F800000#32, 0b00000, 0b00101⟩,
    ⟨0x7F7FFFFF#32, 0x3F800000#32, 0x73000000#32, .rn, 0b0011, some 0xFF800000#32, 0b00000, 0b00101⟩,
    ⟨0x7F7FFFFF#32, 0x3F800000#32, 0x72800000#32, .rn, 0b0011, some 0xFF7FFFFF#32, 0b00000, 0b00001⟩,
    ⟨0x7F000000#32, 0x40000000#32, 0x00000000#32, .rn, 0b0010, none, 0b00000, 0b00100⟩,
    ⟨0x7F7FFFFF#32, 0x3F800001#32, 0x00000000#32, .rn, 0b0010, none, 0b00000, 0b00101⟩,
    ⟨0xBF7FF800#32, 0x00800400#32, 0x00000000#32, .rn, 0b0011, some 0x00800000#32, 0b00000, 0b00001⟩,
    ⟨0xBF7FF800#32, 0x00800400#32, 0x00000000#32, .rz, 0b0011, some 0x007FFFFF#32, 0b00000, 0b00011⟩
    ] : List LaneVector).all LaneVector.holds = true := by decide +kernel

/-- Vectors L54 to L67 of 95_test_vectors.md. -/
theorem test_lane_underflow : ([
    ⟨0x00800000#32, 0xBF000000#32, 0x00000000#32, .rn, 0b0011, some 0x00400000#32, 0b00000, 0b00000⟩,
    ⟨0x00800001#32, 0xBF000000#32, 0x00000000#32, .rn, 0b0011, some 0x00400000#32, 0b00000, 0b00011⟩,
    ⟨0x00800001#32, 0xBF000000#32, 0x00000000#32, .ru, 0b0011, some 0x00400001#32, 0b00000, 0b00011⟩,
    ⟨0x00800000#32, 0xBF000000#32, 0x00000000#32, .rn, 0b0111, some 0x00000000#32, 0b00000, 0b00011⟩,
    ⟨0x00800000#32, 0x3F000000#32, 0x00000000#32, .rn, 0b0111, some 0x80000000#32, 0b00000, 0b00011⟩,
    ⟨0x00800000#32, 0xBF000000#32, 0x00000000#32, .rn, 0b0001, none, 0b00000, 0b00010⟩,
    ⟨0x00800000#32, 0xBF000000#32, 0x00000000#32, .rn, 0b0101, none, 0b00000, 0b00010⟩,
    ⟨0x00800001#32, 0xBF000000#32, 0x00000000#32, .rn, 0b0001, none, 0b00000, 0b00010⟩,
    ⟨0x00800001#32, 0xBF000001#32, 0x00000000#32, .rn, 0b0001, none, 0b00000, 0b00011⟩,
    ⟨0x00000001#32, 0x3F000000#32, 0x00000000#32, .rn, 0b0011, some 0x80000000#32, 0b01000, 0b00011⟩,
    ⟨0x00000001#32, 0x3F000000#32, 0x00000000#32, .rd, 0b0011, some 0x80000001#32, 0b01000, 0b00011⟩,
    ⟨0x007FFFFF#32, 0xBF800000#32, 0x80000001#32, .rn, 0b0011, some 0x00800000#32, 0b01000, 0b00000⟩,
    ⟨0x3F7FFFFF#32, 0x80800000#32, 0x00000000#32, .rn, 0b0011, some 0x00800000#32, 0b00000, 0b00011⟩,
    ⟨0x3F7FFFFF#32, 0x80800000#32, 0x00000000#32, .rz, 0b0011, some 0x007FFFFF#32, 0b00000, 0b00011⟩
    ] : List LaneVector).all LaneVector.holds = true := by decide +kernel
/-! ### One step of each instruction

`-(2*3)-4 = -10`, `-(4*2)-3 = -11`, `-(4*3)-2 = -14` by the three orders; `K[1] = FFF5h` enables lanes 0, 2
and 15 and disables lanes 1 and 3. -/

theorem test_132_vex128 :
    lanesAfter (exec (.vfnmsub132psVex128 oReg) s0) [0, 3, 4, 15] = [0xC1200000#32, 0xC1200000#32, 0#32, 0#32] := by
  decide +kernel
theorem test_213_vex128 :
    lanesAfter (exec (.vfnmsub213psVex128 (oMem atX0)) s0) [0, 3, 4] = [0xC1300000#32, 0xC1300000#32, 0#32] := by
  decide +kernel
theorem test_231_vex128 :
    lanesAfter (exec (.vfnmsub231psVex128 oReg) s0) [0, 3, 4] = [0xC1600000#32, 0xC1600000#32, 0#32] := by
  decide +kernel
theorem test_132_vex256 :
    lanesAfter (exec (.vfnmsub132psVex256 (oMem atX0)) s0) [0, 7, 8] = [0xC1200000#32, 0xC1200000#32, 0#32] := by
  decide +kernel
theorem test_213_vex256 :
    lanesAfter (exec (.vfnmsub213psVex256 oReg) s0) [0, 7, 8] = [0xC1300000#32, 0xC1300000#32, 0#32] := by
  decide +kernel
theorem test_231_vex256 :
    lanesAfter (exec (.vfnmsub231psVex256 oReg) s0) [0, 7, 8] = [0xC1600000#32, 0xC1600000#32, 0#32] := by
  decide +kernel
theorem test_132_evex128 :
    lanesAfter (exec (.vfnmsub132psEvex128 (eReg false 1)) s0) [0, 1, 2, 4]
      = [0xC1200000#32, 0x40000000#32, 0xC1200000#32, 0#32] := by decide +kernel
theorem test_213_evex128 :
    lanesAfter (exec (.vfnmsub213psEvex128 (eBcst 1 atX0)) s0) [0, 1, 2, 4]
      = [0xC1300000#32, 0x40000000#32, 0xC1300000#32, 0#32] := by decide +kernel
theorem test_231_evex128 :
    lanesAfter (exec (.vfnmsub231psEvex128 (eReg true 1)) s0) [0, 1, 2, 4]
      = [0xC1600000#32, 0#32, 0xC1600000#32, 0#32] := by decide +kernel
theorem test_132_evex256 :
    lanesAfter (exec (.vfnmsub132psEvex256 (eReg false 1)) s0) [0, 3, 7, 8]
      = [0xC1200000#32, 0x40000000#32, 0xC1200000#32, 0#32] := by decide +kernel
theorem test_213_evex256 :
    lanesAfter (exec (.vfnmsub213psEvex256 (eMem 1 atX0)) s0) [0, 3, 7, 8]
      = [0xC1300000#32, 0x40000000#32, 0xC1300000#32, 0#32] := by decide +kernel
theorem test_231_evex256 :
    lanesAfter (exec (.vfnmsub231psEvex256 (eReg true 1)) s0) [0, 3, 7, 8]
      = [0xC1600000#32, 0#32, 0xC1600000#32, 0#32] := by decide +kernel
theorem test_132_evex512 :
    lanesAfter (exec (.vfnmsub132psEvex512 false (eReg false 1)) s0) [0, 1, 15]
      = [0xC1200000#32, 0x40000000#32, 0xC1200000#32] := by decide +kernel
theorem test_213_evex512 :
    lanesAfter (exec (.vfnmsub213psEvex512 false (eMem 0 atX0)) s0) [0, 1, 15]
      = [0xC1300000#32, 0xC1300000#32, 0xC1300000#32] := by decide +kernel
theorem test_231_evex512 :
    lanesAfter (exec (.vfnmsub231psEvex512 false (eBcst 1 atX0)) s0) [0, 1, 15]
      = [0xC1600000#32, 0x40000000#32, 0xC1600000#32] := by decide +kernel
theorem test_132_embedded_rounding :
    lanesAfter (exec (.vfnmsub132psEvex512er ⟨fields false 1, 0, 3⟩) s0) [0, 1, 15]
      = [0xC1200000#32, 0x40000000#32, 0xC1200000#32] := by decide +kernel
theorem test_213_embedded_rounding :
    lanesAfter (exec (.vfnmsub213psEvex512er ⟨fields true 1, 1, 3⟩) s0) [0, 1, 15]
      = [0xC1300000#32, 0#32, 0xC1300000#32] := by decide +kernel
theorem test_231_embedded_rounding :
    lanesAfter (exec (.vfnmsub231psEvex512er ⟨fields false 0, 3, 3⟩) s0) [0, 1, 15]
      = [0xC1600000#32, 0xC1600000#32, 0xC1600000#32] := by decide +kernel

/-- Vector L12: the rounding mode is the instruction's, and `MXCSR` stays as it is although every exception
is unmasked. -/
theorem test_embedded_rounding_mode_and_flags :
    lanesAfter (exec (.vfnmsub132psEvex512er ⟨fields false 0, 2, 3⟩)
        (machine 0x3EAAAAAB#32 0x3F800000#32 0x3EAAAAAB#32 0#32)) [0] = [0xBF8E38E3#32]
      ∧ mxcsrRipAfter (exec (.vfnmsub132psEvex512er ⟨fields false 0, 2, 3⟩)
        (machine 0x3EAAAAAB#32 0x3F800000#32 0x3EAAAAAB#32 0#32)) = some (0#32, 0x20000006#64) := by
  decide +kernel

/-- Vector L10: an inexact result sets `PE`. -/
theorem test_inexact_sets_pe :
    mxcsrRipAfter (exec (.vfnmsub132psVex128 oReg) (machine 0x3EAAAAAB#32 0x3F800000#32 0x3EAAAAAB#32 0x1F80#32))
      = some (0x1FA0#32, 0x20000005#64) := by decide +kernel

/-- Rule R225: the unmasked invalid operation is `#XM` with `IE` set, and `#UD` without
`CR4.OSXMMEXCPT`. -/
theorem test_simd_exception :
    faultAfter (exec (.vfnmsub132psVex128 oReg) (sInvalid 0x1F00#32)) = some (19, none, none, 0x1F01#32)
      ∧ faultAfter (exec (.vfnmsub132psVex128 oReg)
        { sInvalid 0x1F00#32 with cr4 := 0x40000#64 }) = some (6, none, none, 0x1F01#32) := by decide +kernel

/-- Rule R229: a read from user mode past the map is a page fault with code 4 at the lowest such byte. -/
theorem test_page_fault :
    faultAfter (exec (.vfnmsub132psVex128 (oMem (.base 0 (.d8 0x34)))) s0)
      = some (14, some 4#32, some 0x10000040#64, 0x1F80#32) := by decide +kernel

/-! ### Witnesses: reset, fetch and step -/

/-- The machine with a program at its `RIP`. -/
def withProgram (s : State) (bytes : Bytes) : State := placeProgram s bytes

theorem witness_LoadedTableWordRunsFirst :
    decodeTableWord 48 0xCB9E186DF262 = some (.vfnmsub132psEvex512er ⟨fields false 0, 0, 3⟩) := by decide

theorem witness_StepRunsDecodedInstruction :
    let bytes : Bytes := [0xC4, 0xE2, 0x69, 0x9E, 0xCB]
    let s := withProgram { s0 with rip := 0x00007FFFFFFFFFFB#64 } bytes
    s.mode = .bits64 ∧ mxcsrReservedBits s.mxcsr = 0#16 ∧ s.mem.device = [] ∧ programFrom s = some bytes
      ∧ decode bytes = .ok (.vfnmsub132psVex128 oReg, [])
      ∧ s.rip.toNat + (Instr.vfnmsub132psVex128 oReg).length ≤ 2 ^ 64
      ∧ ∀ k < (Instr.vfnmsub132psVex128 oReg).length, isCanonical (byteAddr s.rip k) = true := by decide +kernel

/-- The last byte of the instruction is at the last address of the address space. -/
theorem witness_StepRunsDecodedInstruction_top :
    let bytes : Bytes := [0xC4, 0xE2, 0x69, 0x9E, 0xCB]
    let s := withProgram { s0 with rip := 0xFFFFFFFFFFFFFFFB#64 } bytes
    s.mode = .bits64 ∧ mxcsrReservedBits s.mxcsr = 0#16 ∧ s.mem.device = [] ∧ programFrom s = some bytes
      ∧ decode bytes = .ok (.vfnmsub132psVex128 oReg, [])
      ∧ s.rip.toNat + (Instr.vfnmsub132psVex128 oReg).length ≤ 2 ^ 64
      ∧ ∀ k < (Instr.vfnmsub132psVex128 oReg).length, isCanonical (byteAddr s.rip k) = true := by decide +kernel

/-- First clause, with one byte before the boundary and with none. -/
theorem witness_NonCanonicalFetchFaults_bytes :
    let bytes : Bytes := [0xC4, 0xE2, 0x69, 0x9E, 0xCB]
    let s := withProgram { s0 with rip := 0x00007FFFFFFFFFFF#64 } bytes
    let s' := withProgram { s0 with rip := 0x0000800000000000#64 } bytes
    (s.mode = .bits64 ∧ mxcsrReservedBits s.mxcsr = 0#16 ∧ s.mem.device = []
      ∧ programFrom s = some bytes ∧ 1 < bytes.length ∧ s.rip.toNat + 1 < 2 ^ 64
      ∧ (∀ k < 1, isCanonical (byteAddr s.rip k) = true) ∧ isCanonical (byteAddr s.rip 1) = false
      ∧ decode (bytes.take 1) = .error (.truncated false))
    ∧ (s'.mode = .bits64 ∧ mxcsrReservedBits s'.mxcsr = 0#16 ∧ s'.mem.device = []
      ∧ programFrom s' = some bytes ∧ 0 < bytes.length ∧ s'.rip.toNat + 0 < 2 ^ 64
      ∧ (∀ k < 0, isCanonical (byteAddr s'.rip k) = true) ∧ isCanonical (byteAddr s'.rip 0) = false
      ∧ decode (bytes.take 0) = .error (.truncated false)) := by decide +kernel

/-- Second clause: `RIP` outside the program and not canonical. -/
theorem witness_NonCanonicalFetchFaults_outside :
    let s := { withProgram s0 [0xC4] with rip := 0x0000800000000000#64 }
    s.mode = .bits64 ∧ mxcsrReservedBits s.mxcsr = 0#16 ∧ s.mem.device = [] ∧ programFrom s = none
      ∧ isCanonical s.rip = false := by decide +kernel

/-- Rules R99, R102: eleven 66h and the bytes up to the opcode show the group in fifteen bytes, and the
program ends there; twelve 66h, C4h, E2h, 69h do not, and the next byte decides: 9Eh is `#GP(0)`, 9Fh is not of
the group, and no next byte is a cut-off program. -/
theorem witness_OverlongFetchFaults :
    let bytes : Bytes := List.replicate 11 0x66 ++ [0xC4, 0xE2, 0x69, 0x9E]
    let s := withProgram s0 bytes
    let long : Bytes := List.replicate 12 0x66 ++ [0xC4, 0xE2, 0x69]
    let t := fun more => withProgram s0 (long ++ more)
    (s.mode = .bits64 ∧ mxcsrReservedBits s.mxcsr = 0#16 ∧ s.mem.device = [] ∧ programFrom s = some bytes
      ∧ s.rip.toNat + 15 ≤ 2 ^ 64 ∧ s.rip.toNat + bytes.length < 2 ^ 64 ∧ (∀ k < 15, isCanonical (byteAddr s.rip k) = true)
      ∧ decode (bytes.take 15) = .error (.truncated true))
    ∧ decode ((long ++ [0x9E, 0xCB]).take 17) = .ok (.vfnmsub132psVex128
        ⟨⟨List.replicate 12 .opSize, []⟩, 1, 2, .reg 3⟩, [])
    ∧ faultIs (step s) (.gp 0#32 s) = true ∧ faultIs (step (t [0x9E, 0xCB])) (.gp 0#32 (t [0x9E, 0xCB])) = true
    ∧ refusalIs (step (t [0x9F])) (.notOfGroup (t [0x9F])) = true
    ∧ refusalIs (step (t [])) (.truncatedProgram (t [])) = true := by
  decide +kernel

/-- The clauses: no byte left, a neighbour of the group (decided by the sixteenth byte), two segment
overrides, a cut-off instruction; one that runs past 2^64; and an address outside the program. -/
theorem witness_StepRefusesByName :
    let ok := fun bytes : Bytes =>
      (withProgram s0 bytes).mode = .bits64 ∧ mxcsrReservedBits (withProgram s0 bytes).mxcsr = 0#16
        ∧ (withProgram s0 bytes).mem.device = [] ∧ programFrom (withProgram s0 bytes) = some bytes
        ∧ (withProgram s0 bytes).rip.toNat + bytes.length < 2 ^ 64
        ∧ ∀ k < bytes.length, isCanonical (byteAddr (withProgram s0 bytes).rip k) = true
    let far : Bytes := List.replicate 12 0x66 ++ [0xC4, 0xE2, 0x69, 0x9F]
    ok [] ∧ (ok far ∧ decode (far.take 16) = .error .notOfGroup)
      ∧ (ok [0x64, 0x65, 0xC4] ∧ decode ([0x64, 0x65, 0xC4].take 3) = .error .prefixCombination)
      ∧ (ok [0xC4, 0xE2] ∧ decode [0xC4, 0xE2] = .error (.truncated false))
      ∧ (let s := withProgram { s0 with rip := 0xFFFFFFFFFFFFFFFE#64 } [0xC4, 0xE2, 0x69, 0x9E, 0xCB]
        programFrom s = some [0xC4, 0xE2, 0x69, 0x9E, 0xCB] ∧ s.rip.toNat + 2 = 2 ^ 64
          ∧ ∀ k < 2, isCanonical (byteAddr s.rip k) = true)
      ∧ (let s := { withProgram s0 [0xC4] with rip := 0x30000000#64 }
        programFrom s = none ∧ isCanonical s.rip = true) := by
  refine ⟨?_, ⟨?_, ?_⟩, ⟨?_, ?_⟩, ⟨?_, ?_⟩, ?_, ?_⟩ <;> decide +kernel

/-- An over-long instruction whose fifteenth byte is at the top of the address space runs past it (D6). -/
theorem test_overlong_wraps :
    let s := withProgram { s0 with rip := 0xFFFFFFFFFFFFFFF1#64 }
      (List.replicate 11 0x66 ++ [0xC4, 0xE2, 0x69, 0x9E, 0xCB])
    refusalIs (step s) (.instructionWraps s) = true := by decide +kernel

theorem witness_UnadmittedStatesAreRefused :
    State.reset.mode ≠ .bits64
      ∧ ((machine 0 0 0 0x10000#32).mode = .bits64 ∧ mxcsrReservedBits (machine 0 0 0 0x10000#32).mxcsr ≠ 0#16)
      ∧ (let s := { s0 with mem := { s0.mem with device := [0] } }
        s.mode = .bits64 ∧ mxcsrReservedBits s.mxcsr = 0#16 ∧ s.mem.device ≠ []) := by decide +kernel

/-- A program placed over bytes of the map: the map had 3.0 at `10000000h`, and a data read there now finds
the bytes of the instruction that is fetched there; the next byte after them is the map's. -/
theorem witness_OneAddressSpace :
    let bytes : Bytes := [0xC4, 0xE2, 0x69, 0x9E, 0xCB]
    let s := ({ s0 with rip := 0x10000001#64 } : State).launch bytes
    s.prog.bytes.length ≤ 2 ^ 64 ∧ programFrom s = some bytes
      ∧ s.prog.byte 0x10000001#64 = some 0xC4#8 ∧ s.byteAt 0x10000001#64 = some 0xC4#8
      ∧ s0.byteAt 0x10000001#64 = some 0#8 ∧ s.mem.byte 0x10000005#64 = some 0xCB#8
      ∧ s.prog.byte 0x10000006#64 = none ∧ s.byteAt 0x10000006#64 = some 0x40#8 := by decide +kernel

/-! ### Witnesses: encoding -/

theorem witness_DecodeInvertsEncode :
    (Instr.vfnmsub213psEvex128 ⟨⟨⟨[.gs, .addrSize, .lock], [15]⟩, true, false, true, 7, 31, 30⟩,
      .bcst (.sib 3 15 13 (.d32 0x80000000))⟩).wf = true
      ∧ (Instr.vfnmsub231psVex256 ⟨⟨[.ss], []⟩, 15, 15, .mem (.sibNoBase 3 4 0xFFFFFFFF)⟩).wf = true
      ∧ (Instr.vfnmsub132psEvex512er ⟨⟨noPre, false, true, true, 1, 31, 31⟩, 3, 31⟩).wf = true := by decide

/-- A decodable prefix of bytes that goes on: the hypothesis of `DecodedInstructionIsWellFormed` and of
`DecodeReadsOnlyTheInstruction`. -/
theorem witness_DecodedInstructionIsWellFormed :
    decode [0x3E, 0xC4, 0xE2, 0x69, 0x9E, 0xCB, 0xC4] = .ok (.vfnmsub132psVex128 ⟨⟨[.ds], []⟩, 1, 2, .reg 3⟩, [0xC4]) := by
  decide

theorem witness_DecodeReadsOnlyTheInstruction :
    decode [0x62, 0xF2, 0x6D, 0x58, 0xBE, 0x48, 0x01, 0x00]
      = .ok (.vfnmsub231psEvex512 false (eBcst 0 (.base 0 (.d8 1))), [0x00]) := by decide

theorem witness_NeighboursAreNotOfTheGroup :
    (Prefixes.mk [.addrSize, .cs] [8]).admitted = true
      ∧ (0xE1#8).extractLsb' 0 5 ≠ 2#5 ∧ (0x68#8).extractLsb' 0 2 ≠ 1#2 ∧ (0xE9#8).getLsbD 7 = true
      ∧ (0x9F#8 ≠ 0x9E#8 ∧ 0x9F#8 ≠ 0xAE#8 ∧ 0x9F#8 ≠ 0xBE#8)
      ∧ (0xF1#8).extractLsb' 0 3 ≠ 2#3 ∧ (0x6C#8).extractLsb' 0 2 ≠ 1#2 ∧ (0xED#8).getLsbD 7 = true
      ∧ 0xC5#8 ∉ [0x26#8, 0x2E#8, 0x36#8, 0x3E#8, 0x64#8, 0x65#8, 0x67#8, 0x66#8, 0xF0#8, 0xF2#8, 0xF3#8]
      ∧ (0xC5#8).extractLsb' 4 4 ≠ 4#4 ∧ 0xC5#8 ≠ 0xC4#8 ∧ 0xC5#8 ≠ 0x62#8 := by decide

theorem witness_RepeatedPrefixesAreRefused :
    0xC4#8 ∉ [0x26#8, 0x2E#8, 0x36#8, 0x3E#8, 0x64#8, 0x65#8, 0x67#8, 0x66#8, 0xF0#8, 0xF2#8, 0xF3#8]
      ∧ 2 ≤ [LegacyPrefix.es, .lock, .es].countP LegacyPrefix.isSegment
      ∧ 2 ≤ [LegacyPrefix.addrSize, .addrSize].count .addrSize := by decide

/-! ### Witnesses: the memory operand -/

/-- Two states whose registers and `RIP` agree in their low 32 bits alone. -/
theorem witness_AddressSizePrefixTruncates :
    LegacyPrefix.addrSize ∉ noPre.legacy ∧ LegacyPrefix.addrSize ∈ (Prefixes.mk [.addrSize] []).legacy
      ∧ (∀ r, (s0.gpr r).setWidth 32
          = (State.gpr { s0 with x := s0.x.set 0 0xFFFFFFFF10000000#64 } r).setWidth 32)
      ∧ s0.gpr 0 ≠ State.gpr { s0 with x := s0.x.set 0 0xFFFFFFFF10000000#64 } 0
      ∧ s0.rip.setWidth 32 = (0x120000000#64).setWidth 32 := by decide +kernel

theorem witness_SegmentOverridesAddBase :
    (Prefixes.mk [.fs, .addrSize] []).admitted = true ∧ LegacyPrefix.fs ∈ (Prefixes.mk [.fs, .addrSize] []).legacy
      ∧ (Prefixes.mk [.gs] []).admitted = true ∧ LegacyPrefix.gs ∈ (Prefixes.mk [.gs] []).legacy
      ∧ (Prefixes.mk [.ss] []).admitted = true ∧ LegacyPrefix.fs ∉ (Prefixes.mk [.ss] []).legacy
      ∧ LegacyPrefix.gs ∉ (Prefixes.mk [.ss] []).legacy := by decide

/-! ### Witnesses: the lane function -/

theorem witness_PatternValues :
    FinitePattern 0x7F7FFFFF#32 ∧ FinitePattern 0x80000000#32 ∧ (FinitePattern 0x80800000#32 ∧ expOf 0x80800000#32 ≠ 0)
      ∧ isDenormal 0x80000001#32 = true ∧ isDenormal 0x007FFFFF#32 = true := by
  unfold FinitePattern; decide

theorem witness_DazReplacesDenormals :
    isDenormal 0x807FFFFF#32 = true ∧ isDenormal 0x00800000#32 = false
      ∧ (isDenormal 0x00000001#32 = true ∧ isInf 0xFF800000#32 = true ∧ isNaN 0x3F800000#32 = false) := by decide

theorem witness_NaNOperandIsReturnedQuiet :
    (isNaN 0x7F800001#32 = true ∨ isNaN 0#32 = true ∨ isNaN 0#32 = true)
      ∧ (isNaN 0x7F800000#32 = true ∨ isNaN 0#32 = true ∨ isNaN 0xFFFFFFFF#32 = true) := by decide

/-- The three ways to be invalid, the first through a flushed denormal. -/
theorem witness_InvalidOperationGivesDefaultNaN :
    (isNaN 0x00000001#32 = false ∧ isNaN 0x7F800000#32 = false ∧ isNaN 0x3F800000#32 = false
      ∧ isZero (applyDaz true 0x00000001#32) = true ∧ isInf (applyDaz true 0x7F800000#32) = true)
    ∧ (isInf (applyDaz false 0xFF800000#32) = true ∧ isZero (applyDaz false 0x80000000#32) = true)
    ∧ (isInf (applyDaz false 0x7F800000#32) = true ∧ isInf (applyDaz false 0xFF800000#32) = true
      ∧ (!(Bool.xor (signOf 0x7F800000#32) (signOf 0x3F800000#32))) ≠ (!signOf 0xFF800000#32)) := by decide

/-- A denormal factor of an infinity, not flushed: neither rule R138 nor rule R139 applies. -/
theorem witness_DenormalOperandRaisesDE :
    isNaN 0x7F800000#32 = false ∧ isNaN 0x00000001#32 = false ∧ isNaN 0x7F800000#32 = false
      ∧ ¬ (isZero (applyDaz false 0x7F800000#32) = true ∧ isInf (applyDaz false 0x00000001#32) = true)
      ∧ ¬ (isInf (applyDaz false 0x7F800000#32) = true ∧ isZero (applyDaz false 0x00000001#32) = true)
      ∧ ¬ ((isInf (applyDaz false 0x7F800000#32) = true ∨ isInf (applyDaz false 0x00000001#32) = true)
        ∧ isInf (applyDaz false 0x7F800000#32) = true
        ∧ (!(Bool.xor (signOf 0x7F800000#32) (signOf 0x00000001#32))) ≠ (!signOf 0x7F800000#32)) := by decide

/-- An infinite factor with an infinite subtrahend of the matching sign; an infinite subtrahend alone. -/
theorem witness_InfiniteOperandsGiveInfinity :
    (isNaN 0x7F800000#32 = false ∧ isNaN 0x3F800000#32 = false
      ∧ isInf (applyDaz false 0x7F800000#32) = true ∧ isZero (applyDaz false 0x7F800000#32) = false
      ∧ isZero (applyDaz false 0x3F800000#32) = false ∧ isInf (applyDaz false 0x7F800000#32) = true
      ∧ (!(Bool.xor (signOf 0x7F800000#32) (signOf 0x3F800000#32))) = (!signOf 0x7F800000#32))
    ∧ (isNaN 0x00000000#32 = false ∧ isInf (applyDaz false 0x7F7FFFFF#32) = false
      ∧ isInf (applyDaz false 0x00000000#32) = false ∧ isInf (applyDaz false 0xFF800000#32) = true) := by decide

/-- Two like-signed zero terms; and `-(1*1) - (-1)`. -/
theorem witness_ExactZeroSign :
    (FinitePattern (applyDaz false 0#32) ∧ FinitePattern (applyDaz false 0x3F800000#32)
      ∧ -(laneValue (applyDaz false 0#32) * laneValue (applyDaz false 0x3F800000#32))
          - laneValue (applyDaz false 0#32) = 0
      ∧ (isZero (applyDaz false 0#32) = true ∧ isZero (applyDaz false 0#32) = true
        ∧ (!(Bool.xor (signOf 0#32) (signOf 0x3F800000#32))) = (!signOf 0#32)))
    ∧ (FinitePattern (applyDaz false 0x3F800000#32) ∧ FinitePattern (applyDaz false 0xBF800000#32)
      ∧ -(laneValue (applyDaz false 0x3F800000#32) * laneValue (applyDaz false 0x3F800000#32))
          - laneValue (applyDaz false 0xBF800000#32) = 0
      ∧ ¬ ((isZero (applyDaz false 0x3F800000#32) = true ∨ isZero (applyDaz false 0x3F800000#32) = true)
        ∧ isZero (applyDaz false 0xBF800000#32) = true
        ∧ (!(Bool.xor (signOf 0x3F800000#32) (signOf 0x3F800000#32))) = (!signOf 0xBF800000#32))) := by
  have h0 : scaledValue (applyDaz false 0#32) = 0 := by decide +kernel
  have h1 : scaledValue (applyDaz false 0x3F800000#32) = 2 ^ 149 := by decide +kernel
  have h2 : scaledValue (applyDaz false 0xBF800000#32) = -(2 ^ 149) := by decide +kernel
  refine ⟨⟨?_, ?_, ?_, ?_⟩, ?_, ?_, ?_, ?_⟩
  · unfold FinitePattern; decide
  · unfold FinitePattern; decide
  · simp [laneValue, h0]
  · decide
  · unfold FinitePattern; decide
  · unfold FinitePattern; decide
  · simp only [laneValue, h1, h2]; norm_num
  · decide

theorem witness_FiniteLanesAreRounded :
    FinitePattern (applyDaz false 0x3EAAAAAB#32) ∧ FinitePattern (applyDaz false 0#32)
      ∧ -(laneValue (applyDaz false 0x3EAAAAAB#32) * laneValue (applyDaz false 0#32))
          - laneValue (applyDaz false 0x3EAAAAAB#32) ≠ 0 := by
  have h0 : scaledValue (applyDaz false 0#32) = 0 := by decide +kernel
  have h1 : scaledValue (applyDaz false 0x3EAAAAAB#32) ≠ 0 := by decide +kernel
  refine ⟨?_, ?_, ?_⟩
  · unfold FinitePattern; decide
  · unfold FinitePattern; decide
  · simp [laneValue, h0, h1]

/-- A tie in the normal range, a denormal result, and the largest value that does not overflow. -/
theorem witness_RoundingIsCorrect :
    ((2 ^ 300 + 2 ^ 276 : Int) ≠ 0
      ∧ round32 (2 ^ 300 + 2 ^ 276) .rn false true true = (some 0x40800000#32, { FpFlags.empty with pe := true }))
    ∧ ((-1 : Int) ≠ 0
      ∧ round32 (-1) .rd false true true = (some 0x80000001#32, { FpFlags.empty with ue := true, pe := true }))
    ∧ round32 ((2 ^ 25 - 1) * 2 ^ 401 - 1) .rn false true true
        = (some 0x7F7FFFFF#32, { FpFlags.empty with pe := true }) := by decide +kernel

/-- The boundary of overflow to nearest: the value half a unit above the largest finite number. -/
theorem witness_OverflowRule :
    ((2 ^ 25 - 1) * 2 ^ 401 : Int) ≠ 0
      ∧ (2 ^ 25 - 1) * 2 ^ 103 ≤ |exactRational ((2 ^ 25 - 1) * 2 ^ 401)| := by
  refine ⟨by decide +kernel, le_of_eq ?_⟩
  have e : exactRational ((2 ^ 25 - 1) * 2 ^ 401) = (2 ^ 25 - 1) * 2 ^ 103 := by
    unfold exactRational
    rw [Int.cast_mul, Int.cast_pow]
    rw [show (401 : Nat) = 103 + 298 from rfl, pow_add]
    field_simp
    norm_num
    exact mul_comm _ _
  rw [e, abs_of_nonneg (by norm_num)]

/-- The boundaries of tininess to nearest and away from zero, and the smallest exact value. -/
theorem witness_UnderflowRule :
    (2 ^ 172 - 2 ^ 147 - 1 : Int) ≠ 0 ∧ (2 ^ 172 - 2 ^ 147 - 1 : Int).natAbs < 2 ^ 172 - 2 ^ 147
      ∧ (2 ^ 172 - 2 ^ 148 : Int).natAbs ≤ 2 ^ 172 - 2 ^ 148
      ∧ ¬ ((2 ^ 172 - 2 ^ 147 : Int).natAbs < 2 ^ 172 - 2 ^ 147) ∧ (-1 : Int) ≠ 0 ∧ (-1 : Int).natAbs < 2 ^ 172 := by
  decide +kernel

/-! ### Witnesses: results, completion and frame -/

/-- The three lane functions of the statements. -/
def l132 : LaneFn := fun s d s2 s3 => mxcsrLane s d s3 s2
def l213 : LaneFn := fun s d s2 s3 => mxcsrLane s s2 d s3
def l231 : LaneFn := fun s d s2 s3 => mxcsrLane s s2 s3 d

/-- The lanes of register 3. -/
def reg3 (s : State) (j : Nat) : Lane := lane (s.vreg 3) j

/-- 3.0 in every lane: what `threes` holds. -/
def three (_ : Nat) : Lane := 0x40400000#32

/-- Nothing that a VEX row raises is unmasked. -/
def VexMasked (vl : VLen) (o : VexOperands) (s : State) (s3 : Nat → Lane) (L : LaneFn) : Prop :=
  ∀ j < vl.lanes, Masked s.mxcsr (vexLanes L o s s3 j).pre ∧ Masked s.mxcsr (vexLanes L o s s3 j).post

/-- Nothing that an EVEX row raises in an enabled lane is unmasked. -/
def EvexMasked (vl : VLen) (o : EvexOperands) (s : State) (s3 : Nat → Lane) (L : LaneFn) : Prop :=
  ∀ j < vl.lanes, enabled s o.f.aaa j = true →
    Masked s.mxcsr (evexLanes L o.f s s3 j).pre ∧ Masked s.mxcsr (evexLanes L o.f s s3 j).post

theorem ready_vex_register : VexReady oReg s0 ∧ VexReady oReg (sInexact 0x1F80#32) := by
  unfold VexReady; decide +kernel

theorem ready_vex_memory : VexReady (oMem atX0) s0 := by unfold VexReady; decide +kernel

/-- A register `SRC3`, every lane inexact; and a memory `SRC3`. -/
theorem witness_VexXmmRowsComplete :
    (VexReady oReg (sInexact 0x1F80#32) ∧ VexSource .l128 oReg (sInexact 0x1F80#32) (reg3 (sInexact 0x1F80#32))
      ∧ VexMasked .l128 oReg (sInexact 0x1F80#32) (reg3 (sInexact 0x1F80#32)) l132
      ∧ VexMasked .l128 oReg (sInexact 0x1F80#32) (reg3 (sInexact 0x1F80#32)) l213
      ∧ VexMasked .l128 oReg (sInexact 0x1F80#32) (reg3 (sInexact 0x1F80#32)) l231)
    ∧ (VexReady (oMem atX0) s0 ∧ VexSource .l128 (oMem atX0) s0 three
      ∧ VexMasked .l128 (oMem atX0) s0 three l132 ∧ VexMasked .l128 (oMem atX0) s0 three l213
      ∧ VexMasked .l128 (oMem atX0) s0 three l231) := by
  refine ⟨⟨ready_vex_register.2, fun j _ => rfl, ?_, ?_, ?_⟩, ready_vex_memory, ?_, ?_, ?_, ?_⟩
  all_goals (simp only [VexMasked, ← unmasked_eq_false_iff, VexSource, oMem, LaneReadable]; decide +kernel)

theorem witness_VexYmmRowsComplete :
    (VexReady oReg (sInexact 0x1F80#32) ∧ VexSource .l256 oReg (sInexact 0x1F80#32) (reg3 (sInexact 0x1F80#32))
      ∧ VexMasked .l256 oReg (sInexact 0x1F80#32) (reg3 (sInexact 0x1F80#32)) l132
      ∧ VexMasked .l256 oReg (sInexact 0x1F80#32) (reg3 (sInexact 0x1F80#32)) l213
      ∧ VexMasked .l256 oReg (sInexact 0x1F80#32) (reg3 (sInexact 0x1F80#32)) l231)
    ∧ (VexReady (oMem atX0) s0 ∧ VexSource .l256 (oMem atX0) s0 three
      ∧ VexMasked .l256 (oMem atX0) s0 three l132 ∧ VexMasked .l256 (oMem atX0) s0 three l213
      ∧ VexMasked .l256 (oMem atX0) s0 three l231) := by
  refine ⟨⟨ready_vex_register.2, fun j _ => rfl, ?_, ?_, ?_⟩, ready_vex_memory, ?_, ?_, ?_, ?_⟩
  all_goals (simp only [VexMasked, ← unmasked_eq_false_iff, VexSource, oMem, LaneReadable]; decide +kernel)

theorem ready_evex (vl : VLen) : EvexReady vl (fields false 1) 6 s0
    ∧ EvexReady vl (fields true 1) 6 (sInexact 0x1F80#32) ∧ EvexReady vl (fields false 1) 6 (sInvalid 0x1F00#32)
    ∧ EvexReady vl (fields false 1) 6 (sInexact 0x0F80#32) := by
  refine ⟨?_, ?_, ?_, ?_⟩ <;> unfold EvexReady <;> cases vl <;> decide +kernel

/-- What the EVEX statements ask of a register, a full-width memory and a broadcast `SRC3`, with lanes 1 and
3 disabled. -/
def EvexWitness (vl : VLen) (L : LaneFn) : Prop :=
  EvexMasked vl (eReg true 1) (sInexact 0x1F80#32) (reg3 (sInexact 0x1F80#32)) L
    ∧ EvexMasked vl (eMem 1 atX0) s0 three L ∧ EvexMasked vl (eBcst 1 atX0) s0 three L

theorem evex_sources (vl : VLen) :
    EvexSource vl (eReg true 1) (sInexact 0x1F80#32) (reg3 (sInexact 0x1F80#32))
      ∧ EvexSource vl (eMem 1 atX0) s0 three ∧ EvexSource vl (eBcst 1 atX0) s0 three := by
  refine ⟨fun j _ _ => rfl, ?_, ?_, fun _ => ⟨?_, 0x40400000#32, ?_, fun _ _ => rfl⟩⟩
  · simp only [EvexSource, eMem, LaneReadable]; cases vl <;> decide +kernel
  · decide +kernel
  · decide +kernel
  · simp only [LaneReadable]; decide +kernel

theorem witness_EvexXmmRowsComplete :
    EvexReady .l128 (fields true 1) 6 (sInexact 0x1F80#32) ∧ EvexReady .l128 (fields false 1) 6 s0
      ∧ EvexSource .l128 (eReg true 1) (sInexact 0x1F80#32) (reg3 (sInexact 0x1F80#32))
      ∧ EvexSource .l128 (eMem 1 atX0) s0 three ∧ EvexSource .l128 (eBcst 1 atX0) s0 three
      ∧ EvexWitness .l128 l132 ∧ EvexWitness .l128 l213 ∧ EvexWitness .l128 l231 := by
  refine ⟨(ready_evex _).2.1, (ready_evex _).1, (evex_sources _).1, (evex_sources _).2.1, (evex_sources _).2.2,
    ?_, ?_, ?_⟩
  all_goals (simp only [EvexWitness, EvexMasked, ← unmasked_eq_false_iff]; refine ⟨?_, ?_, ?_⟩ <;> decide +kernel)

theorem witness_EvexYmmRowsComplete :
    EvexReady .l256 (fields true 1) 6 (sInexact 0x1F80#32) ∧ EvexReady .l256 (fields false 1) 6 s0
      ∧ EvexSource .l256 (eReg true 1) (sInexact 0x1F80#32) (reg3 (sInexact 0x1F80#32))
      ∧ EvexSource .l256 (eMem 1 atX0) s0 three ∧ EvexSource .l256 (eBcst 1 atX0) s0 three
      ∧ EvexWitness .l256 l132 ∧ EvexWitness .l256 l213 ∧ EvexWitness .l256 l231 := by
  refine ⟨(ready_evex _).2.1, (ready_evex _).1, (evex_sources _).1, (evex_sources _).2.1, (evex_sources _).2.2,
    ?_, ?_, ?_⟩
  all_goals (simp only [EvexWitness, EvexMasked, ← unmasked_eq_false_iff]; refine ⟨?_, ?_, ?_⟩ <;> decide +kernel)

theorem witness_EvexZmmRowsComplete :
    EvexReady .l512 (fields true 1) 6 (sInexact 0x1F80#32) ∧ EvexReady .l512 (fields false 1) 6 s0
      ∧ EvexSource .l512 (eReg true 1) (sInexact 0x1F80#32) (reg3 (sInexact 0x1F80#32))
      ∧ EvexSource .l512 (eMem 1 atX0) s0 three ∧ EvexSource .l512 (eBcst 1 atX0) s0 three
      ∧ EvexWitness .l512 l132 ∧ EvexWitness .l512 l213 ∧ EvexWitness .l512 l231 := by
  refine ⟨(ready_evex _).2.1, (ready_evex _).1, (evex_sources _).1, (evex_sources _).2.1, (evex_sources _).2.2,
    ?_, ?_, ?_⟩
  all_goals (simp only [EvexWitness, EvexMasked, ← unmasked_eq_false_iff]; refine ⟨?_, ?_, ?_⟩ <;> decide +kernel)

/-- Signalling NaNs with the invalid operation unmasked: the rows complete all the same. -/
theorem witness_EmbeddedRoundingRowsComplete :
    EvexReady .l512 (fields false 1) (EvexErOperands.length ⟨fields false 1, 3, 3⟩) (sInvalid 0x1F00#32) :=
  (ready_evex .l512).2.2.1

/-! ### Witnesses: exceptions -/

/-- Some lane of a VEX row raises an unmasked pre-computation flag. -/
def VexPreTrap (vl : VLen) (o : VexOperands) (s : State) (s3 : Nat → Lane) (L : LaneFn) : Prop :=
  ∃ j < vl.lanes, ¬ Masked s.mxcsr (vexLanes L o s s3 j).pre

/-- No lane does, and some lane raises an unmasked post-computation flag. -/
def VexPostTrap (vl : VLen) (o : VexOperands) (s : State) (s3 : Nat → Lane) (L : LaneFn) : Prop :=
  (∀ j < vl.lanes, Masked s.mxcsr (vexLanes L o s s3 j).pre)
    ∧ ∃ j < vl.lanes, ¬ Masked s.mxcsr (vexLanes L o s s3 j).post

theorem witness_VexRowsRaiseSimdException :
    VexReady oReg (sInvalid 0x1F00#32) ∧ VexReady oReg (sInexact 0x0F80#32)
      ∧ (∀ vl, VexSource vl oReg (sInvalid 0x1F00#32) (reg3 (sInvalid 0x1F00#32))
        ∧ VexSource vl oReg (sInexact 0x0F80#32) (reg3 (sInexact 0x0F80#32)))
      ∧ (∀ L ∈ [l132, l213, l231], ∀ vl ∈ [VLen.l128, .l256],
        VexPreTrap vl oReg (sInvalid 0x1F00#32) (reg3 (sInvalid 0x1F00#32)) L
          ∧ VexPostTrap vl oReg (sInexact 0x0F80#32) (reg3 (sInexact 0x0F80#32)) L) := by
  refine ⟨?_, ?_, fun vl => ⟨fun _ _ => rfl, fun _ _ => rfl⟩, ?_⟩
  · unfold VexReady; decide +kernel
  · unfold VexReady; decide +kernel
  · intro L hL vl hvl
    simp only [List.mem_cons, List.not_mem_nil, or_false] at hL hvl
    simp only [VexPreTrap, VexPostTrap, ← unmasked_eq_false_iff]
    rcases hL with rfl | rfl | rfl <;> rcases hvl with rfl | rfl <;> refine ⟨?_, ?_, ?_⟩ <;> decide +kernel

/-- The same over the enabled lanes of an EVEX row. -/
theorem witness_EvexRowsRaiseSimdException :
    (∀ vl, EvexReady vl (fields false 1) 6 (sInvalid 0x1F00#32) ∧ EvexReady vl (fields false 1) 6 (sInexact 0x0F80#32)
      ∧ EvexSource vl (eReg false 1) (sInvalid 0x1F00#32) (reg3 (sInvalid 0x1F00#32))
      ∧ EvexSource vl (eReg false 1) (sInexact 0x0F80#32) (reg3 (sInexact 0x0F80#32)))
    ∧ ∀ L ∈ [l132, l213, l231], ∀ vl ∈ [VLen.l128, .l256, .l512],
      (∃ j < vl.lanes, enabled (sInvalid 0x1F00#32) 1 j = true
        ∧ ¬ Masked 0x1F00#32 (evexLanes L (fields false 1) (sInvalid 0x1F00#32) (reg3 (sInvalid 0x1F00#32)) j).pre)
      ∧ (∀ j < vl.lanes, enabled (sInexact 0x0F80#32) 1 j = true →
        Masked 0x0F80#32 (evexLanes L (fields false 1) (sInexact 0x0F80#32) (reg3 (sInexact 0x0F80#32)) j).pre)
      ∧ ∃ j < vl.lanes, enabled (sInexact 0x0F80#32) 1 j = true
        ∧ ¬ Masked 0x0F80#32 (evexLanes L (fields false 1) (sInexact 0x0F80#32) (reg3 (sInexact 0x0F80#32)) j).post := by
  refine ⟨fun vl => ⟨(ready_evex vl).2.2.1, (ready_evex vl).2.2.2, fun _ _ _ => rfl, fun _ _ _ => rfl⟩, ?_⟩
  intro L hL vl hvl
  simp only [List.mem_cons, List.not_mem_nil, or_false] at hL hvl
  simp only [← unmasked_eq_false_iff]
  rcases hL with rfl | rfl | rfl <;> rcases hvl with rfl | rfl | rfl <;> refine ⟨?_, ?_, ?_⟩ <;> decide +kernel

/-- Sixteen bytes: the shortest over-long instruction. -/
theorem witness_OverlongInstructionsFault :
    s0.mode = .bits64
      ∧ 15 < (Instr.vfnmsub132psVex128 ⟨⟨List.replicate 11 .opSize, []⟩, 1, 2, .reg 3⟩).length := by decide +kernel

/-- The mode and length hypotheses of the three invalid-opcode statements with each reason in turn: the
state's (real-address mode, virtual-8086 mode, `OSXSAVE`, `XCR0`, `FMA`) and the encoding's. -/
theorem witness_VexInvalidOpcodeReasons :
    (State.reset.mode ≠ .protected32 ∧ State.reset.mode ≠ .compatibility ∧ oReg.length ≤ 15 ∧ State.reset.cr0PE = false)
      ∧ (let s := { s0 with rflags := 0x20002#64 }
        s.mode ≠ .protected32 ∧ s.mode ≠ .compatibility ∧ s.rflagsVM = true)
      ∧ (let s := { s0 with cr4 := 0#64 }
        s.mode ≠ .protected32 ∧ s.mode ≠ .compatibility ∧ s.cr4OSXSAVE = false)
      ∧ (let s := { s0 with xcr0 := 3#64 }
        s.mode ≠ .protected32 ∧ s.mode ≠ .compatibility ∧ s.xcr0.extractLsb' 1 2 ≠ 3#2)
      ∧ (let s := { s0 with cfg := { s0.cfg with fma := false } }
        s.mode ≠ .protected32 ∧ s.mode ≠ .compatibility ∧ s.cfg.fma = false)
      ∧ s0.mode ≠ .protected32 ∧ s0.mode ≠ .compatibility
      ∧ (let o : VexOperands := ⟨⟨[.lock], []⟩, 1, 2, .reg 3⟩
        o.length ≤ 15 ∧ LegacyPrefix.lock ∈ o.pre.legacy)
      ∧ (let o : VexOperands := ⟨⟨[.opSize, .repne, .rep], [8]⟩, 1, 2, .reg 3⟩
        o.length ≤ 15 ∧ LegacyPrefix.opSize ∈ o.pre.legacy ∧ LegacyPrefix.repne ∈ o.pre.legacy
          ∧ LegacyPrefix.rep ∈ o.pre.legacy ∧ o.pre.rex ≠ []) := by decide +kernel

theorem witness_EvexInvalidOpcodeReasons :
    s0.mode ≠ .protected32 ∧ s0.mode ≠ .compatibility ∧ (eReg true 0).length ≤ 15
      ∧ ((eReg true 0).f.z = true ∧ (eReg true 0).f.aaa = 0#3)
      ∧ (let o : EvexOperands := ⟨⟨⟨[.rep], [0]⟩, true, false, false, 0, 1, 2⟩, .reg 3⟩
        o.length ≤ 15 ∧ LegacyPrefix.rep ∈ o.f.pre.legacy ∧ o.f.pre.rex ≠ [] ∧ o.f.p0bit3 = true ∧ o.f.p1bit2 = false)
      ∧ (let s := { s0 with xcr0 := 7#64, cfg := { s0.cfg with avx512vl := false, avx512f := false } }
        s.mode ≠ .protected32 ∧ s.mode ≠ .compatibility ∧ s.xcr0.extractLsb' 5 3 ≠ 7#3 ∧ s.cfg.avx512f = false
          ∧ s.cfg.avx512vl = false) := by decide +kernel

theorem witness_EmbeddedRoundingInvalidOpcodeReasons :
    let o : EvexErOperands := ⟨⟨⟨[.lock, .opSize, .repne, .rep], [15]⟩, true, false, true, 0, 1, 2⟩, 3, 3⟩
    s0.mode ≠ .protected32 ∧ s0.mode ≠ .compatibility ∧ o.length ≤ 15 ∧ LegacyPrefix.lock ∈ o.f.pre.legacy
      ∧ o.f.pre.rex ≠ [] ∧ o.f.p0bit3 = true ∧ o.f.p1bit2 = false ∧ (o.f.z = true ∧ o.f.aaa = 0#3) := by
  decide +kernel

/-- `TS` set in a state that is ready without it. -/
theorem witness_TaskSwitchedRaisesDeviceNotAvailable :
    let s := { s0 with cr0 := s0.cr0 ||| 0x8#64 }
    let s' := { s with cr0 := s.cr0 &&& ~~~0x8#64 }
    s.cr0TS = true ∧ VexReady (oMem (.base 4 .none)) s'
      ∧ EvexReady .l128 (fields false 1) 6 s' ∧ EvexReady .l256 (fields false 1) 6 s'
      ∧ EvexReady .l512 (fields false 1) 6 s' := by
  unfold VexReady EvexReady; decide +kernel

/-- The four outcomes of a memory operand of a VEX row: a wrap (`x[6]` is 8 below 2^64), a non-canonical
address through `rsp` and through another register, and a byte outside the map (with the lower bytes
inside). -/
theorem witness_VexOperandFaultOrder :
    VexReady (oMem (.base 6 .none)) s0 ∧ VexReady (oMem (.sib 0 4 4 .none)) s0
      ∧ VexReady (oMem (.sib 0 6 4 (.d8 8))) s0 ∧ VexReady (oMem (.base 0 (.d8 0x34))) s0
      ∧ 2 ^ 64 < (linearAddr s0 noPre 5 1 (.base 6 .none)).toNat + 16
      ∧ (linearAddr s0 noPre 6 1 (.sib 0 4 4 .none)).toNat + 32 ≤ 2 ^ 64
      ∧ isCanonical (byteAddr (linearAddr s0 noPre 6 1 (.sib 0 4 4 .none)) 0) = false
      ∧ (formBase (.sib 0 4 4 .none) = some 4#4) ∧ (formBase (.base 0 .none) = some 0#4)
      ∧ (let a := linearAddr s0 noPre 6 1 (.base 0 (.d8 0x34))
        a.toNat + 16 ≤ 2 ^ 64 ∧ (∀ k < 16, isCanonical (byteAddr a k) = true)
          ∧ s0.byteAt (byteAddr a 12) = none ∧ ∀ k < 12, s0.byteAt (byteAddr a k) ≠ none) := by
  unfold VexReady; decide +kernel

/-- The last byte of the operand is the first non-canonical one, through a register that is not `rsp` or
`rbp`. -/
theorem witness_VexOperandFaultOrder_boundary :
    let s := { s0 with x := s0.x.set 0 0x00007FFFFFFFFFF1#64 }
    VexReady (oMem atX0) s ∧ (linearAddr s noPre 5 1 atX0).toNat + 16 ≤ 2 ^ 64
      ∧ (∀ k < 15, isCanonical (byteAddr (linearAddr s noPre 5 1 atX0) k) = true)
      ∧ isCanonical (byteAddr (linearAddr s noPre 5 1 atX0) 15) = false := by
  unfold VexReady; decide +kernel

/-- The same for EVEX rows with lanes 1 and 3 disabled: an operand of which the disabled lane 3 alone wraps,
and the misaligned broadcast element with alignment checking enabled. -/
theorem witness_EvexOperandFaultOrder :
    (∀ vl, EvexReady vl (fields false 1) (eMem 1 (.base 6 (.d32 0xFFFFFFFC))).length s0)
      ∧ ((linearAddr s0 noPre 10 16 (.base 6 (.d32 0xFFFFFFFC))).toNat + 12 = 2 ^ 64 ∧ enabled s0 1 3 = false)
      ∧ (isCanonical (byteAddr (linearAddr s0 noPre 7 4 (.sib 0 4 4 .none)) 3) = false ∧ enabled s0 1 (3 / 4) = true)
      ∧ (let s := { s0 with cr0 := s0.cr0 ||| 0x40000#64, rflags := 0x40002#64, x := s0.x.set 0 0x10000002#64 }
        (∀ vl, EvexReady vl (fields false 1) (eBcst 1 atX0).length s)
          ∧ (linearAddr s noPre 6 4 atX0).toNat + 4 ≤ 2 ^ 64 ∧ enabled s 1 0 = true
          ∧ (∀ k < 4, isCanonical (byteAddr (linearAddr s noPre 6 4 atX0) k) = true)
          ∧ (s.cr0AM = true ∧ s.rflagsAC = true ∧ s.cpl = 3#2) ∧ ¬ 4 ∣ (linearAddr s noPre 6 4 atX0).toNat)
      ∧ (let s := { s0 with x := s0.x.set 0 0x1000003F#64 }
        s.byteAt (byteAddr (linearAddr s noPre 6 4 atX0) 0) ≠ none
          ∧ s.byteAt (byteAddr (linearAddr s noPre 6 4 atX0) 1) = none) := by
  refine ⟨fun vl => ?_, ?_, ?_, ⟨fun vl => ?_, ?_⟩, ?_⟩
  · unfold EvexReady; cases vl <;> decide +kernel
  · decide +kernel
  · decide +kernel
  · unfold EvexReady; cases vl <;> decide +kernel
  · decide +kernel
  · decide +kernel

/-- A broadcast that raises `#AC`. -/
theorem witness_OnlyBroadcastRaisesAlignmentCheck :
    let s := { s0 with cr0 := s0.cr0 ||| 0x40000#64, rflags := 0x40002#64, x := s0.x.set 0 0x10000002#64 }
    exec (.vfnmsub132psEvex512 false (eBcst 1 atX0)) s = .fault (.ac 0#32 s) :=
  eq_of_faultIs (by decide +kernel)

/-- A step that faults with `MXCSR` changed, and one that faults without. -/
theorem witness_FaultsArePrecise :
    let bytes : Bytes := [0xC4, 0xE2, 0x69, 0x9E, 0xCB]
    let s := withProgram (sInvalid 0x1F00#32) bytes
    let s' := { s with cr0 := s.cr0 ||| 0x8#64 }
    step s = .fault (.xm (s.setMxcsr 0x1F01#32)) ∧ step s' = .fault (.nm s') :=
  ⟨eq_of_faultIs (by decide +kernel), eq_of_faultIs (by decide +kernel)⟩

theorem witness_FaultsRepeat :
    exec (.vfnmsub132psVex128 oReg) (sInvalid 0x1F00#32) = .fault (.xm (sInvalid 0x1F01#32)) :=
  eq_of_faultIs (by decide +kernel)

/-! ### Witnesses: the whole machine, and what cannot matter -/

theorem s0_mem_wf : s0.mem.wf = true := by decide +kernel

/-- A state of the invariant that steps, on the narrowest machine. -/
theorem witness_StepKeepsInvariant :
    let s := withProgram
      { s0 with
        k := Vector.replicate 8 0xFFFF#64
        cfg := { s0.cfg with avx512f := false, avx512vl := false, kwidth := .w16 }
        v := (Vector.replicate 32 0#512).set 1 0x3F800000#512 }
      [0xC4, 0xE2, 0x69, 0x9E, 0xCB]
    Inv s ∧ (mxcsrRipAfter (step s)).isSome = true := by
  unfold Machine.Inv; decide +kernel

theorem witness_StepFrame :
    mxcsrRipAfter (step (withProgram (sInexact 0x1F80#32) [0x62, 0xF2, 0x6D, 0x89, 0x9E, 0xCB]))
      = some (0x1FA0#32, 0x20000006#64) := by decide +kernel

/-- Nine bytes are too few for two instructions. -/
theorem witness_RunsEnd :
    let s := withProgram s0 [0xC4, 0xE2, 0x69, 0x9E, 0xCB, 0xC4, 0xE2, 0x69, 0x9E]
    s.prog.bytes.length < 2 ^ 64 ∧ s.prog.bytes.length < 5 * 2 := by decide +kernel

/-- A run that ends at the end of the program, and one that ends with a fault. -/
theorem witness_RunsEndWithTheState :
    let s := withProgram s0 [0xC4, 0xE2, 0x69, 0x9E, 0xCB]
    let t := { s with rip := 0x20000005#64, v := s.v.set 1 (packLanes 4 fun _ => 0xC1200000#32) }
    let s' := { s with cr0 := s.cr0 ||| 0x8#64 }
    Sys2Proof.core.run 2 s = .refused (.endOfProgram t) ∧ Sys2Proof.core.run 2 s' = .fault (.nm s') :=
  ⟨eq_of_refusalIs (by decide +kernel), eq_of_faultIs (by decide +kernel)⟩

/-- Every other bit turned over. -/
theorem witness_OtherControlBitsDoNotMatter :
    let flip : Word64 → Word64 → Word64 := fun v keep => (v &&& keep) ||| (~~~v &&& ~~~keep)
    let c0 := flip s0.cr0 0x40009#64
    let c4 := flip s0.cr4 0x40400#64
    let fl := flip s0.rflags 0x60000#64
    let xc := flip s0.xcr0 0xE6#64
    c0.getLsbD 0 = s0.cr0.getLsbD 0 ∧ c0.getLsbD 3 = s0.cr0.getLsbD 3 ∧ c0.getLsbD 18 = s0.cr0.getLsbD 18
      ∧ c4.getLsbD 10 = s0.cr4.getLsbD 10 ∧ c4.getLsbD 18 = s0.cr4.getLsbD 18
      ∧ fl.getLsbD 17 = s0.rflags.getLsbD 17 ∧ fl.getLsbD 18 = s0.rflags.getLsbD 18
      ∧ (∀ b ∈ [1, 2, 5, 6, 7], xc.getLsbD b = s0.xcr0.getLsbD b) ∧ c0 ≠ s0.cr0 ∧ xc ≠ s0.xcr0 := by
  decide +kernel

theorem witness_OpmaskHighBitsDoNotMatter :
    let k := (Vector.replicate 8 0xABCDEF0123450000#64).set 1 0xFFFF0000FFF5FFF5#64
    (∀ a : Fin 8, a ≠ 0 → k[a].extractLsb' 0 16 = s0.k[a].extractLsb' 0 16)
      ∧ k[(0 : Fin 8)] ≠ s0.k[(0 : Fin 8)] := by decide +kernel

/-- The map without the bytes of lanes 1 and 3; and a broadcast with no lane enabled, over an empty map. -/
theorem witness_BytesOfDisabledLanesDoNotMatter :
    let mem : MemMap := { cells := threes.filter fun c => c.1 % 16 / 4 == 0 || c.1 % 16 / 4 == 2 || decide (0x10000010 ≤ c.1),
                          pBit := false, rsvdBit := false, device := [] }
    mem.pBit = s0.mem.pBit ∧ mem.rsvdBit = s0.mem.rsvdBit ∧ mem ≠ s0.mem
      ∧ (∀ k < 4 * VLen.l512.lanes, enabled s0 1 (k / 4) = true →
        State.byteAt { s0 with mem := mem } (byteAddr (linearAddr s0 noPre 6 64 atX0) k)
          = s0.byteAt (byteAddr (linearAddr s0 noPre 6 64 atX0) k))
      ∧ ∀ j < VLen.l512.lanes, enabled s0 2 j = false := by decide +kernel

/-- Another rounding mode, all flags set, all masks clear. -/
theorem witness_EmbeddedRoundingReadsOnlyDazAndFtz :
    mxcsrDAZ 0x603F#32 = mxcsrDAZ s0.mxcsr ∧ mxcsrFTZ 0x603F#32 = mxcsrFTZ s0.mxcsr := by decide +kernel

end Sys2Proof.Tests
end

section
/-!
PROOFS. What every step keeps, which states and bytes a step runs, and the value that a lane rounds
(O53, O2, O6, O10, O24).
-/

namespace Sys2Proof

/-! ### What the decoder reads of the bytes -/

/-- A VEX decoding that answers: the payload bytes pass the tests of rule R99 and the operands are read
after the opcode byte. -/
theorem decodeVex_ok {pre : Prefixes} {bs : Bytes} {p : Instr × Bytes} (h : decodeVex pre bs = .ok p) :
    ∃ p1 p2 op f ops, bs = p1 :: p2 :: op :: ops ∧ decodeVexOperands pre f p1 p2 ops = .ok p
      ∧ ∀ ops', decodeVex pre (p1 :: p2 :: op :: ops') = decodeVexOperands pre f p1 p2 ops' := by
  rcases bs with _ | ⟨p1, _ | ⟨p2, _ | ⟨op, ops⟩⟩⟩ <;> simp only [decodeVex] at h
  · simp at h
  · split at h <;> simp at h
  · repeat' split at h
    all_goals simp at h
  · split at h
    · simp at h
    · next c1 =>
      split at h
      · simp at h
      · next c2 =>
        split at h
        · simp at h
        · next f hf =>
          exact ⟨p1, p2, op, f, ops, rfl, h, fun ops' => by simp only [decodeVex, if_neg c1, if_neg c2, hf]⟩

/-- An EVEX decoding that answers, in the same way. -/
theorem decodeEvex_ok {pre : Prefixes} {bs : Bytes} {p : Instr × Bytes} (h : decodeEvex pre bs = .ok p) :
    ∃ p0 p1 p2 op f ops, bs = p0 :: p1 :: p2 :: op :: ops ∧ decodeEvexOperands pre f p0 p1 p2 ops = .ok p
      ∧ ∀ ops', decodeEvex pre (p0 :: p1 :: p2 :: op :: ops') = decodeEvexOperands pre f p0 p1 p2 ops' := by
  rcases bs with _ | ⟨p0, _ | ⟨p1, _ | ⟨p2, _ | ⟨op, ops⟩⟩⟩⟩ <;> simp only [decodeEvex] at h
  · simp at h
  · split at h <;> simp at h
  · repeat' split at h
    all_goals simp at h
  · repeat' split at h
    all_goals simp at h
  · split at h
    · simp at h
    · next c0 =>
      split at h
      · simp at h
      · next c1 =>
        split at h
        · simp at h
        · next f hf =>
          exact ⟨p0, p1, p2, op, f, ops, rfl, h, fun ops' => by
            simp only [decodeEvex, if_neg c0, if_neg c1, hf]⟩

/-- A decoding that answers: admitted prefixes, then C4h or 62h and what its decoder reads (rule R99). -/
theorem decode_ok {bs : Bytes} {p : Instr × Bytes} (h : decode bs = .ok p) :
    ∃ pre b ops, pre.admitted = true ∧ bs = pre.bytes ++ b :: ops
      ∧ (b = 0xC4#8 ∧ decodeVex pre ops = .ok p ∨ b = 0x62#8 ∧ decodeEvex pre ops = .ok p) := by
  unfold decode at h
  dsimp only at h
  split at h
  · next ha =>
    have hbytes : bs = (⟨(takeLegacy bs).1, (takeRex (takeLegacy bs).2).1⟩ : Prefixes).bytes
        ++ (takeRex (takeLegacy bs).2).2 := by
      rw [Prefixes.bytes, List.append_assoc, ← takeRex_eq, ← takeLegacy_eq]
    cases hr : (takeRex (takeLegacy bs).2).2 with
    | nil => simp [hr, decodeAfterPrefixes] at h
    | cons b ops =>
      rw [hr] at h hbytes
      refine ⟨_, b, ops, ha, hbytes, ?_⟩
      simp only [decodeAfterPrefixes] at h
      split at h
      · next hb => exact .inl ⟨hb, h⟩
      · split at h
        · next hb => exact .inr ⟨hb, h⟩
        · simp at h
  · simp at h

theorem decode_nil : decode [] = .error (.truncated false) := rfl

/-- Decoding after written-out admitted prefixes and C4h. -/
theorem decode_pre_vex {pre : Prefixes} (ha : pre.admitted = true) (bs : Bytes) :
    decode (pre.bytes ++ 0xC4#8 :: bs) = decodeVex pre bs := by
  rw [decode_pre pre bs ha (by decide) (by decide)]
  rfl

/-- Decoding after written-out admitted prefixes and 62h. -/
theorem decode_pre_evex {pre : Prefixes} (ha : pre.admitted = true) (bs : Bytes) :
    decode (pre.bytes ++ 0x62#8 :: bs) = decodeEvex pre bs := by
  rw [decode_pre pre bs ha (by decide) (by decide)]
  rfl

/-- `used` is what a memory operand takes of the bytes; anything may follow it. -/
theorem takeMem_used {mod : BitVec 2} {rm : BitVec 3} {b x : Bool} {bs rest : Bytes} {m : MemForm}
    (h : takeMem mod rm b x bs = some (m, rest)) :
    ∃ used, bs = used ++ rest ∧ used.length = m.length
      ∧ ∀ tail, takeMem mod rm b x (used ++ tail) = some (m, tail) := by
  obtain ⟨-, hlen, hdrop⟩ := takeMem_some h
  refine ⟨bs.take m.length, ?_, ?_, fun tail => takeMem_stable h⟩
  · rw [← hdrop, List.take_append_drop]
  · rw [List.length_take]; omega

/-- A decoder `p` answers `i` and `rest` for `bs` because of the first `n` bytes alone. -/
def ReadsFirst (p : Bytes → Except DecodeError (Instr × Bytes)) (n : Nat) (i : Instr) (bs rest : Bytes) : Prop :=
  ∃ used, bs = used ++ rest ∧ used.length = n ∧ ∀ tail, p (used ++ tail) = .ok (i, tail)

/-- Bytes `front` before those that `p` reads, for a decoder `q` that goes on with `p` after them. -/
theorem ReadsFirst.prepend {p q : Bytes → Except DecodeError (Instr × Bytes)} {n : Nat} {i : Instr}
    {bs rest : Bytes} (h : ReadsFirst p n i bs rest) (front : Bytes)
    (hq : ∀ ops, q (front ++ ops) = p ops) : ReadsFirst q (front.length + n) i (front ++ bs) rest := by
  obtain ⟨used, rfl, hlen, hp⟩ := h
  refine ⟨front ++ used, by simp, by simp [hlen], fun tail => ?_⟩
  rw [List.append_assoc, hq, hp]

/-- The operands of a VEX row take the bytes after the opcode that the row's length counts (rule R102). -/
theorem decodeVexOperands_readsFirst {pre : Prefixes} {f : Form} {p1 p2 : Byte} {bs rest : Bytes} {i : Instr}
    (h : decodeVexOperands pre f p1 p2 bs = .ok (i, rest)) :
    ∃ n, pre.length + 4 + n = i.length ∧ ReadsFirst (decodeVexOperands pre f p1 p2) n i bs rest := by
  cases bs with
  | nil => simp [decodeVexOperands] at h
  | cons modrm bs =>
    simp only [decodeVexOperands] at h
    split at h
    · next hmod =>
      obtain ⟨rfl, rfl⟩ := Prod.mk.inj (Except.ok.inj h)
      exact ⟨1, by simp [VexOperands.length, VexSrc3.length],
        [modrm], rfl, rfl, fun tail => by simp [decodeVexOperands, hmod]⟩
    · next hmod =>
      split at h
      · next m bs' hm =>
        obtain ⟨rfl, rfl⟩ := Prod.mk.inj (Except.ok.inj h)
        obtain ⟨used, rfl, hlen, hused⟩ := takeMem_used hm
        exact ⟨1 + m.length, by simp [VexOperands.length, VexSrc3.length]; omega,
          modrm :: used, rfl, by simp [hlen]; omega, fun tail => by
            simp only [List.cons_append, decodeVexOperands, if_neg hmod, hused]⟩
      · simp at h

/-- The operands of an EVEX row take the bytes after the opcode that the row's length counts (rule R102). -/
theorem decodeEvexOperands_readsFirst {pre : Prefixes} {f : Form} {p0 p1 p2 : Byte} {bs rest : Bytes}
    {i : Instr} (h : decodeEvexOperands pre f p0 p1 p2 bs = .ok (i, rest)) :
    ∃ n, pre.length + 5 + n = i.length ∧ ReadsFirst (decodeEvexOperands pre f p0 p1 p2) n i bs rest := by
  cases bs with
  | nil => simp [decodeEvexOperands] at h
  | cons modrm bs =>
    simp only [decodeEvexOperands] at h
    split at h
    · next hmod =>
      split at h
      · next hb =>
        obtain ⟨rfl, rfl⟩ := Prod.mk.inj (Except.ok.inj h)
        exact ⟨1, by simp [EvexErOperands.length],
          [modrm], rfl, rfl, fun tail => by simp [decodeEvexOperands, hmod, hb]⟩
      · next hb =>
        obtain ⟨rfl, rfl⟩ := Prod.mk.inj (Except.ok.inj h)
        exact ⟨1, by simp [EvexOperands.length, EvexSrc3.length],
          [modrm], rfl, rfl, fun tail => by
            simp only [List.cons_append, List.nil_append, decodeEvexOperands, if_pos hmod, if_neg hb]⟩
    · next hmod =>
      split at h
      · next m bs' hm =>
        obtain ⟨rfl, rfl⟩ := Prod.mk.inj (Except.ok.inj h)
        obtain ⟨used, rfl, hlen, hused⟩ := takeMem_used hm
        have hsrc : (if p2.getLsbD 4 then EvexSrc3.bcst m else .mem m).length = m.length := by
          split <;> rfl
        exact ⟨1 + m.length, by simp only [Machine.evexInstr_length, EvexOperands.length, hsrc]; omega,
          modrm :: used, rfl, by simp [hlen]; omega, fun tail => by
            simp only [List.cons_append, decodeEvexOperands, if_neg hmod, hused]⟩
      · simp at h

/-- The decoder takes the bytes of the instruction that its length counts, and looks at no other (rules R99,
R102). -/
theorem decode_readsFirst {bs rest : Bytes} {i : Instr} (h : decode bs = .ok (i, rest)) :
    ReadsFirst decode i.length i bs rest := by
  obtain ⟨pre, b, ops, ha, rfl, ⟨rfl, hv⟩ | ⟨rfl, he⟩⟩ := decode_ok h
  · obtain ⟨p1, p2, op, f, ops, rfl, ho, hq⟩ := decodeVex_ok hv
    obtain ⟨n, hlen, hr⟩ := decodeVexOperands_readsFirst ho
    have := hr.prepend (q := decode) (pre.bytes ++ [0xC4#8, p1, p2, op]) fun ops' => by
      rw [List.append_assoc, ← hq]
      exact decode_pre_vex ha _
    simpa [← hlen] using this
  · obtain ⟨p0, p1, p2, op, f, ops, rfl, ho, hq⟩ := decodeEvex_ok he
    obtain ⟨n, hlen, hr⟩ := decodeEvexOperands_readsFirst ho
    have := hr.prepend (q := decode) (pre.bytes ++ [0x62#8, p0, p1, p2, op]) fun ops' => by
      rw [List.append_assoc, ← hq]
      exact decode_pre_evex ha _
    simpa [← hlen] using this

/-- The bytes hold the decoded instruction whole. -/
theorem decode_ok_length {bs rest : Bytes} {i : Instr} (h : decode bs = .ok (i, rest)) :
    bs.length = i.length + rest.length := by
  obtain ⟨used, rfl, hlen, -⟩ := decode_readsFirst h
  simp [hlen]

/-- The instruction's own bytes decode to it, whatever follows them. -/
theorem decode_ok_take {bs rest : Bytes} {i : Instr} (h : decode bs = .ok (i, rest)) (tail : Bytes) :
    decode (bs.take i.length ++ tail) = .ok (i, tail) := by
  obtain ⟨used, rfl, hlen, hd⟩ := decode_readsFirst h
  rw [← hlen, List.take_left, hd]

theorem decode_ok_append {bs rest : Bytes} {i : Instr} (h : decode bs = .ok (i, rest)) (tail : Bytes) :
    decode (bs ++ tail) = .ok (i, rest ++ tail) := by
  obtain ⟨used, rfl, -, hd⟩ := decode_readsFirst h
  rw [List.append_assoc, hd]

/-- A beginning of the bytes that holds the instruction decodes to it. -/
theorem decode_take_of_le {bs rest : Bytes} {i : Instr} {n : Nat} (h : decode bs = .ok (i, rest))
    (hn : i.length ≤ n) : ∃ rest', decode (bs.take n) = .ok (i, rest') := by
  refine ⟨(bs.drop i.length).take (n - i.length), ?_⟩
  have hsplit : bs.take n = bs.take i.length ++ (bs.drop i.length).take (n - i.length) := by
    rw [← List.take_add, Nat.add_sub_cancel' hn]
  rw [hsplit, decode_ok_take h]

/-- A beginning of the bytes too short for the instruction is cut off: any other answer would stand. -/
theorem decode_take_of_lt {bs rest : Bytes} {i : Instr} {n : Nat} (h : decode bs = .ok (i, rest))
    (hn : n < i.length) : ∃ g, decode (bs.take n) = .error (.truncated g) := by
  cases hd : decode (bs.take n) with
  | ok p =>
    obtain ⟨j, rest'⟩ := p
    have happ := decode_ok_append hd (bs.drop n)
    rw [List.take_append_drop, h] at happ
    obtain ⟨rfl, -⟩ := Prod.mk.inj (Except.ok.inj happ)
    have hlen := decode_ok_length hd
    rw [List.length_take] at hlen
    omega
  | error e =>
    by_cases ht : ∃ g, e = .truncated g
    · obtain ⟨g, rfl⟩ := ht
      exact ⟨g, rfl⟩
    · have happ := decode_error_append (bs.drop n) hd fun g hg => ht ⟨g, hg⟩
      rw [List.take_append_drop, h] at happ
      simp at happ

end Sys2Proof

namespace Sys2Proof.Machine

/-! ### Fetching an instruction that stands whole at `RIP` -/

/-- An instruction all of whose bytes can be fetched is decoded from the window. -/
theorem decode_fetchWindow {a : Word64} {bs rest : Bytes} {i : Instr} (hd : decode bs = .ok (i, rest))
    (hw : a.toNat + i.length ≤ 2 ^ 64) (hc : ∀ k < i.length, isCanonical (byteAddr a k) = true) :
    ∃ rest', decode (fetchWindow a bs).1 = .ok (i, rest') := by
  have hlen : i.length ≤ bs.length := by have := decode_ok_length hd; omega
  obtain ⟨tail, ht⟩ := fetchWindow_take hlen hw hc
  exact ⟨tail, by rw [ht, decode_ok_take hd]⟩

/-- At most fifteen bytes: the fetch gives the instruction (rule R69). -/
theorem decodeFetched_of_length_le {a : Word64} {bs rest : Bytes} {i : Instr} {all : Bytes × FetchLimit}
    (hd : decode bs = .ok (i, rest)) (hw : a.toNat + i.length ≤ 2 ^ 64)
    (hc : ∀ k < i.length, isCanonical (byteAddr a k) = true) (hl : i.length ≤ maxFetch) :
    decodeFetched (fetchWindow a (bs.take maxFetch)) all = .instr i := by
  obtain ⟨_, htake⟩ := decode_take_of_le hd hl
  obtain ⟨_, hwin⟩ := decode_fetchWindow htake hw hc
  simp [decodeFetched, hwin]

/-- More than fifteen bytes: fifteen do not complete the instruction, all of them show that it is of the group
(rules R99, R102). -/
theorem decodeFetched_of_lt_length {a : Word64} {bs rest : Bytes} {i : Instr} (hd : decode bs = .ok (i, rest))
    (hw : a.toNat + i.length ≤ 2 ^ 64) (hc : ∀ k < i.length, isCanonical (byteAddr a k) = true)
    (hl : maxFetch < i.length) :
    decodeFetched (fetchWindow a (bs.take maxFetch)) (fetchWindow a bs) = .stop (.raise .gp) := by
  have hlen : (bs.take maxFetch).length = maxFetch := by
    have := decode_ok_length hd
    rw [List.length_take]
    omega
  have hwin : fetchWindow a (bs.take maxFetch) = (bs.take maxFetch, .programEnd) :=
    fetchWindow_all (by omega) fun k hk => hc k (by omega)
  obtain ⟨_, hcut⟩ := decode_take_of_lt hd hl
  obtain ⟨_, hall⟩ := decode_fetchWindow hd hw hc
  simp [decodeFetched, hwin, hcut, hlen, decideLong, hall]

/-! ### `exec` behind its gate -/

theorem gate_overlong {s : State} {len : Nat} (hm : s.mode = .bits64) (hl : 15 < len) (e c : Bool) :
    gate s len e c = some (.raise .gp) := by
  simp [gate, modeRefused_bits64 hm, hl]

/-- An instruction of more than fifteen bytes is `#GP(0)`, whatever else holds (rule R102, D16). -/
theorem exec_overlong {i : Instr} {s : State} (hm : s.mode = .bits64) (hl : 15 < i.length) :
    exec i s = takeException .gp s := by
  obtain ⟨f, l, o, rfl⟩ | ⟨f, l', l, o, rfl⟩ | ⟨f, o, rfl⟩ := instr_cases i
  · rw [vexInstr_length] at hl
    rw [exec_vexInstr, vexFnmsub, gate_overlong hm hl]
    rfl
  · rw [evexInstr_length] at hl
    rw [exec_evexInstr, evexFnmsub, gate_overlong hm hl]
    rfl
  · rw [evexErInstr_length] at hl
    rw [exec_evexErInstr, evexErFnmsub, gate_overlong hm hl]
    rfl

/-- Checks that end in a next state have let the instruction pass. -/
theorem unlessStopped_next {check : Option Stop} {s t : State} {go : Result}
    (h : unlessStopped check s go = .next t) : check = none ∧ go = .next t := by
  cases check with
  | none => exact ⟨rfl, h⟩
  | some st => cases st <;> simp [unlessStopped, Stop.result, takeException, refuse] at h

/-- Only a processor with AVX512F lets an EVEX row pass its gate (rule R223). -/
theorem avx512f_of_evex_gate {s : State} {len : Nat} {e : Bool} {vl : VLen}
    (h : gate s len e (evexStateUD s vl) = none) : s.cfg.avx512f = true := by
  obtain ⟨-, -, hud, -⟩ := (gate_eq_none_iff _ _ _ _).1 h
  simp only [evexStateUD, Bool.or_eq_false_iff, Bool.not_eq_false'] at hud
  obtain ⟨-, ⟨-, hf⟩, -⟩ := hud
  exact hf

/-- A completed row is no wider than `MAXVL`: it has at most eight lanes unless AVX512F is present (rules R7,
R223). -/
theorem exec_next_lanes {i : Instr} {s t : State} (h : exec i s = .next t) :
    (rowLength i).lanes ≤ 8 ∨ s.cfg.avx512f = true := by
  obtain ⟨f, l, o, rfl⟩ | ⟨f, l', l, o, rfl⟩ | ⟨f, o, rfl⟩ := instr_cases i
  · left
    have hrow : rowLength (vexInstr f l o) = if l then .l256 else .l128 := by cases f <;> cases l <;> rfl
    rw [hrow]
    cases l <;> decide
  · rw [exec_evexInstr] at h
    exact .inr (avx512f_of_evex_gate (unlessStopped_next h).1)
  · rw [exec_evexErInstr] at h
    exact .inr (avx512f_of_evex_gate (unlessStopped_next h).1)

/-! ### Steps -/

theorem step_of_launchRefusal {s : State} {c : RefusalCause} (h : launchRefusal s = some c) :
    step s = refuse c s := by
  simp [step, h]

theorem step_of_fetch_instr {s : State} {i : Instr} (hl : launchRefusal s = none) (hf : fetch s = .instr i) :
    step s = exec i s := by
  simp [step, hl, hf]

theorem step_of_fetch_stop {s : State} {st : Stop} (hl : launchRefusal s = none) (hf : fetch s = .stop st) :
    step s = st.result s := by
  simp [step, hl, hf]

/-! ### The invariant -/

theorem reservedBits_eq_extract (m : BitVec 32) :
    mxcsrReservedBits m = (m.extractLsb' 6 26).extractLsb' 10 16 := by
  ext i hi
  have h : 10 + i < 26 := by omega
  simp [mxcsrReservedBits, h, ← Nat.add_assoc]

/-- Setting flags leaves `MXCSR[31:16]` alone (rules R25, R26). -/
theorem OnlyFlagsSet.reservedBits {m m' : BitVec 32} (h : OnlyFlagsSet m m') :
    mxcsrReservedBits m' = mxcsrReservedBits m := by
  obtain ⟨-, hcontrol, -⟩ := h
  rw [reservedBits_eq_extract, hcontrol, ← reservedBits_eq_extract]

/-- Without AVX512F the registers have 256 bits (rule R7, D2). -/
theorem not_avx512f_of_maxVL {c : Config} (h : maxVL c = 256) : ¬ c.avx512f = true := by
  intro hf
  simp [maxVL, hf] at h

/-- What a completed row leaves of the bits at and above 256: nothing in its destination, when it has at most
eight lanes, and every other register as it was. -/
theorem after_vreg_high {s : State} {m : BitVec 32} {dest : BitVec 5} {kl : Nat} {f : Nat → Lane} {len : Nat}
    (hkl : kl ≤ 8) (h : ∀ r : BitVec 5, (s.vreg r).extractLsb' 256 256 = 0#256) (r : BitVec 5) :
    ((after s m dest kl f len).vreg r).extractLsb' 256 256 = 0#256 := by
  obtain ⟨hhigh, hother, -⟩ := after_frame s m dest (kl := kl) f len
  by_cases hr : r = dest
  · subst hr
    ext b hb
    simp [hhigh (256 + b) (by omega)]
  · rw [hother r hr, h r]

/-- A completed row keeps the invariant when it sets flags of `MXCSR` alone and is no wider than `MAXVL`. -/
theorem after_inv {s : State} {m : BitVec 32} {dest : BitVec 5} {kl : Nat} {f : Nat → Lane} {len : Nat}
    (hs : Inv s) (hm : OnlyFlagsSet s.mxcsr m) (hkl : kl ≤ 8 ∨ s.cfg.avx512f = true) :
    Inv (after s m dest kl f len) := by
  obtain ⟨hwf, hholds, hres, hvl, hv, hk⟩ := hs
  refine ⟨hwf, hholds, hm.reservedBits.trans hres, hvl, fun hmax => ?_, hk⟩
  have hkl8 : kl ≤ 8 := hkl.resolve_right (not_avx512f_of_maxVL (c := s.cfg) hmax)
  exact after_vreg_high hkl8 (hv hmax)

/-- A next state of `exec` meets the invariant when the state before does. -/
theorem exec_inv {i : Instr} {s t : State} (hs : Inv s) (h : exec i s = .next t) : Inv t := by
  obtain ⟨m, dest, f, hm, rfl⟩ := exec_next h
  exact after_inv hs hm (exec_next_lanes h)

/-! ### The obligations -/

/-- Settles O53: a next state comes from `exec` of the fetched instruction, which writes flags of `MXCSR` and
one register of no more bits than `MAXVL`. -/
theorem stepKeepsInvariant : Obligations.StepKeepsInvariant := by
  intro s t hs h
  obtain ⟨-, i, -, hexec⟩ := step_next h
  exact exec_inv hs hexec

/-- Settles O2: the map lists nothing, `MXCSR` is 1F80h, and every register is zero. -/
theorem resetMeetsInvariant : Obligations.ResetMeetsInvariant :=
  ⟨reset_mem_wf, rfl, rfl, fun _ => rfl, fun _ r => by simp, fun _ a => by simp⟩

/-- Settles O6: at most fifteen bytes are fetched and executed; longer ones are `#GP(0)` in the fetch and in
`exec` alike. -/
theorem stepRunsDecodedInstruction : Obligations.StepRunsDecodedInstruction := by
  intro s bytes rest i hmode hres hdev hprog hdecode hwrap hcanon
  have hlaunch := (launchRefusal_none_iff s).2 ⟨hmode, hres, hdev⟩
  have hne : bytes ≠ [] := by
    rintro rfl
    simp [decode_nil] at hdecode
  have hfetch := fetch_of_bytes hprog hne
  rw [fetchAddress_bits64 hmode] at hfetch
  by_cases hlen : i.length ≤ maxFetch
  · rw [decodeFetched_of_length_le hdecode hwrap hcanon hlen] at hfetch
    exact step_of_fetch_instr hlaunch hfetch
  · have hlong : maxFetch < i.length := Nat.lt_of_not_le hlen
    rw [decodeFetched_of_lt_length hdecode hwrap hcanon hlong] at hfetch
    exact (step_of_fetch_stop hlaunch hfetch).trans (exec_overlong hmode hlong).symm

/-- Settles O10: the three tests of a launch state, in their order (log entry 20). -/
theorem unadmittedStatesAreRefused : Obligations.UnadmittedStatesAreRefused := by
  refine fun s => ⟨fun hmode => ?_, fun hmode hres => ?_, fun hmode hres hdev => ?_⟩
  · exact step_of_launchRefusal (c := .unsupportedMode) (by simp [launchRefusal, hmode])
  · exact step_of_launchRefusal (c := .mxcsrReserved) (by simp [launchRefusal, hmode, hres])
  · exact step_of_launchRefusal (c := .deviceMemory) (by simp [launchRefusal, hmode, hres, hdev])

/-- Settles O24: a product of two multiples of 2^-149 is a multiple of 2^-298, and the subtrahend is scaled to
that unit. -/
theorem exactResultIsExact : Obligations.ExactResultIsExact := by
  intro x y z
  have hunit : (2 : ℚ) ^ 298 = 2 ^ 149 * 2 ^ 149 := by rw [← pow_add]
  simp only [exactRational, exactValue, laneValue, hunit]
  push_cast
  ring

end Sys2Proof.Machine
end

section
/-!
PROOFS. What a step can change and refuses by name, what of the registers the meanings read, and the values
after RESET (O9, O54, O57, O58, O1).
-/

namespace Sys2Proof

/-! ### What a beginning of the bytes decodes to -/

/-- A beginning of bytes that hold no instruction holds none: what it is decided to be, all of them are, else
it is cut off. -/
theorem decode_take_of_error {bs : Bytes} {e : DecodeError} (n : Nat) (h : decode bs = .error e) :
    decode (bs.take n) = .error e ∨ ∃ g, decode (bs.take n) = .error (.truncated g) := by
  cases hd : decode (bs.take n) with
  | ok p =>
    have happ := decode_ok_append hd (bs.drop n)
    rw [List.take_append_drop, h] at happ
    simp at happ
  | error e' =>
    by_cases ht : ∃ g, e' = .truncated g
    · obtain ⟨g, rfl⟩ := ht
      exact .inr ⟨g, rfl⟩
    · have happ := decode_error_append (bs.drop n) hd fun g hg => ht ⟨g, hg⟩
      rw [List.take_append_drop, h] at happ
      exact .inl (congrArg _ (Except.error.inj happ).symm)

/-- A beginning of a cut-off instruction is cut off. -/
theorem decode_take_of_truncated {bs : Bytes} {g : Bool} (n : Nat) (h : decode bs = .error (.truncated g)) :
    ∃ g', decode (bs.take n) = .error (.truncated g') :=
  (decode_take_of_error n h).elim (fun h' => ⟨g, h'⟩) id

end Sys2Proof

namespace Sys2Proof.Machine

/-! ### Fetching bytes that hold no admitted instruction -/

/-- The refusal of bytes that the decoder decides against (rule R99 and D7, rule R81 and D15); `none` for bytes
that end too early. -/
def refusedAs : DecodeError → Option RefusalCause
  | .notOfGroup => some .notOfGroup
  | .prefixCombination => some .prefixCombination
  | .truncated _ => none

theorem not_truncated_of_refusedAs {e : DecodeError} {c : RefusalCause} (h : refusedAs e = some c) (g : Bool) :
    e ≠ .truncated g := by
  rintro rfl
  simp [refusedAs] at h

theorem decideLong_of_refusedAs {w : Bytes × FetchLimit} {e : DecodeError} {c : RefusalCause}
    (hd : decode w.1 = .error e) (he : refusedAs e = some c) : decideLong w = .refuse c := by
  cases e <;> simp_all [refusedAs, decideLong]

theorem decodeFetched_of_refusedAs {w all : Bytes × FetchLimit} {e : DecodeError} {c : RefusalCause}
    (hd : decode w.1 = .error e) (he : refusedAs e = some c) :
    decodeFetched w all = .stop (.refuse c) := by
  cases e <;> simp_all [refusedAs, decodeFetched]

/-- Fewer than fifteen bytes cut off an instruction: the reason of their end decides. -/
theorem decodeFetched_of_short {w all : Bytes × FetchLimit} {g : Bool}
    (hd : decode w.1 = .error (.truncated g)) (hl : w.1.length < maxFetch) :
    decodeFetched w all = .stop (cutOff w.2) := by
  simp [decodeFetched, hd, hl]

/-- Fifteen bytes cut off an instruction: the bytes after them decide (rule R99). -/
theorem decodeFetched_of_long {w all : Bytes × FetchLimit} {g : Bool}
    (hd : decode w.1 = .error (.truncated g)) (hl : maxFetch ≤ w.1.length) :
    decodeFetched w all = .stop (decideLong all) := by
  simp [decodeFetched, hd, Nat.not_lt.2 hl]

/-- Bytes cut off at the top of the address space are refused, whatever they show (rule R27, D6). -/
theorem decideLong_of_wraps {bs : Bytes} {g : Bool} (hd : decode bs = .error (.truncated g)) :
    decideLong (bs, .wraps) = .refuse .instructionWraps := by
  cases g <;> simp [decideLong, hd, cutOff]

/-- The window of fifteen bytes, when more bytes than those are below the top of the address space. -/
theorem fetchWindow_maxFetch {a : Word64} {bs : Bytes} {n : Nat} (hn : maxFetch < n) (hl : n ≤ bs.length)
    (hw : a.toNat + n ≤ 2 ^ 64) (hc : ∀ k < n, isCanonical (byteAddr a k) = true) :
    fetchWindow a (bs.take maxFetch) = (bs.take maxFetch, .programEnd) := by
  have hlen : (bs.take maxFetch).length = maxFetch := by rw [List.length_take]; omega
  exact fetchWindow_all (by omega) fun k hk => hc k (by omega)

/-- Bytes that the decoder decides against are refused by name, however many of them it takes to decide. -/
theorem decodeFetched_refused {a : Word64} {bs : Bytes} {n : Nat} {e : DecodeError} {c : RefusalCause}
    (hl : n ≤ bs.length) (hw : a.toNat + n ≤ 2 ^ 64) (hc : ∀ k < n, isCanonical (byteAddr a k) = true)
    (hd : decode (bs.take n) = .error e) (he : refusedAs e = some c) :
    decodeFetched (fetchWindow a (bs.take maxFetch)) (fetchWindow a bs) = .stop (.refuse c) := by
  have hfinal := not_truncated_of_refusedAs he
  have hlong : decode (fetchWindow a bs).1 = .error e := by
    obtain ⟨rest, hr⟩ := fetchWindow_take hl hw hc
    rw [hr]
    exact decode_error_append rest hd hfinal
  by_cases hn : n ≤ maxFetch
  · obtain ⟨rest, hr⟩ := fetchWindow_take (bs := bs.take maxFetch) (by rw [List.length_take]; omega) hw hc
    rw [List.take_take, Nat.min_eq_left hn] at hr
    exact decodeFetched_of_refusedAs (hr ▸ decode_error_append rest hd hfinal) he
  · have hwin := fetchWindow_maxFetch (Nat.lt_of_not_le hn) hl hw hc
    have htake := decode_take_of_error maxFetch hd
    rw [List.take_take, Nat.min_eq_left (by omega)] at htake
    rcases htake with hshort | ⟨g, hcut⟩
    · exact decodeFetched_of_refusedAs (by rw [hwin]; exact hshort) he
    · rw [decodeFetched_of_long (g := g) (by rw [hwin]; exact hcut) (by simp [hwin]; omega),
        decideLong_of_refusedAs hlong he]

/-- A program that ends inside an instruction, or before fifteen bytes show that there is one, is refused as
cut off (log entry 13). -/
theorem decodeFetched_truncated {a : Word64} {bs : Bytes} {g : Bool} (hw : a.toNat + bs.length < 2 ^ 64)
    (hc : ∀ k < bs.length, isCanonical (byteAddr a k) = true) (hd : decode bs = .error (.truncated g))
    (hg : g = true → bs.length < maxFetch) :
    decodeFetched (fetchWindow a (bs.take maxFetch)) (fetchWindow a bs)
      = .stop (.refuse .truncatedProgram) := by
  have hwin : fetchWindow a (bs.take maxFetch) = (bs.take maxFetch, .programEnd) :=
    fetchWindow_all (by rw [List.length_take]; omega)
      fun k hk => hc k (by rw [List.length_take] at hk; omega)
  obtain ⟨g', hcut⟩ := decode_take_of_truncated maxFetch hd
  rw [hwin, fetchWindow_all hw hc]
  by_cases hl : bs.length < maxFetch
  · rw [decodeFetched_of_short hcut (by simp [hl])]
    rfl
  · obtain rfl : g = false := by cases g <;> simp_all
    rw [decodeFetched_of_long hcut (by simp; omega)]
    simp [decideLong, hd, cutOff]

/-- An instruction that runs past the top of the address space is refused, whatever its length (rule R27,
D6). -/
theorem decodeFetched_wraps {a : Word64} {bs : Bytes} {n : Nat} {g : Bool} (hl : n ≤ bs.length)
    (hw : a.toNat + n = 2 ^ 64) (hc : ∀ k < n, isCanonical (byteAddr a k) = true)
    (hd : decode (bs.take n) = .error (.truncated g)) :
    decodeFetched (fetchWindow a (bs.take maxFetch)) (fetchWindow a bs)
      = .stop (.refuse .instructionWraps) := by
  obtain ⟨m, rfl⟩ : ∃ m, n = m + 1 := ⟨n - 1, by have := a.isLt; omega⟩
  have hall : fetchWindow a bs = (bs.take (m + 1), .wraps) := fetchWindow_top (by omega) (by omega) hc
  rw [hall]
  by_cases hn : m + 1 ≤ maxFetch
  · have hwin := fetchWindow_top (bs := bs.take maxFetch) (n := m) (by rw [List.length_take]; omega)
      (by omega) hc
    rw [List.take_take, Nat.min_eq_left hn] at hwin
    rw [hwin]
    by_cases hshort : m + 1 < maxFetch
    · rw [decodeFetched_of_short hd (by rw [List.length_take]; omega)]
      rfl
    · rw [decodeFetched_of_long hd (by rw [List.length_take]; omega), decideLong_of_wraps hd]
  · obtain ⟨g', hcut⟩ := decode_take_of_truncated maxFetch hd
    rw [List.take_take, Nat.min_eq_left (by omega)] at hcut
    rw [fetchWindow_maxFetch (Nat.lt_of_not_le hn) hl (by omega) hc,
      decodeFetched_of_long hcut (by rw [List.length_take]; omega), decideLong_of_wraps hd]

/-- A step whose fetch decodes to a stop ends in that stop. -/
theorem step_of_decodeFetched_stop {s : State} {bytes : Bytes} {st : Stop} (hmode : s.mode = .bits64)
    (hlaunch : launchRefusal s = none) (hprog : programFrom s = some bytes) (hne : bytes ≠ [])
    (h : decodeFetched (fetchWindow s.rip (bytes.take maxFetch)) (fetchWindow s.rip bytes) = .stop st) :
    step s = st.result s := by
  have hfetch := fetch_of_bytes hprog hne
  rw [fetchAddress_bits64 hmode, h] at hfetch
  exact step_of_fetch_stop hlaunch hfetch

/-- A step at bytes that the decoder decides against is refused by name (rules R81, R99). -/
theorem step_refused_of_decode {s : State} {bytes : Bytes} {n : Nat} {e : DecodeError} {c : RefusalCause}
    (hmode : s.mode = .bits64) (hlaunch : launchRefusal s = none) (hprog : programFrom s = some bytes)
    (hl : n ≤ bytes.length) (hw : s.rip.toNat + n ≤ 2 ^ 64)
    (hc : ∀ k < n, isCanonical (byteAddr s.rip k) = true) (hd : decode (bytes.take n) = .error e)
    (he : refusedAs e = some c) : step s = refuse c s := by
  have hne : bytes ≠ [] := by
    rintro rfl
    exact not_truncated_of_refusedAs he false (by simpa [decode_nil] using hd.symm)
  exact step_of_decodeFetched_stop hmode hlaunch hprog hne (decodeFetched_refused hl hw hc hd he)

theorem fetch_at_end {s : State} (h : programFrom s = some []) : fetch s = .stop (.refuse .endOfProgram) := by
  simp [fetch, h]

theorem fetch_outside {s : State} (hmode : s.mode = .bits64) (h : programFrom s = none)
    (hc : isCanonical s.rip = true) : fetch s = .stop (.refuse .outsideProgram) := by
  simp [fetch, h, fetchAddress_bits64 hmode, hc]

/-! ### The length of a completed instruction -/

/-- A VEX row has C4h and two payload bytes, an EVEX row more, and each an opcode byte and a ModRM byte (rule R102). -/
theorem five_le_length (i : Instr) : 5 ≤ i.length := by
  obtain ⟨f, l, o, rfl⟩ | ⟨f, l', l, o, rfl⟩ | ⟨f, o, rfl⟩ := instr_cases i
  · rw [vexInstr_length, VexOperands.length]; omega
  · rw [evexInstr_length, EvexOperands.length]; omega
  · rw [evexErInstr_length, EvexErOperands.length]; omega

/-- In 64-bit mode only an instruction of at most fifteen bytes completes (rule R102, D16). -/
theorem length_le_of_exec_next {i : Instr} {s t : State} (hm : s.mode = .bits64) (h : exec i s = .next t) :
    i.length ≤ 15 := by
  by_contra hl
  rw [exec_overlong hm (Nat.lt_of_not_le hl)] at h
  simp [takeException] at h

/-! ### States that the meanings cannot tell apart -/

/-- The two states agree in everything that a meaning reads: all registers but the opmask registers, and of
those and of the control registers what rules R23, R31 and R190 (a) name. -/
structure ReadsAlike (s t : State) : Prop where
  v : t.v = s.v
  mxcsr : t.mxcsr = s.mxcsr
  rip : t.rip = s.rip
  x : t.x = s.x
  fsBase : t.fsBase = s.fsBase
  gsBase : t.gsBase = s.gsBase
  cpl : t.cpl = s.cpl
  mem : t.mem = s.mem
  prog : t.prog = s.prog
  cfg : t.cfg = s.cfg
  longMode : t.longMode = s.longMode
  csL : t.csL = s.csL
  cr0PE : t.cr0PE = s.cr0PE
  cr0TS : t.cr0TS = s.cr0TS
  cr0AM : t.cr0AM = s.cr0AM
  cr4OSXMMEXCPT : t.cr4OSXMMEXCPT = s.cr4OSXMMEXCPT
  cr4OSXSAVE : t.cr4OSXSAVE = s.cr4OSXSAVE
  rflagsVM : t.rflagsVM = s.rflagsVM
  rflagsAC : t.rflagsAC = s.rflagsAC
  avxEnabled : t.avxEnabled = s.avxEnabled
  avx512Enabled : t.avx512Enabled = s.avx512Enabled
  opmask : ∀ a, a ≠ 0#3 → (t.opmask a).extractLsb' 0 16 = (s.opmask a).extractLsb' 0 16

/-- The change `g` of a state touches nothing that a meaning writes, nor what it writes depends on. -/
structure CommutesWithWrites (g : State → State) : Prop where
  setMxcsr : ∀ s m, (g s).setMxcsr m = g (s.setMxcsr m)
  setVreg : ∀ s r w, (g s).setVreg r w = g (s.setVreg r w)
  advance : ∀ s n, (g s).advance n = g (s.advance n)

section

variable {s t : State}

theorem ReadsAlike.vreg (h : ReadsAlike s t) (r : BitVec 5) : t.vreg r = s.vreg r := by
  simp [State.vreg, h.v]

theorem ReadsAlike.gpr (h : ReadsAlike s t) (r : BitVec 4) : t.gpr r = s.gpr r := by
  simp [State.gpr, h.x]

theorem ReadsAlike.mode (h : ReadsAlike s t) : t.mode = s.mode := by
  simp [State.mode, h.cr0PE, h.rflagsVM, h.longMode, h.csL]

theorem ReadsAlike.stateUD (h : ReadsAlike s t) : stateUD t = stateUD s := by
  simp [Machine.stateUD, h.cr0PE, h.rflagsVM, h.cr4OSXSAVE, h.avxEnabled]

theorem ReadsAlike.alignmentChecked (h : ReadsAlike s t) : t.alignmentChecked = s.alignmentChecked := by
  simp [State.alignmentChecked, h.cr0AM, h.rflagsAC, h.cpl]

/-- Without a mask every lane is enabled; with one, a lane is by one of the low sixteen bits of `K[1]` to `K[7]`
(rules R23, R190 line 4). -/
theorem ReadsAlike.enabled (h : ReadsAlike s t) (vl : VLen) (aaa : BitVec 3) {j : Nat} (hj : j < vl.lanes) :
    enabled t aaa j = enabled s aaa j := by
  by_cases h0 : aaa = 0#3
  · simp [Machine.enabled, h0]
  · have hj16 : j < 16 := Nat.lt_of_lt_of_le hj (vlen_lanes_le vl)
    have hbit : (t.opmask aaa).getLsbD j = (s.opmask aaa).getLsbD j := by
      simpa [hj16] using congrArg (·.getLsbD j) (h.opmask aaa h0)
    simp [Machine.enabled, hbit]

theorem ReadsAlike.byteAt (h : ReadsAlike s t) : t.byteAt = s.byteAt :=
  funext fun a => byteAt_congr (by rw [h.mem]) (by rw [h.prog])

theorem ReadsAlike.read32 (h : ReadsAlike s t) (a : Word64) : t.read32 a = s.read32 a := by
  simp [State.read32, h.byteAt]

theorem ReadsAlike.segBase (h : ReadsAlike s t) (p : Prefixes) : segBase t p = segBase s p := by
  simp [Machine.segBase, h.fsBase, h.gsBase]

theorem ReadsAlike.linearAddr (h : ReadsAlike s t) (p : Prefixes) (len n : Nat) (m : MemForm) :
    linearAddr t p len n m = linearAddr s p len n m := by
  have hexpr : addrExpr t len n m = addrExpr s len n m := by
    cases m <;> simp [addrExpr, indexTerm, h.gpr, h.rip]
  simp [Machine.linearAddr, effectiveAddr, h.segBase, hexpr]

theorem ReadsAlike.usesStackSegment (h : ReadsAlike s t) (p : Prefixes) (m : MemForm) :
    usesStackSegment t p m = usesStackSegment s p m := by
  simp [Machine.usesStackSegment, h.segBase]

theorem ReadsAlike.checkRead (h : ReadsAlike s t) (addr : Word64) (size : Nat) (offs : List Nat)
    (stack al : Bool) : checkRead t addr size offs stack al = checkRead s addr size offs stack al := by
  have hunmapped : unmappedAt t addr = unmappedAt s addr := by
    funext k
    simp [unmappedAt, h.byteAt]
  simp [Machine.checkRead, h.alignmentChecked, hunmapped]

theorem ReadsAlike.memLane (h : ReadsAlike s t) (addr : Word64) (j : Nat) :
    memLane t addr j = memLane s addr j := by
  simp [Machine.memLane, h.read32]

theorem ReadsAlike.bcstLane (h : ReadsAlike s t) (addr : Word64) (j : Nat) :
    bcstLane t addr j = bcstLane s addr j := by
  simp [Machine.bcstLane, h.read32]

theorem ReadsAlike.gate (h : ReadsAlike s t) (len : Nat) (e c : Bool) : gate t len e c = gate s len e c := by
  simp [Machine.gate, modeRefused, h.mode, h.cr0TS]

theorem ReadsAlike.vexUD (h : ReadsAlike s t) (p : Prefixes) : vexUD t p = vexUD s p := by
  simp [Machine.vexUD, h.stateUD, h.cfg]

theorem ReadsAlike.evexStateUD (h : ReadsAlike s t) (vl : VLen) : evexStateUD t vl = evexStateUD s vl := by
  simp [Machine.evexStateUD, h.stateUD, h.avx512Enabled, h.cfg]

/-! Which bytes are read depends on the enabled lanes below `kl` alone (rule R62). -/

theorem fullOffsets_congr {kl : Nat} {en en' : Nat → Bool} (h : ∀ j < kl, en' j = en j) :
    fullOffsets kl en' = fullOffsets kl en := by
  unfold fullOffsets
  rw [List.filter_congr fun j hj => h j (List.mem_range.1 hj)]

theorem bcstOffsets_congr {kl : Nat} {en en' : Nat → Bool} (h : ∀ j < kl, en' j = en j) :
    bcstOffsets kl en' = bcstOffsets kl en := by
  have hany : (List.range kl).any en' = (List.range kl).any en :=
    Bool.eq_iff_iff.2 (by simpa using exists_congr fun j => and_congr_right fun hj => by rw [h j hj])
  rw [bcstOffsets, hany, bcstOffsets]

/-! The checks and the lanes of `SRC3`. -/

theorem ReadsAlike.vexOperandCheck (h : ReadsAlike s t) (vl : VLen) (o : VexOperands) :
    vexOperandCheck vl o t = vexOperandCheck vl o s := by
  cases hs : o.src3 <;>
    simp [Machine.vexOperandCheck, hs, h.linearAddr, h.usesStackSegment, h.checkRead]

theorem ReadsAlike.vexSrc3Lane (h : ReadsAlike s t) (o : VexOperands) : vexSrc3Lane o t = vexSrc3Lane o s := by
  funext j
  cases hs : o.src3 <;> simp [Machine.vexSrc3Lane, hs, h.vreg, h.linearAddr, h.memLane]

theorem ReadsAlike.evexOperandCheck (h : ReadsAlike s t) (vl : VLen) (o : EvexOperands) :
    evexOperandCheck vl o t = evexOperandCheck vl o s := by
  have hen := fun j => h.enabled vl o.f.aaa (j := j)
  cases hs : o.src3 <;>
    simp [Machine.evexOperandCheck, hs, h.linearAddr, h.usesStackSegment, h.checkRead,
      fullOffsets_congr hen, bcstOffsets_congr hen]

theorem ReadsAlike.evexSrc3Lane (h : ReadsAlike s t) (vl : VLen) (o : EvexOperands) :
    evexSrc3Lane vl o t = evexSrc3Lane vl o s := by
  funext j
  cases hs : o.src3 <;> simp [Machine.evexSrc3Lane, hs, h.vreg, h.linearAddr, h.memLane, h.bcstLane]

/-! ### The same outcome in a state that reads alike -/

variable {g : State → State}

theorem faultOf_mapState (c : Cause) (hcpl : (g s).cpl = s.cpl) (hmem : (g s).mem = s.mem) :
    faultOf c (g s) = (faultOf c s).mapState g := by
  cases c <;> simp [faultOf, Fault.mapState, pageFaultCode, hcpl, hmem]

/-- A stop is the same in a state that reads alike. -/
theorem stop_result_map (h : ReadsAlike s (g s)) (st : Stop) : st.result (g s) = mapResult g (st.result s) := by
  cases st with
  | raise c => simp [Stop.result, takeException, mapResult, faultOf_mapState c h.cpl h.mem]
  | refuse c => simp [Stop.result, refuse, mapResult]

theorem unlessStopped_map (h : ReadsAlike s (g s)) (check : Option Stop) {go go' : Result}
    (hgo : go' = mapResult g go) :
    unlessStopped check (g s) go' = mapResult g (unlessStopped check s go) := by
  cases check with
  | none => exact hgo
  | some st => exact stop_result_map h st

/-- The packed computation has the same outcome in a state that reads alike. -/
theorem runPacked_map (hg : CommutesWithWrites g) (h : ReadsAlike s (g s)) (job : Job) {en en' : Nat → Bool}
    (hen : ∀ j < job.kl, en' j = en j) (d s2 : VReg) (s3 : Nat → Lane) :
    runPacked job en' d s2 s3 (g s) = mapResult g (runPacked job en d s2 s3 s) := by
  have hlane : computeLane job (g s) d s2 s3 = computeLane job s d s2 s3 := by
    funext j
    simp [computeLane, laneResult, h.cfg, h.mxcsr]
  have hnew : packLanes job.kl (newLane job (g s) en' d s2 s3) = packLanes job.kl (newLane job s en d s2 s3) :=
    packLanes_congr fun j hj => by simp [newLane, hen j hj, hlane]
  have hgather : ∀ flags : Nat → FpFlags, gatherFlags job.kl en' flags = gatherFlags job.kl en flags :=
    fun flags => gatherFlags_congr hen fun _ _ _ => rfl
  unfold runPacked
  simp only [hlane, hnew, hgather, h.mxcsr, h.cr4OSXMMEXCPT]
  split
  · rw [hg.setMxcsr]
    split <;> rfl
  · rw [hg.setMxcsr, hg.setVreg, hg.advance]
    rfl

theorem vexFnmsub_map (hg : CommutesWithWrites g) (h : ReadsAlike s (g s)) (form : Form) (vl : VLen)
    (o : VexOperands) : vexFnmsub form vl o (g s) = mapResult g (vexFnmsub form vl o s) := by
  have hjob : vexJob form vl o (g s) = vexJob form vl o s := by simp [vexJob, h.mxcsr]
  unfold vexFnmsub
  rw [h.gate, h.vexUD, h.vexOperandCheck, h.vexSrc3Lane, h.vreg, h.vreg, hjob]
  exact unlessStopped_map h _ (unlessStopped_map h _ (runPacked_map hg h _ (fun _ _ => rfl) _ _ _))

theorem evexFnmsub_map (hg : CommutesWithWrites g) (h : ReadsAlike s (g s)) (form : Form) (vl : VLen)
    (reserved : Bool) (o : EvexOperands) :
    evexFnmsub form vl reserved o (g s) = mapResult g (evexFnmsub form vl reserved o s) := by
  have hjob : evexJob form vl o (g s) = evexJob form vl o s := by simp [evexJob, h.mxcsr]
  unfold evexFnmsub
  rw [h.gate, h.evexStateUD, h.evexOperandCheck, h.evexSrc3Lane, h.vreg, h.vreg, hjob]
  exact unlessStopped_map h _ (unlessStopped_map h _
    (runPacked_map hg h _ (fun _ hj => h.enabled vl o.f.aaa hj) _ _ _))

theorem evexErFnmsub_map (hg : CommutesWithWrites g) (h : ReadsAlike s (g s)) (form : Form)
    (o : EvexErOperands) : evexErFnmsub form o (g s) = mapResult g (evexErFnmsub form o s) := by
  unfold evexErFnmsub
  rw [h.gate, h.evexStateUD, h.vreg, h.vreg, h.vreg]
  exact unlessStopped_map h _ (runPacked_map hg h _ (fun _ hj => h.enabled .l512 o.f.aaa hj) _ _ _)

/-- A change of what no meaning reads or writes is carried along by every instruction. -/
theorem exec_map (hg : CommutesWithWrites g) (h : ReadsAlike s (g s)) (i : Instr) :
    exec i (g s) = mapResult g (exec i s) := by
  obtain ⟨f, l, o, rfl⟩ | ⟨f, l', l, o, rfl⟩ | ⟨f, o, rfl⟩ := instr_cases i
  · rw [exec_vexInstr, exec_vexInstr]
    exact vexFnmsub_map hg h _ _ o
  · rw [exec_evexInstr, exec_evexInstr]
    exact evexFnmsub_map hg h _ _ _ o
  · rw [exec_evexErInstr, exec_evexErInstr]
    exact evexErFnmsub_map hg h _ o

end

/-! ### The bits that are consulted -/

/-- Fields of two words are equal when their bits are. -/
theorem extractLsb'_congr {w lo len : Nat} {a b : BitVec w}
    (h : ∀ i < len, a.getLsbD (lo + i) = b.getLsbD (lo + i)) : a.extractLsb' lo len = b.extractLsb' lo len := by
  ext i hi
  simpa using h i hi

/-- `XCR0` is consulted in bits 2:1 and 7:5 (rule R31). -/
theorem xcr0_fields_congr {a b : Word64} (h : ∀ n ∈ [1, 2, 5, 6, 7], a.getLsbD n = b.getLsbD n) :
    a.extractLsb' 1 2 = b.extractLsb' 1 2 ∧ a.extractLsb' 5 3 = b.extractLsb' 5 3 := by
  constructor <;> refine extractLsb'_congr fun i hi => h _ ?_ <;> simp <;> omega

/-! ### The obligations -/

/-- Settles O9: what the fetched bytes are decided to be, and at what address they end, gives each refusal. -/
theorem stepRefusesByName : Obligations.StepRefusesByName := by
  intro s hmode hres hdev
  have hlaunch := (launchRefusal_none_iff s).2 ⟨hmode, hres, hdev⟩
  refine ⟨fun hprog => ?_, fun bytes n hprog hl hw hc => ⟨fun hd => ?_, fun hd => ?_⟩,
    fun bytes g hprog hne hw hc hd hg => ?_, fun bytes n g hprog hl hw hc hd => ?_, fun hprog hc => ?_⟩
  · exact step_of_fetch_stop hlaunch (fetch_at_end hprog)
  · exact step_refused_of_decode hmode hlaunch hprog hl hw hc hd rfl
  · exact step_refused_of_decode hmode hlaunch hprog hl hw hc hd rfl
  · exact step_of_decodeFetched_stop hmode hlaunch hprog hne (decodeFetched_truncated hw hc hd hg)
  · have hne : bytes ≠ [] := by
      rintro rfl
      have := s.rip.isLt
      simp at hl
      omega
    exact step_of_decodeFetched_stop hmode hlaunch hprog hne (decodeFetched_wraps hl hw hc hd)
  · exact step_of_fetch_stop hlaunch (fetch_outside hmode hprog hc)

/-- Settles O54: a next state is the one `exec` leaves after the fetched instruction, and only instructions of
five to fifteen bytes complete. -/
theorem stepFrame : Obligations.StepFrame := by
  intro s t h
  obtain ⟨hlaunch, i, -, hexec⟩ := step_next h
  obtain ⟨hmode, -, -⟩ := (launchRefusal_none_iff s).1 hlaunch
  have hlen := length_le_of_exec_next hmode hexec
  obtain ⟨m, dest, f, hm, rfl⟩ := exec_next hexec
  obtain ⟨-, hother, hrip, hread, hpar, hbytes⟩ := after_frame s m dest (kl := (rowLength i).lanes) f i.length
  exact ⟨⟨i.length, five_le_length i, hlen, hrip⟩, ⟨dest, hother⟩, hm, hread, hpar, hbytes⟩

/-- Settles O57: the two states read alike, for every control bit that a meaning consults is among the equal
ones. -/
theorem otherControlBitsDoNotMatter : Obligations.OtherControlBitsDoNotMatter := by
  intro i s c0 c4 fl xc cb hPE hTS hAM hXM hXSAVE hVM hAC hxc g
  obtain ⟨havx, havx512⟩ := xcr0_fields_congr hxc
  refine exec_map ⟨fun _ _ => rfl, fun _ _ _ => rfl, fun _ _ => rfl⟩ ?_ i
  exact {
    v := rfl, mxcsr := rfl, rip := rfl, x := rfl, fsBase := rfl, gsBase := rfl, cpl := rfl, mem := rfl,
    prog := rfl, cfg := rfl, longMode := rfl, csL := rfl
    cr0PE := hPE, cr0TS := hTS, cr0AM := hAM, cr4OSXMMEXCPT := hXM, cr4OSXSAVE := hXSAVE
    rflagsVM := hVM, rflagsAC := hAC
    avxEnabled := congrArg (· == 3#2) havx, avx512Enabled := congrArg (· == 7#3) havx512
    opmask := fun _ _ => rfl }

/-- Settles O58: the two states read alike, for they differ in no bit that enables a lane. -/
theorem opmaskHighBitsDoNotMatter : Obligations.OpmaskHighBitsDoNotMatter := by
  intro i s k hk
  refine exec_map (g := fun t => { t with k := k }) ⟨fun _ _ => rfl, fun _ _ _ => rfl, fun _ _ => rfl⟩ ?_ i
  exact {
    v := rfl, mxcsr := rfl, rip := rfl, x := rfl, fsBase := rfl, gsBase := rfl, cpl := rfl, mem := rfl,
    prog := rfl, cfg := rfl, longMode := rfl, csL := rfl, cr0PE := rfl, cr0TS := rfl, cr0AM := rfl
    cr4OSXMMEXCPT := rfl, cr4OSXSAVE := rfl, rflagsVM := rfl, rflagsAC := rfl, avxEnabled := rfl
    avx512Enabled := rfl
    opmask := fun a ha => hk a.toFin fun e => ha (BitVec.eq_of_toFin_eq e) }

/-- Settles O1: the register files hold zeros, and the other registers the values rule R35 states. -/
theorem resetHoldsStatedValues : Obligations.ResetHoldsStatedValues :=
  ⟨reset_vreg, reset_opmask, rfl, rfl, rfl, fun r _ => reset_gpr r, rfl, rfl, rfl, rfl, rfl, rfl, rfl⟩

end Sys2Proof.Machine
end

section
/-!
PROOFS. Fetches that end in `#GP(0)`, the one address space and the reads of it, and the first instruction of a
loaded table word (O5, O7, O8, O21, O22).
-/

namespace Sys2Proof.Machine

/-! ### The window of fifteen bytes -/

/-- Fifteen bytes at canonical addresses below the top are fetched, and the window ends with them. -/
theorem fetchWindow_fifteen {a : Word64} {bs : Bytes} {n : Nat} (hn : maxFetch ≤ n) (hl : n ≤ bs.length)
    (hw : a.toNat + maxFetch < 2 ^ 64) (hc : ∀ k < n, isCanonical (byteAddr a k) = true) :
    fetchWindow a (bs.take maxFetch) = (bs.take maxFetch, .programEnd) := by
  have hlen : (bs.take maxFetch).length = maxFetch := by rw [List.length_take]; omega
  exact fetchWindow_all (by omega) fun k hk => hc k (by omega)

/-- Fifteen bytes that are cut off leave the decision to all the bytes that can be fetched (rule R99). -/
theorem decodeFetched_of_fifteen_cut {a : Word64} {bs : Bytes} {n : Nat} {g : Bool} (hn : maxFetch ≤ n)
    (hl : n ≤ bs.length) (hw : a.toNat + maxFetch < 2 ^ 64)
    (hc : ∀ k < n, isCanonical (byteAddr a k) = true) (hd : decode (bs.take n) = .error (.truncated g)) :
    decodeFetched (fetchWindow a (bs.take maxFetch)) (fetchWindow a bs)
      = .stop (decideLong (fetchWindow a bs)) := by
  obtain ⟨g', hcut⟩ := decode_take_of_truncated maxFetch hd
  rw [List.take_take, Nat.min_eq_left hn] at hcut
  rw [fetchWindow_fifteen hn hl hw hc]
  exact decodeFetched_of_long hcut (by rw [List.length_take]; omega)

/-- A program that ends below the top of the address space does not run past it. -/
theorem fetchWindow_not_wraps : ∀ {bs : Bytes} {a : Word64}, a.toNat + bs.length < 2 ^ 64 →
    (fetchWindow a bs).2 ≠ .wraps
  | [], _, _ => by simp [fetchWindow]
  | b :: bs, a, hw => by
    rw [List.length_cons] at hw
    have htop : a ≠ 0xFFFFFFFFFFFFFFFF#64 := by rintro rfl; simp at hw; omega
    have hnext : (a + 1#64).toNat = a.toNat + 1 := by
      rw [BitVec.toNat_add]
      simp
      omega
    unfold fetchWindow
    rw [if_neg htop]
    split
    · simp
    · exact fetchWindow_not_wraps (by omega)

/-! ### Fetches that end in `#GP(0)` -/

/-- Bytes cut off at a non-canonical address are a fetch fault, whatever they show (rules R69, R228 c). -/
theorem decideLong_of_nonCanonical {bs : Bytes} {g : Bool} (hd : decode bs = .error (.truncated g)) :
    decideLong (bs, .nonCanonical) = .raise .gp := by
  cases g <;> simp [decideLong, hd, cutOff]

/-- Bytes that show the group are `#GP(0)` when they do not run past the top: whole or not, the instruction is
longer than fifteen bytes (rules R99, R102). -/
theorem decideLong_of_ofGroup {w : Bytes × FetchLimit} (hg : OfGroup (decode w.1)) (hw : w.2 ≠ .wraps) :
    decideLong w = .raise .gp := by
  obtain ⟨p, hok⟩ | hcut := hg
  · simp [decideLong, hok]
  · simp [decideLong, hcut, hw]

/-- A byte that decoding needs at a non-canonical address is a fetch fault (rules R69, R228 c). -/
theorem decodeFetched_nonCanonical {a : Word64} {bs : Bytes} {n : Nat} {g : Bool} (hl : n < bs.length)
    (hw : a.toNat + n < 2 ^ 64) (hc : ∀ k < n, isCanonical (byteAddr a k) = true)
    (hn : isCanonical (byteAddr a n) = false) (hd : decode (bs.take n) = .error (.truncated g)) :
    decodeFetched (fetchWindow a (bs.take maxFetch)) (fetchWindow a bs) = .stop (.raise .gp) := by
  by_cases hshort : n < maxFetch
  · have hwin := fetchWindow_nonCanonical (bs := bs.take maxFetch) (by rw [List.length_take]; omega) hw hc hn
    rw [List.take_take, Nat.min_eq_left (Nat.le_of_lt hshort)] at hwin
    rw [hwin, decodeFetched_of_short hd (by rw [List.length_take]; omega)]
    rfl
  · rw [decodeFetched_of_fifteen_cut (Nat.le_of_not_lt hshort) (Nat.le_of_lt hl) (by omega) hc hd,
      fetchWindow_nonCanonical hl hw hc hn, decideLong_of_nonCanonical hd]

/-- An instruction of the group that fifteen bytes do not complete is `#GP(0)` in a program that ends below the
top of the address space (rules R99, R102). -/
theorem decodeFetched_overlong {a : Word64} {bs : Bytes} {n : Nat} (hn : maxFetch ≤ n) (hl : n ≤ bs.length)
    (hw : a.toNat + bs.length < 2 ^ 64) (hc : ∀ k < n, isCanonical (byteAddr a k) = true)
    (hd : decode (bs.take n) = .error (.truncated true)) :
    decodeFetched (fetchWindow a (bs.take maxFetch)) (fetchWindow a bs) = .stop (.raise .gp) := by
  have hgroup : OfGroup (decode (fetchWindow a bs).1) := by
    obtain ⟨rest, hr⟩ := fetchWindow_take hl (by omega) hc
    rw [hr]
    exact decode_ofGroup_append rest hd
  rw [decodeFetched_of_fifteen_cut hn hl (by omega) hc hd,
    decideLong_of_ofGroup hgroup (fetchWindow_not_wraps hw)]

theorem fetch_outside_nonCanonical {s : State} (hmode : s.mode = .bits64) (h : programFrom s = none)
    (hc : isCanonical s.rip = false) : fetch s = .stop (.raise .gp) := by
  simp [fetch, h, fetchAddress_bits64 hmode, hc]

/-! ### A launched program -/

/-- After a launch the program's first byte is the next to be fetched (rule R263, D11). -/
theorem launch_programFrom (s : State) (bs : Bytes) : programFrom (s.launch bs) = some bs := by
  rw [programFrom_eq_some, fetchAddress_bits64 (launch_mode s bs), launch_rip, launch_prog]
  simp

theorem launch_mxcsr (s : State) (bs : Bytes) : (s.launch bs).mxcsr = s.mxcsr := by
  unfold State.launch; split <;> rfl

theorem tableWordBytes_length (nbits w : Nat) : (tableWordBytes nbits w).length = 15 := by
  simp [tableWordBytes]

/-- A table word that is decoded is an instruction of at most fifteen bytes at their head. -/
theorem decodeTableWord_some {nbits w : Nat} {i : Instr} (h : decodeTableWord nbits w = some i) :
    ∃ rest, decode (tableWordBytes nbits w) = .ok (i, rest) ∧ i.length ≤ 15 := by
  unfold decodeTableWord at h
  split at h
  · next j rest hd =>
    obtain rfl := Option.some.inj h
    have hlen := decode_ok_length hd
    rw [tableWordBytes_length] at hlen
    exact ⟨rest, hd, by omega⟩
  · simp at h

/-! ### Bytes of the one address space -/

/-- The program's byte at the `k`-th address from the fetch address on is the `k`-th of the bytes fetched there. -/
theorem program_byte_of_programFrom {s : State} {bs : Bytes} {k : Nat} (hlen : s.prog.bytes.length ≤ 2 ^ 64)
    (h : programFrom s = some bs) (hk : k < bs.length) :
    s.prog.byte (byteAddr (fetchAddress s) k) = bs[k]? := by
  obtain ⟨-, rfl⟩ := programFrom_eq_some.1 h
  rw [List.length_drop] at hk
  have hsub : byteAddr (fetchAddress s) k - s.prog.base = fetchAddress s - s.prog.base + BitVec.ofNat 64 k := by
    simp only [byteAddr]
    exact add_sub_right_comm _ _ _
  have hoff : (byteAddr (fetchAddress s) k - s.prog.base).toNat = (fetchAddress s - s.prog.base).toNat + k := by
    rw [hsub, BitVec.toNat_add, BitVec.toNat_ofNat]
    omega
  rw [Program.byte, hoff, List.getElem?_drop]

/-- Where the program has a byte, a data read that finds one finds the program's. -/
theorem byteAt_of_program {s : State} {a : Word64} {b b' : Byte} (hp : s.prog.byte a = some b)
    (hb : s.byteAt a = some b') : b' = b := by
  obtain ⟨-, h⟩ | ⟨_, c, -, h', h⟩ | ⟨_, -, h', -⟩ := byteAt_cases s a
  · simp [h] at hb
  · obtain rfl := Option.some.inj (hb.symm.trans h)
    exact Option.some.inj (h'.symm.trans hp)
  · simp [h'] at hp

/-- Where the program has no byte, a data read finds the map's. -/
theorem byteAt_of_no_program {s : State} {a : Word64} (h : s.prog.byte a = none) : s.byteAt a = s.mem.byte a := by
  obtain ⟨hm, hb⟩ | ⟨b, b', -, hp, -⟩ | ⟨b, hm, -, hb⟩ := byteAt_cases s a
  · rw [hm, hb]
  · simp [h] at hp
  · rw [hm, hb]

/-- Each of four bytes put together is found at its own place. -/
theorem extract_append_bytes (b0 b1 b2 b3 : Byte) :
    (b3 ++ b2 ++ b1 ++ b0).extractLsb' 0 8 = b0 ∧ (b3 ++ b2 ++ b1 ++ b0).extractLsb' 8 8 = b1
      ∧ (b3 ++ b2 ++ b1 ++ b0).extractLsb' 16 8 = b2 ∧ (b3 ++ b2 ++ b1 ++ b0).extractLsb' 24 8 = b3 := by
  refine ⟨?_, ?_, ?_, ?_⟩ <;> ext i hi <;> simp only [BitVec.getElem_extractLsb', BitVec.getLsbD_append] <;>
    grind

/-- Four bytes, lowest first, make a lane, and the lane gives them back (rule R51). -/
theorem lane_eq_append_iff {w : Lane} {b0 b1 b2 b3 : Byte} :
    w = b3 ++ b2 ++ b1 ++ b0 ↔ b0 = w.extractLsb' 0 8 ∧ b1 = w.extractLsb' 8 8 ∧ b2 = w.extractLsb' 16 8
      ∧ b3 = w.extractLsb' 24 8 := by
  constructor
  · rintro rfl
    obtain ⟨h0, h1, h2, h3⟩ := extract_append_bytes b0 b1 b2 b3
    exact ⟨h0.symm, h1.symm, h2.symm, h3.symm⟩
  · rintro ⟨rfl, rfl, rfl, rfl⟩
    exact (disp32_join w).symm

/-! ### The obligations -/

/-- Settles O5: the launched state is in 64-bit mode with the word's bytes at `RIP`, all of them canonical, and
the step at them is O6. -/
theorem loadedTableWordRunsFirst : Obligations.LoadedTableWordRunsFirst := by
  intro nbits w i h
  obtain ⟨rest, hd, hlen⟩ := decodeTableWord_some h
  unfold State.withFetchWord
  have hcanon : ∀ k < 15, isCanonical (byteAddr State.reset.rip k) = true := by decide
  refine stepRunsDecodedInstruction _ _ rest i (launch_mode _ _) ?_ ?_ (launch_programFrom _ _) hd ?_ ?_
  · rw [launch_mxcsr]
    rfl
  · rw [launch_mem]
    rfl
  · rw [launch_rip]
    simp [State.reset]
    omega
  · rw [launch_rip]
    exact fun k hk => hcanon k (by omega)

/-- Settles O7: the window ends at the non-canonical byte, which decoding needs. -/
theorem nonCanonicalFetchFaults : Obligations.NonCanonicalFetchFaults := by
  intro s hmode hres hdev
  have hlaunch := (launchRefusal_none_iff s).2 ⟨hmode, hres, hdev⟩
  refine ⟨fun bytes n g hprog hl hw hc hn hd => ?_, fun hprog hc => ?_⟩
  · have hne : bytes ≠ [] := List.ne_nil_of_length_pos (by omega)
    exact step_of_decodeFetched_stop hmode hlaunch hprog hne (decodeFetched_nonCanonical hl hw hc hn hd)
  · exact step_of_fetch_stop hlaunch (fetch_outside_nonCanonical hmode hprog hc)

/-- Settles O8: fifteen bytes leave the instruction cut off, and all of them show that it is of the group. -/
theorem overlongFetchFaults : Obligations.OverlongFetchFaults := by
  intro s bytes n hmode hres hdev hprog hn hl hw hc hd
  have hlaunch := (launchRefusal_none_iff s).2 ⟨hmode, hres, hdev⟩
  have hne : bytes ≠ [] := List.ne_nil_of_length_pos (by omega)
  refine step_of_decodeFetched_stop (st := .raise .gp) hmode hlaunch hprog hne ?_
  obtain ⟨hcut, hbelow⟩ | ⟨i, rest, hok, hlong⟩ := hd
  · exact decodeFetched_overlong hn hl hbelow hc hcut
  · have hfits := decode_ok_length hok
    rw [List.length_take] at hfits
    have hall := decode_ok_append hok (bytes.drop n)
    rw [List.take_append_drop] at hall
    exact decodeFetched_of_lt_length hall (by omega) (fun k hk => hc k (by omega)) hlong

/-- Settles O21: fetch reads the program, a data read the program's byte where there is one and else the map's. -/
theorem oneAddressSpace : Obligations.OneAddressSpace := by
  intro s
  refine ⟨fun hlen bytes k => program_byte_of_programFrom hlen, fun a b b' hp hb => ?_, fun a hp => ?_,
    fun a => ?_, fun bytes a hp => ?_⟩
  · exact byteAt_of_program hp hb
  · exact byteAt_of_no_program hp
  · obtain ⟨h', h⟩ | ⟨_, _, h', -, h⟩ | ⟨_, h', -, h⟩ := byteAt_cases s a <;> simp [h, h']
  · rw [byteAt_of_no_program hp]
    rw [launch_prog] at hp
    simp [launch_mem, withProgram_byte, hp]

/-- Settles O22: the four bytes of the lane, at the four addresses. -/
theorem readsAreLittleEndian : Obligations.ReadsAreLittleEndian := by
  intro s a w
  simp only [read32_eq_some, lane_eq_append_iff]
  constructor
  · rintro ⟨_, _, _, _, h0, h1, h2, h3, rfl, rfl, rfl, rfl⟩ i hi
    interval_cases i <;> simpa [byteAddr]
  · intro h
    exact ⟨_, _, _, _, by simpa [byteAddr] using h 0 (by omega), h 1 (by omega), h 2 (by omega),
      h 3 (by omega), rfl, rfl, rfl, rfl⟩

end Sys2Proof.Machine
end

section
/-!
PROOFS. The plain EVEX rows whose checks pass (O37, O38, O39).
-/

namespace Sys2Proof.Machine

/-! ### The lanes of a plain EVEX row -/

/-- The lane function of a mnemonic: `FNMSUB32` with the controls of `MXCSR` on the roles that rule R146 gives
`DEST`, `SRC2` and `SRC3`. -/
def formLane (f : Form) : LaneFn := fun s d s2 s3 =>
  mxcsrLane s (roles f d s2 s3).1 (roles f d s2 s3).2.1 (roles f d s2 s3).2.2

/-- Without suppression the controls of a lane are those of `MXCSR` (rule R136). -/
theorem laneResult_eq_formLane (s : State) (f : Form) (d s2 s3 : Lane) :
    laneResult s f (RoundMode.ofBits (mxcsrRC s.mxcsr)) false d s2 s3 = formLane f s d s2 s3 := by
  simp [laneResult, formLane, mxcsrLane]

/-- A lane whose flags are masked has a result (rules R144, R145). -/
theorem formLane_res {f : Form} {s : State} {d s2 s3 : Lane} (h : Masked s.mxcsr (formLane f s d s2 s3).post) :
    (formLane f s d s2 s3).res = some ((formLane f s d s2 s3).res.getD 0#32) := by
  obtain ⟨-, -, hoe, hue, -⟩ := h
  obtain ⟨w, hw⟩ := fnmsub32_some hoe hue
  simp [formLane, mxcsrLane, hw]

/-- An enabled lane of a row that can read its `SRC3` is the lane function of the three operands. -/
theorem computeLane_evex {f : Form} {vl : VLen} {o : EvexOperands} {s : State} {s3 : Nat → Lane}
    (hs : EvexSource vl o s s3) {j : Nat} (hj : j < vl.lanes) (he : enabled s o.f.aaa j = true) :
    computeLane (evexJob f vl o s) s (s.vreg o.f.dest) (s.vreg o.f.src2) (evexSrc3Lane vl o s) j
      = evexLanes (formLane f) o.f s s3 j := by
  rw [computeLane, evexSrc3Lane_eq hs hj he]
  exact laneResult_eq_formLane s f _ _ _

/-! ### The state after the row -/

/-- What a plain EVEX row leaves when its checks pass and every flag is masked (rule R190 lines 9 to 12). -/
def evexAfter (f : Form) (vl : VLen) (o : EvexOperands) (s : State) (s3 : Nat → Lane) : State :=
  after s
    (setFlags s.mxcsr (gatherFlags vl.lanes (enabled s o.f.aaa) fun j =>
      (evexLanes (formLane f) o.f s s3 j).pre.union (evexLanes (formLane f) o.f s s3 j).post))
    o.f.dest vl.lanes
    (newLane (evexJob f vl o s) s (enabled s o.f.aaa) (s.vreg o.f.dest) (s.vreg o.f.src2) (evexSrc3Lane vl o s))
    o.length

theorem evexFnmsub_completes {f : Form} {vl : VLen} {o : EvexOperands} {s : State} {s3 : Nat → Lane}
    (hr : EvexReady vl o.f o.length s) (hs : EvexSource vl o s s3)
    (hm : ∀ j < vl.lanes, enabled s o.f.aaa j = true → Masked s.mxcsr (evexLanes (formLane f) o.f s s3 j).pre
      ∧ Masked s.mxcsr (evexLanes (formLane f) o.f s s3 j).post) :
    evexFnmsub f vl false o s = .next (evexAfter f vl o s s3) := by
  have hlane := fun j (hj : j < vl.lanes) he => computeLane_evex (f := f) hs hj he
  have hflags := gatherFlags_congr (fun _ _ => rfl) fun j hj he =>
    congrArg (fun r : LaneResult => r.pre.union r.post) (hlane j hj he)
  rw [evexFnmsub_ready hr hs, runPacked_deliver rfl fun j hj he => by rw [hlane j hj he]; exact hm j hj he,
    evexAfter, ← hflags]
  rfl

/-- An enabled lane holds its result, a disabled one zero or its old value (rule R190 line 10). -/
theorem evexAfter_maskedLane {f : Form} {vl : VLen} {o : EvexOperands} {s : State} {s3 : Nat → Lane}
    (hs : EvexSource vl o s s3) {j : Nat} (hj : j < vl.lanes)
    (hm : enabled s o.f.aaa j = true → Masked s.mxcsr (evexLanes (formLane f) o.f s s3 j).post) :
    MaskedLane o.f s (evexAfter f vl o s s3) (evexLanes (formLane f) o.f s s3) j := by
  unfold MaskedLane evexAfter
  rw [after_lane _ _ _ (vlen_lanes_le vl) _ _ hj, newLane]
  by_cases he : enabled s o.f.aaa j = true
  · rw [if_pos he, if_pos he, computeLane_evex hs hj he]
    exact formLane_res (hm he)
  · rw [if_neg he, if_neg he]
    by_cases hz : o.f.z = true <;> simp [evexJob, hz]

/-- The plain EVEX rows complete in every state that no check stops (rules R148, R150, R190). -/
theorem evexResult_of_exec {i : EvexOperands → Instr} {f : Form} {vl : VLen}
    (hi : ∀ o s, exec (i o) s = evexFnmsub f vl false o s) : EvexResult i vl (formLane f) := by
  intro o s s3 hr hs hm
  refine ⟨evexAfter f vl o s s3, (hi o s).trans (evexFnmsub_completes hr hs hm), fun j hj => ?_,
    mxcsrGains_setFlags _ _ _ _, after_frame _ _ _ _ _⟩
  exact evexAfter_maskedLane hs hj fun he => (hm j hj he).2

/-! ### The obligations -/

/-- Settles O37: the rows of four lanes. -/
theorem evexXmmRowsComplete : Obligations.EvexXmmRowsComplete :=
  ⟨evexResult_of_exec (f := .f132) fun _ _ => rfl, evexResult_of_exec (f := .f213) fun _ _ => rfl,
    evexResult_of_exec (f := .f231) fun _ _ => rfl⟩

/-- Settles O38: the rows of eight lanes. -/
theorem evexYmmRowsComplete : Obligations.EvexYmmRowsComplete :=
  ⟨evexResult_of_exec (f := .f132) fun _ _ => rfl, evexResult_of_exec (f := .f213) fun _ _ => rfl,
    evexResult_of_exec (f := .f231) fun _ _ => rfl⟩

/-- Settles O39: the rows of sixteen lanes, with `L'L = 10b`. -/
theorem evexZmmRowsComplete : Obligations.EvexZmmRowsComplete :=
  ⟨evexResult_of_exec (f := .f132) fun _ _ => rfl, evexResult_of_exec (f := .f213) fun _ _ => rfl,
    evexResult_of_exec (f := .f231) fun _ _ => rfl⟩

end Sys2Proof.Machine
end

section
/-!
PROOFS. What a memory operand that cannot be read does, and which bytes of it matter (O48, O49, O50, O59).
-/

namespace Sys2Proof.Machine

/-! ### The offsets that are read -/

theorem mem_fullOffsets_iff {kl k : Nat} {en : Nat → Bool} :
    k ∈ fullOffsets kl en ↔ k < 4 * kl ∧ en (k / 4) = true := by
  rw [mem_fullOffsets]
  constructor
  · rintro ⟨j, hj, he, i, hi, rfl⟩
    rw [show (4 * j + i) / 4 = j by omega]
    exact ⟨by omega, he⟩
  · rintro ⟨hk, he⟩
    exact ⟨k / 4, by omega, he, k % 4, by omega, by omega⟩

theorem fullOffsets_rising (kl : Nat) (en : Nat → Bool) : (fullOffsets kl en).Pairwise (· < ·) := by
  have hlanes : ((List.range kl).filter en).Pairwise (· < ·) := List.pairwise_lt_range.filter _
  refine List.pairwise_flatMap.2 ⟨fun j _ => by simp, hlanes.imp fun hij => ?_⟩
  simp
  omega

theorem bcstOffsets_rising (kl : Nat) (en : Nat → Bool) : (bcstOffsets kl en).Pairwise (· < ·) := by
  unfold bcstOffsets
  split <;> simp

theorem bcstOffsets_ne_nil_iff {kl : Nat} {en : Nat → Bool} :
    bcstOffsets kl en ≠ [] ↔ ∃ j < kl, en j = true := by
  simp [bcstOffsets]

/-- In a rising list the search finds the least element that passes. -/
theorem find?_eq_some_of_least {l : List Nat} {p : Nat → Bool} {k : Nat} (hl : l.Pairwise (· < ·)) (hk : k ∈ l)
    (hp : p k = true) (hleast : ∀ k' < k, k' ∈ l → p k' = false) : l.find? p = some k := by
  induction l with
  | nil => simp at hk
  | cons a l ih =>
    rw [List.pairwise_cons] at hl
    obtain rfl | hmem := List.mem_cons.1 hk
    · simp [hp]
    · have ha := hleast a (hl.1 k hmem) (by simp)
      simp only [List.find?_cons, ha]
      exact ih hl.2 hmem fun k' hk' hm => hleast k' hk' (List.mem_cons_of_mem _ hm)

/-! ### The faults of an operand -/

theorem usesStackSegment_iff (s : State) (p : Prefixes) (m : MemForm) :
    usesStackSegment s p m = true ↔ StackForm p m := by
  have hseg : (segBase s p).isNone = true ↔ LegacyPrefix.fs ∉ p.legacy ∧ LegacyPrefix.gs ∉ p.legacy := by
    unfold segBase
    split_ifs <;> simp_all
  simp only [usesStackSegment, StackForm, Bool.and_eq_true, Bool.or_eq_true, beq_iff_eq, hseg]
  tauto

/-- The code of a page fault that is no fetch (rule R229). -/
theorem pageFaultCode_read (s : State) : pageFaultCode s false = readFaultCode s := by
  have hbits : ∀ r u p : Bool,
      0#27 ++ BitVec.ofBool false ++ BitVec.ofBool r ++ BitVec.ofBool u ++ 0#1 ++ BitVec.ofBool p
        = 0#28 ++ BitVec.ofBool r ++ BitVec.ofBool u ++ 0#1 ++ BitVec.ofBool p := by decide
  exact hbits _ _ _

/-- The four outcomes of an operand's checks are those of rules R227 to R230, in their order (rule R233). -/
theorem checkRead_operandFaults {s : State} {p : Prefixes} {m : MemForm} {addr : Word64} {size : Nat}
    {offs : List Nat} {al : Bool} {aligned : Prop} {reads : Nat → Prop} (go : Result)
    (hreads : ∀ k, k ∈ offs ↔ reads k) (hrising : offs.Pairwise (· < ·))
    (haligned : ¬ aligned ↔ al = true ∧ offs ≠ [] ∧ s.alignmentChecked = true ∧ addr.extractLsb' 0 2 ≠ 0#2) :
    OperandFaults s p m addr size aligned reads
      (unlessStopped (checkRead s addr size offs (usesStackSegment s p m) al) s go) := by
  obtain rfl : reads = (· ∈ offs) := funext fun k => propext (hreads k).symm
  have hnotBad : (∀ k ∈ offs, isCanonical (byteAddr addr k) = true) →
      ¬ ∃ k, k ∈ offs ∧ isCanonical (byteAddr addr k) = false := fun hcanon ⟨k, hk, hbad⟩ => by
    simp [hcanon k hk] at hbad
  obtain ⟨hwrap, e⟩ | ⟨hfits, hbad, e⟩ | ⟨hfits, hcanon, hal, hne, hac, hlow, e⟩
    | ⟨hfits, hcanon, hno, k, hfind, e⟩ | ⟨hfits, hcanon, hno, hmapped, e⟩ :=
    checkRead_cases s addr size offs (usesStackSegment s p m) al
  all_goals rw [e]
  · exact ⟨fun _ => rfl, fun hfits => absurd hwrap (Nat.not_lt.2 hfits)⟩
  · refine ⟨fun hwrap => absurd hfits (Nat.not_le.2 hwrap), fun _ => ⟨fun _ => ?_, fun hcanon =>
      absurd hbad (hnotBad hcanon)⟩⟩
    rw [← usesStackSegment_iff s p m]
    cases usesStackSegment s p m <;> simp [unlessStopped, Stop.result, takeException, faultOf]
  · exact ⟨fun hwrap => absurd hfits (Nat.not_le.2 hwrap), fun _ => ⟨fun hbad => absurd hbad (hnotBad hcanon),
      fun _ => ⟨fun _ => rfl, fun ha => absurd ha (haligned.2 ⟨hal, hne, hac, hlow⟩)⟩⟩⟩
  · refine ⟨fun hwrap => absurd hfits (Nat.not_le.2 hwrap), fun _ => ⟨fun hbad => absurd hbad (hnotBad hcanon),
      fun _ => ⟨fun ha => absurd (haligned.1 ha) hno, fun _ k' hk' hnone hleast => ?_⟩⟩⟩
    have hfind' : offs.find? (unmappedAt s addr) = some k' :=
      find?_eq_some_of_least hrising hk' (by simp [unmappedAt, hnone]) fun j hj hm => by
        simpa [unmappedAt, ← Option.ne_none_iff_isSome] using hleast j hj hm
    obtain rfl : k = k' := Option.some.inj (hfind.symm.trans hfind')
    rw [← pageFaultCode_read]
    rfl
  · refine ⟨fun hwrap => absurd hfits (Nat.not_le.2 hwrap), fun _ => ⟨fun hbad => absurd hbad (hnotBad hcanon),
      fun _ => ⟨fun ha => absurd (haligned.1 ha) hno, fun _ k hk hnone _ => ?_⟩⟩⟩
    simpa [unmappedAt, hnone] using hmapped k hk

/-! ### Rows with a memory operand -/

/-- A VEX row that its gate lets pass. -/
theorem vexFnmsub_of_ready {f : Form} {vl : VLen} {o : VexOperands} {s : State} (hr : VexReady o s) :
    vexFnmsub f vl o s = unlessStopped (vexOperandCheck vl o s) s
      (runPacked (vexJob f vl o s) allLanes (s.vreg (vexReg o.dest)) (s.vreg (vexReg o.src2))
        (vexSrc3Lane o s) s) := by
  rw [vexFnmsub, vex_gate_none hr]
  rfl

/-- A plain EVEX row that its gate lets pass. -/
theorem evexFnmsub_of_ready {f : Form} {vl : VLen} {o : EvexOperands} {s : State}
    (hr : EvexReady vl o.f o.length s) :
    evexFnmsub f vl false o s = unlessStopped (evexOperandCheck vl o s) s
      (runPacked (evexJob f vl o s) (enabled s o.f.aaa) (s.vreg o.f.dest) (s.vreg o.f.src2)
        (evexSrc3Lane vl o s) s) := by
  rw [evexFnmsub, Bool.or_false, evex_gate_none hr]
  rfl

/-- The VEX rows read every byte of the operand and check no alignment (rules R52, R56, R177). -/
theorem vexOperandFaults_of_exec {i : VexOperands → Instr} {f : Form} {vl : VLen}
    (hi : ∀ o s, exec (i o) s = vexFnmsub f vl o s) : VexOperandFaults i vl := by
  intro o s m hr hm
  rw [hi, vexFnmsub_of_ready hr, vexOperandCheck, hm]
  exact checkRead_operandFaults _ (fun k => by simp [mem_fullOffsets_iff, allLanes])
    (fullOffsets_rising _ _) (by simp)

/-- Alignment is checked when `AM`, `AC` and `CPL` say so (rules R56, R230). -/
theorem alignmentChecked_iff (s : State) :
    s.alignmentChecked = true ↔ s.cr0AM = true ∧ s.rflagsAC = true ∧ s.cpl = 3#2 := by
  simp [State.alignmentChecked, and_assoc]

theorem low_bits_eq_zero_iff (a : Word64) : a.extractLsb' 0 2 = 0#2 ↔ 4 ∣ a.toNat := by
  rw [← BitVec.toNat_inj, BitVec.extractLsb'_toNat, Nat.dvd_iff_mod_eq_zero]
  simp

/-- The plain EVEX rows read the bytes of enabled lanes, or the element when some lane is enabled, whose alignment
they check (rules R56, R62, R203). -/
theorem evexOperandFaults_of_exec {i : EvexOperands → Instr} {f : Form} {vl : VLen}
    (hi : ∀ o s, exec (i o) s = evexFnmsub f vl false o s) : EvexOperandFaults i vl := by
  intro o s m hr
  rw [hi, evexFnmsub_of_ready hr, evexOperandCheck]
  constructor
  · intro hm
    rw [hm]
    exact checkRead_operandFaults _ (fun k => mem_fullOffsets_iff) (fullOffsets_rising _ _) (by simp)
  · intro hm
    rw [hm]
    refine checkRead_operandFaults _ (fun k => mem_bcstOffsets.trans and_comm) (bcstOffsets_rising _ _) ?_
    rw [bcstOffsets_ne_nil_iff, alignmentChecked_iff, Ne, low_bits_eq_zero_iff]
    simp only [Classical.not_imp, true_and]

/-! ### Alignment checks -/

theorem takeException_eq_ac {c : Cause} {s t : State} {code : BitVec 32} (h : takeException c s = .fault (.ac code t)) :
    c = .ac := by
  cases c <;> simp [takeException, faultOf] at h ⊢

/-- An instruction behind its checks raises `#AC` by a check that does, or after checks that pass. -/
theorem unlessStopped_ac {check : Option Stop} {s t : State} {go : Result} {code : BitVec 32}
    (h : unlessStopped check s go = .fault (.ac code t)) :
    check = some (.raise .ac) ∨ check = none ∧ go = .fault (.ac code t) := by
  cases check with
  | none => exact .inr ⟨rfl, h⟩
  | some st =>
    cases st with
    | raise c => exact .inl (by rw [takeException_eq_ac (c := c) h])
    | refuse c => simp [unlessStopped, Stop.result, refuse] at h

theorem gate_ne_ac (s : State) (len : Nat) (e c : Bool) : gate s len e c ≠ some (.raise .ac) := by
  obtain ⟨-, g⟩ | ⟨-, -, g⟩ | ⟨-, -, -, g⟩ | ⟨-, -, -, -, g⟩ | ⟨-, -, -, -, g⟩ := gate_cases s len e c <;>
    simp [g]

theorem runPacked_ne_ac (job : Job) (en : Nat → Bool) (d s2 : VReg) (s3 : Nat → Lane) (s t : State)
    (code : BitVec 32) : runPacked job en d s2 s3 s ≠ .fault (.ac code t) := by
  intro h
  obtain ⟨m, -, -, e⟩ | ⟨m, -, -, e⟩ := runPacked_cases job en d s2 s3 s
  · simp [e] at h
  · rw [e] at h
    have := takeException_eq_ac h
    split at this <;> simp at this

/-- Only an operand whose alignment is checked raises `#AC`, and only with alignment checking enabled (rule R56). -/
theorem checkRead_ac {s : State} {addr : Word64} {size : Nat} {offs : List Nat} {stack al : Bool}
    (h : checkRead s addr size offs stack al = some (.raise .ac)) : al = true ∧ s.alignmentChecked = true := by
  obtain ⟨-, e⟩ | ⟨-, -, e⟩ | ⟨-, -, hal, -, hac, -, e⟩ | ⟨-, -, -, k, -, e⟩ | ⟨-, -, -, -, e⟩ :=
    checkRead_cases s addr size offs stack al
  · simp [e] at h
  · cases stack <;> simp [e] at h
  · exact ⟨hal, hac⟩
  · simp [e] at h
  · simp [e] at h

theorem vexFnmsub_ne_ac (f : Form) (vl : VLen) (o : VexOperands) (s t : State) (code : BitVec 32) :
    vexFnmsub f vl o s ≠ .fault (.ac code t) := by
  intro h
  obtain hg | ⟨-, h⟩ := unlessStopped_ac h
  · exact gate_ne_ac _ _ _ _ hg
  · obtain hc | ⟨-, h⟩ := unlessStopped_ac h
    · unfold vexOperandCheck at hc
      split at hc
      · simp at hc
      · simpa using (checkRead_ac hc).1
    · exact runPacked_ne_ac _ _ _ _ _ _ _ _ h

theorem evexErFnmsub_ne_ac (f : Form) (o : EvexErOperands) (s t : State) (code : BitVec 32) :
    evexErFnmsub f o s ≠ .fault (.ac code t) := by
  intro h
  obtain hg | ⟨-, h⟩ := unlessStopped_ac h
  · exact gate_ne_ac _ _ _ _ hg
  · exact runPacked_ne_ac _ _ _ _ _ _ _ _ h

/-- A plain EVEX row raises `#AC` for its broadcast element alone. -/
theorem evexFnmsub_ac {f : Form} {vl : VLen} {reserved : Bool} {o : EvexOperands} {s t : State} {code : BitVec 32}
    (h : evexFnmsub f vl reserved o s = .fault (.ac code t)) :
    s.alignmentChecked = true ∧ ∃ m, o.src3 = .bcst m := by
  obtain hg | ⟨-, h⟩ := unlessStopped_ac h
  · exact absurd hg (gate_ne_ac _ _ _ _)
  · obtain hc | ⟨-, h⟩ := unlessStopped_ac h
    · unfold evexOperandCheck at hc
      split at hc
      · simp at hc
      · simpa using (checkRead_ac hc).1
      · next m hm => exact ⟨(checkRead_ac hc).2, m, hm⟩
    · exact absurd h (runPacked_ne_ac _ _ _ _ _ _ _ _)

/-! ### Another memory map -/

/-- The state with another memory map. -/
def withMem (mem : MemMap) (s : State) : State := { s with mem := mem }

@[simp] theorem withMem_mxcsr (mem : MemMap) (s : State) : (withMem mem s).mxcsr = s.mxcsr := rfl
@[simp] theorem withMem_cr4OSXMMEXCPT (mem : MemMap) (s : State) :
    (withMem mem s).cr4OSXMMEXCPT = s.cr4OSXMMEXCPT := rfl

@[simp] theorem withMem_linearAddr (mem : MemMap) (s : State) (p : Prefixes) (len n : Nat) (m : MemForm) :
    linearAddr (withMem mem s) p len n m = linearAddr s p len n m := by
  cases m <;> rfl

/-- The checks look at the bytes that are read alone (rule R62). -/
theorem withMem_checkRead {mem : MemMap} {s : State} {addr : Word64} {offs : List Nat}
    (h : ∀ k ∈ offs, (withMem mem s).byteAt (byteAddr addr k) = s.byteAt (byteAddr addr k)) (size : Nat)
    (stack al : Bool) :
    checkRead (withMem mem s) addr size offs stack al = checkRead s addr size offs stack al := by
  have hfind : offs.find? (unmappedAt (withMem mem s) addr) = offs.find? (unmappedAt s addr) :=
    List.find?_congr fun k hk => by simp [unmappedAt, h k hk]
  simp only [checkRead, hfind]
  rfl

/-- Four bytes that read the same make the same lane. -/
theorem withMem_memLane {mem : MemMap} {s : State} {addr : Word64} {j : Nat}
    (h : ∀ i < 4, (withMem mem s).byteAt (byteAddr addr (4 * j + i)) = s.byteAt (byteAddr addr (4 * j + i))) :
    memLane (withMem mem s) addr j = memLane s addr j := by
  have h0 := h 0 (by omega)
  have h1 := h 1 (by omega)
  have h2 := h 2 (by omega)
  have h3 := h 3 (by omega)
  simp only [byteAddr_add, BitVec.add_zero] at h0 h1 h2 h3
  simp [memLane, State.read32, h0, h1, h2, h3]

/-- A stop is the same, but for the map in the state it carries: a page fault's code takes `P` and `RSVD` of the
map alone (rule R229). -/
theorem withMem_unlessStopped {mem : MemMap} {s : State} (hp : mem.pBit = s.mem.pBit)
    (hrsvd : mem.rsvdBit = s.mem.rsvdBit) (check : Option Stop) {go go' : Result}
    (hgo : go' = mapResult (withMem mem) go) :
    unlessStopped check (withMem mem s) go' = mapResult (withMem mem) (unlessStopped check s go) := by
  have hcode : ∀ fetch, pageFaultCode (withMem mem s) fetch = pageFaultCode s fetch := fun fetch => by
    simp [pageFaultCode, withMem, hp, hrsvd]
  cases check with
  | none => exact hgo
  | some st =>
    cases st with
    | raise c =>
      cases c <;>
        simp [unlessStopped, Stop.result, takeException, faultOf, mapResult, Fault.mapState, hcode]
    | refuse c => simp [unlessStopped, Stop.result, refuse, mapResult]

/-- The packed computation reads no memory, and of `SRC3` the enabled lanes alone (rules R62, R150). -/
theorem withMem_runPacked (mem : MemMap) (job : Job) {en : Nat → Bool} (d s2 : VReg) {s3 s3' : Nat → Lane}
    (s : State) (h : ∀ j < job.kl, en j = true → s3' j = s3 j) :
    runPacked job en d s2 s3' (withMem mem s) = mapResult (withMem mem) (runPacked job en d s2 s3 s) := by
  have hlane : ∀ j < job.kl, en j = true →
      computeLane job (withMem mem s) d s2 s3' j = computeLane job s d s2 s3 j := fun j hj he => by
    simp only [computeLane, h j hj he]
    rfl
  have hnew : packLanes job.kl (newLane job (withMem mem s) en d s2 s3')
      = packLanes job.kl (newLane job s en d s2 s3) := packLanes_congr fun j hj => by
    unfold newLane
    split
    · next he => rw [hlane j hj he]
    · rfl
  have hgather : ∀ flags : LaneResult → FpFlags,
      gatherFlags job.kl en (fun j => flags (computeLane job (withMem mem s) d s2 s3' j))
        = gatherFlags job.kl en fun j => flags (computeLane job s d s2 s3 j) := fun flags =>
    gatherFlags_congr (fun _ _ => rfl) fun j hj he => by rw [hlane j hj he]
  unfold runPacked
  simp only [hgather LaneResult.pre, hgather LaneResult.post, hnew]
  rw [withMem_mxcsr, withMem_cr4OSXMMEXCPT]
  split
  · split <;> rfl
  · rfl

/-- With the map `mem`, what a plain EVEX row reads of memory is the same: the check of its `SRC3` and the enabled
lanes of it. -/
structure ReadsSameOperand (mem : MemMap) (vl : VLen) (o : EvexOperands) (s : State) : Prop where
  check : evexOperandCheck vl o (withMem mem s) = evexOperandCheck vl o s
  lanes : ∀ j < vl.lanes, enabled s o.f.aaa j = true → evexSrc3Lane vl o (withMem mem s) j = evexSrc3Lane vl o s j

/-- A row that reads the same with another map has the same outcome, with the map carried along. -/
theorem withMem_evexFnmsub {mem : MemMap} {f : Form} {vl : VLen} {reserved : Bool} {o : EvexOperands} {s : State}
    (hp : mem.pBit = s.mem.pBit) (hrsvd : mem.rsvdBit = s.mem.rsvdBit) (h : ReadsSameOperand mem vl o s) :
    evexFnmsub f vl reserved o (withMem mem s) = mapResult (withMem mem) (evexFnmsub f vl reserved o s) := by
  unfold evexFnmsub
  rw [h.check]
  exact withMem_unlessStopped hp hrsvd _ (withMem_unlessStopped hp hrsvd _ (withMem_runPacked mem _ _ _ s h.lanes))

/-- A full-width operand: maps that agree on the bytes of the enabled lanes (rule R62). -/
theorem readsSameOperand_mem {mem : MemMap} {vl : VLen} {o : EvexOperands} {s : State} {m : MemForm}
    (hm : o.src3 = .mem m)
    (h : ∀ k < 4 * vl.lanes, enabled s o.f.aaa (k / 4) = true →
      (withMem mem s).byteAt (byteAddr (linearAddr s o.f.pre o.length vl.dispScale m) k)
        = s.byteAt (byteAddr (linearAddr s o.f.pre o.length vl.dispScale m) k)) : ReadsSameOperand mem vl o s := by
  constructor
  · simp only [evexOperandCheck, hm, withMem_linearAddr]
    refine withMem_checkRead (fun k hk => ?_) _ _ _
    obtain ⟨hlt, he⟩ := mem_fullOffsets_iff.1 hk
    exact h k hlt he
  · intro j hj he
    simp only [evexSrc3Lane, hm, withMem_linearAddr]
    exact withMem_memLane fun i hi => h (4 * j + i) (by omega) (by rw [show (4 * j + i) / 4 = j by omega]; exact he)

/-- A broadcast with no lane enabled: nothing is read (rule R62). -/
theorem readsSameOperand_bcst {mem : MemMap} {vl : VLen} {o : EvexOperands} {s : State} {m : MemForm}
    (hm : o.src3 = .bcst m) (h : ∀ j < vl.lanes, enabled s o.f.aaa j = false) : ReadsSameOperand mem vl o s := by
  have hnone : ¬ ∃ j < vl.lanes, enabled s o.f.aaa j = true := fun ⟨j, hj, he⟩ => by simp [h j hj] at he
  constructor
  · simp only [evexOperandCheck, hm, withMem_linearAddr]
    exact withMem_checkRead (fun k hk => absurd (mem_bcstOffsets.1 hk).1 hnone) _ _ _
  · exact fun j hj he => absurd ⟨j, hj, he⟩ hnone

/-! ### The obligations -/

/-- Settles O48: the operand's check is the first that a ready VEX row fails. -/
theorem vexOperandFaultOrder : Obligations.VexOperandFaultOrder :=
  ⟨vexOperandFaults_of_exec (f := .f132) fun _ _ => rfl, vexOperandFaults_of_exec (f := .f213) fun _ _ => rfl,
    vexOperandFaults_of_exec (f := .f231) fun _ _ => rfl, vexOperandFaults_of_exec (f := .f132) fun _ _ => rfl,
    vexOperandFaults_of_exec (f := .f213) fun _ _ => rfl, vexOperandFaults_of_exec (f := .f231) fun _ _ => rfl⟩

/-- Settles O49: the operand's check is the first that a ready EVEX row fails. -/
theorem evexOperandFaultOrder : Obligations.EvexOperandFaultOrder :=
  ⟨evexOperandFaults_of_exec (f := .f132) fun _ _ => rfl, evexOperandFaults_of_exec (f := .f213) fun _ _ => rfl,
    evexOperandFaults_of_exec (f := .f231) fun _ _ => rfl, evexOperandFaults_of_exec (f := .f132) fun _ _ => rfl,
    evexOperandFaults_of_exec (f := .f213) fun _ _ => rfl, evexOperandFaults_of_exec (f := .f231) fun _ _ => rfl,
    evexOperandFaults_of_exec (f := .f132) fun _ _ => rfl, evexOperandFaults_of_exec (f := .f213) fun _ _ => rfl,
    evexOperandFaults_of_exec (f := .f231) fun _ _ => rfl⟩

/-- Settles O50: of the three kinds of rows, only a plain EVEX row with a broadcast operand checks alignment. -/
theorem onlyBroadcastRaisesAlignmentCheck : Obligations.OnlyBroadcastRaisesAlignmentCheck := by
  intro i s c t h
  obtain ⟨f, l, o, rfl⟩ | ⟨f, l', l, o, rfl⟩ | ⟨f, o, rfl⟩ := instr_cases i
  · rw [exec_vexInstr] at h
    exact absurd h (vexFnmsub_ne_ac _ _ _ _ _ _)
  · rw [exec_evexInstr] at h
    obtain ⟨hac, m, hm⟩ := evexFnmsub_ac h
    obtain ⟨ham, hfl, hcpl⟩ := (alignmentChecked_iff s).1 hac
    exact ⟨ham, hfl, hcpl, f, l', l, o, m, rfl, hm⟩
  · rw [exec_evexErInstr] at h
    exact absurd h (evexErFnmsub_ne_ac _ _ _ _ _)

/-- Settles O59: only the check of `SRC3` and its enabled lanes read memory. -/
theorem bytesOfDisabledLanesDoNotMatter : Obligations.BytesOfDisabledLanesDoNotMatter := by
  intro f vl o m s mem hp hrsvd h i
  have hsame : ReadsSameOperand mem vl o s := by
    obtain ⟨hm, hbytes⟩ | ⟨hm, hnone⟩ := h
    · exact readsSameOperand_mem hm hbytes
    · exact readsSameOperand_bcst hm hnone
  have hvl : (if (vl == .l512) = true then VLen.l512 else if (vl == .l256) = true then .l256 else .l128) = vl := by
    cases vl <;> rfl
  change exec i (withMem mem s) = mapResult (withMem mem) (exec i s)
  rw [exec_evexInstr, exec_evexInstr, hvl]
  exact withMem_evexFnmsub hp hrsvd hsame

end Sys2Proof.Machine
end

section
/-!
PROOFS. The encoding: the decoder inverts the encoder, what a decoded instruction is, what is refused, and
the lengths (O12 to O17, O11).
-/

namespace Sys2Proof

/-! ### The bytes the encoder writes -/

/-- The ModRM byte that the encoder writes (rule R92). -/
def modrmByte (reg : BitVec 3) (e : RmEncoding) : Byte := e.mod ++ reg ++ e.rm

/-- The first payload byte that the encoder writes after C4h (rule R83). -/
def vexP1 (dest : BitVec 4) (e : RmEncoding) : Byte :=
  BitVec.ofBool (!dest.getLsbD 3) ++ BitVec.ofBool (!e.x) ++ BitVec.ofBool (!e.b) ++ 2#5

/-- The second payload byte that the encoder writes after C4h (rule R83). -/
def vexP2 (src2 : BitVec 4) (l : Bool) : Byte := 0#1 ++ ~~~src2 ++ BitVec.ofBool l ++ 1#2

/-- `P0` as the encoder writes it (rule R87). -/
def evexP0 (o : EvexFields) (e : RmEncoding) : Byte :=
  BitVec.ofBool (!o.dest.getLsbD 3) ++ BitVec.ofBool (!e.x) ++ BitVec.ofBool (!e.b)
    ++ BitVec.ofBool (!o.dest.getLsbD 4) ++ BitVec.ofBool o.p0bit3 ++ 2#3

/-- `P1` as the encoder writes it (rule R87). -/
def evexP1 (o : EvexFields) : Byte := 0#1 ++ ~~~(o.src2.extractLsb' 0 4) ++ BitVec.ofBool o.p1bit2 ++ 1#2

/-- `P2` as the encoder writes it (rule R87). -/
def evexP2 (o : EvexFields) (ll : BitVec 2) (b : Bool) : Byte :=
  BitVec.ofBool o.z ++ ll ++ BitVec.ofBool b ++ BitVec.ofBool (!o.src2.getLsbD 4) ++ o.aaa

theorem encodeVex_eq (f : Form) (l : Bool) (o : VexOperands) :
    encodeVex f l o = o.pre.bytes ++ 0xC4#8 :: vexP1 o.dest o.src3.rmEncoding :: vexP2 o.src2 l :: f.opcode
      :: modrmByte (o.dest.extractLsb' 0 3) o.src3.rmEncoding :: o.src3.rmEncoding.tail := rfl

theorem encodeEvex_eq (f : Form) (ll : BitVec 2) (b : Bool) (o : EvexFields) (e : RmEncoding) :
    encodeEvex f ll b o e = o.pre.bytes ++ 0x62#8 :: evexP0 o e :: evexP1 o :: evexP2 o ll b :: f.opcode
      :: modrmByte (o.dest.extractLsb' 0 3) e :: e.tail := rfl

/-! ### The fields read back from them -/

theorem modrmByte_fields (reg : BitVec 3) (e : RmEncoding) :
    (modrmByte reg e).extractLsb' 6 2 = e.mod ∧ (modrmByte reg e).extractLsb' 3 3 = reg
      ∧ (modrmByte reg e).extractLsb' 0 3 = e.rm :=
  modrm_fields e.mod reg e.rm

theorem vexP1_fields (dest : BitVec 4) (e : RmEncoding) :
    (vexP1 dest e).getLsbD 7 = (!dest.getLsbD 3) ∧ (vexP1 dest e).getLsbD 6 = (!e.x)
      ∧ (vexP1 dest e).getLsbD 5 = (!e.b) ∧ (vexP1 dest e).extractLsb' 0 5 = 2#5 := by
  unfold vexP1
  generalize (!dest.getLsbD 3) = r, (!e.x) = x, (!e.b) = b
  revert r x b; decide

/-- `W`, the inverted `vvvv`, one bit, and `pp = 01b`: `P1` of both encodings but for the bit's meaning. -/
theorem vvvvByte_fields (v : BitVec 4) (l : Bool) :
    (0#1 ++ v ++ BitVec.ofBool l ++ 1#2 : Byte).getLsbD 7 = false
      ∧ (0#1 ++ v ++ BitVec.ofBool l ++ 1#2 : Byte).extractLsb' 3 4 = v
      ∧ (0#1 ++ v ++ BitVec.ofBool l ++ 1#2 : Byte).getLsbD 2 = l
      ∧ (0#1 ++ v ++ BitVec.ofBool l ++ 1#2 : Byte).extractLsb' 0 2 = 1#2 := by
  revert v l; decide

theorem vexP2_fields (src2 : BitVec 4) (l : Bool) :
    (vexP2 src2 l).getLsbD 7 = false ∧ (vexP2 src2 l).extractLsb' 3 4 = ~~~src2
      ∧ (vexP2 src2 l).getLsbD 2 = l ∧ (vexP2 src2 l).extractLsb' 0 2 = 1#2 :=
  vvvvByte_fields _ _

theorem evexP0_fields (o : EvexFields) (e : RmEncoding) :
    (evexP0 o e).getLsbD 7 = (!o.dest.getLsbD 3) ∧ (evexP0 o e).getLsbD 6 = (!e.x)
      ∧ (evexP0 o e).getLsbD 5 = (!e.b) ∧ (evexP0 o e).getLsbD 4 = (!o.dest.getLsbD 4)
      ∧ (evexP0 o e).getLsbD 3 = o.p0bit3 ∧ (evexP0 o e).extractLsb' 0 3 = 2#3 := by
  unfold evexP0
  generalize (!o.dest.getLsbD 3) = r, (!e.x) = x, (!e.b) = b, (!o.dest.getLsbD 4) = r', o.p0bit3 = u
  revert r x b r' u; decide

theorem evexP1_fields (o : EvexFields) :
    (evexP1 o).getLsbD 7 = false ∧ (evexP1 o).extractLsb' 3 4 = ~~~(o.src2.extractLsb' 0 4)
      ∧ (evexP1 o).getLsbD 2 = o.p1bit2 ∧ (evexP1 o).extractLsb' 0 2 = 1#2 :=
  vvvvByte_fields _ _

theorem evexP2_fields (o : EvexFields) (ll : BitVec 2) (b : Bool) :
    (evexP2 o ll b).getLsbD 7 = o.z ∧ (evexP2 o ll b).extractLsb' 5 2 = ll
      ∧ (evexP2 o ll b).getLsbD 6 = ll.getLsbD 1 ∧ (evexP2 o ll b).getLsbD 5 = ll.getLsbD 0
      ∧ (evexP2 o ll b).getLsbD 4 = b ∧ (evexP2 o ll b).getLsbD 3 = (!o.src2.getLsbD 4)
      ∧ (evexP2 o ll b).extractLsb' 0 3 = o.aaa := by
  unfold evexP2
  generalize o.z = z, (!o.src2.getLsbD 4) = v, o.aaa = aaa
  revert z ll b v aaa; decide

/-! ### Decoding what was encoded -/

theorem regRm_mod_tail (r : BitVec 5) : (regRm r).mod = 3#2 ∧ (regRm r).tail = [] := ⟨rfl, rfl⟩

/-- A VEX register `SRC3` is extended by `B` alone (rule R93), an EVEX one by `X` and `B` (rule R94). -/
theorem ext4_regRm (r : BitVec 4) : ext4 (regRm (0#1 ++ r)).b (regRm (0#1 ++ r)).rm = r := by
  revert r; decide

theorem ext5_regRm (r : BitVec 5) : ext5 (regRm r).x (regRm r).b (regRm r).rm = r := ext5_split r

/-- `V'` in front of `vvvv` (rule R94). -/
theorem src2_join (r : BitVec 5) : BitVec.ofBool (r.getLsbD 4) ++ r.extractLsb' 0 4 = r := by
  revert r; decide

/-- The operands of an encoded VEX row are read back. -/
theorem decodeVexOperands_encoded (f : Form) (l : Bool) {o : VexOperands} (h : o.src3.wf = true) (rest : Bytes) :
    decodeVexOperands o.pre f (vexP1 o.dest o.src3.rmEncoding) (vexP2 o.src2 l)
      (modrmByte (o.dest.extractLsb' 0 3) o.src3.rmEncoding :: (o.src3.rmEncoding.tail ++ rest))
        = .ok (vexInstr f l o, rest) := by
  obtain ⟨pre, dest, src2, src3⟩ := o
  simp only [decodeVexOperands, modrmByte_fields, vexP1_fields, vexP2_fields, Bool.not_not, BitVec.not_not, ext4_split]
  cases src3 with
  | reg r => simp only [VexSrc3.rmEncoding, regRm_mod_tail, ext4_regRm, if_true, List.nil_append]
  | mem m => simp only [VexSrc3.rmEncoding, rmEncoding_mod, takeMem_append h, if_false]

/-- An encoded VEX row is decoded to itself. -/
theorem decode_encodeVex (f : Form) (l : Bool) {o : VexOperands} (h : o.wf = true) (rest : Bytes) :
    decode (encodeVex f l o ++ rest) = .ok (vexInstr f l o, rest) := by
  obtain ⟨ha, hs⟩ := (Bool.and_eq_true_iff).mp h
  rw [encodeVex_eq, List.append_assoc, List.cons_append, decode_pre_vex ha, ← decodeVexOperands_encoded f l hs]
  simp [decodeVex, vexP1_fields, vexP2_fields, -BitVec.getLsbD_eq_getElem]

/-- The decoder gets to the ModRM byte of an encoded EVEX row. -/
theorem decode_encodeEvex (f : Form) (ll : BitVec 2) (b : Bool) {o : EvexFields} (e : RmEncoding)
    (h : o.pre.admitted = true) (rest : Bytes) :
    decode (encodeEvex f ll b o e ++ rest)
      = decodeEvexOperands o.pre f (evexP0 o e) (evexP1 o) (evexP2 o ll b)
          (modrmByte (o.dest.extractLsb' 0 3) e :: (e.tail ++ rest)) := by
  rw [encodeEvex_eq, List.append_assoc, List.cons_append, decode_pre_evex h]
  simp [decodeEvex, evexP0_fields, evexP1_fields, -BitVec.getLsbD_eq_getElem]

/-- An encoded EVEX row with a register `SRC3`: an embedded-rounding row when `b = 1` (rule R90). -/
theorem decode_encodeEvex_reg (f : Form) (ll : BitVec 2) (b : Bool) {o : EvexFields} (r : BitVec 5)
    (h : o.pre.admitted = true) (rest : Bytes) :
    decode (encodeEvex f ll b o (regRm r) ++ rest)
      = .ok (if b then evexErInstr f ⟨o, ll, r⟩ else evexInstr f (ll.getLsbD 1) (ll.getLsbD 0) ⟨o, .reg r⟩,
          rest) := by
  rw [decode_encodeEvex f ll b _ h]
  simp only [decodeEvexOperands, modrmByte_fields, evexP0_fields, evexP1_fields, evexP2_fields, Bool.not_not,
    BitVec.not_not, ext5_split, src2_join, regRm_mod_tail, ext5_regRm, if_true, List.nil_append]
  cases b <;> rfl

/-- An encoded EVEX row with a memory `SRC3`: a broadcast when `b = 1` (rule R90). -/
theorem decode_encodeEvex_mem (f : Form) (ll : BitVec 2) (b : Bool) {o : EvexFields} {m : MemForm}
    (h : o.pre.admitted = true) (hm : m.wf = true) (rest : Bytes) :
    decode (encodeEvex f ll b o m.rmEncoding ++ rest)
      = .ok (evexInstr f (ll.getLsbD 1) (ll.getLsbD 0) ⟨o, if b then .bcst m else .mem m⟩, rest) := by
  rw [decode_encodeEvex f ll b _ h]
  simp only [decodeEvexOperands, modrmByte_fields, evexP0_fields, evexP1_fields, evexP2_fields, Bool.not_not,
    BitVec.not_not, ext5_split, src2_join, rmEncoding_mod, takeMem_append hm, if_false]

/-- An encoded plain EVEX row is decoded to itself. -/
theorem decode_encodeEvexPlain (f : Form) (ll : BitVec 2) {o : EvexOperands} (h : o.wf = true) (rest : Bytes) :
    decode (encodeEvexPlain f ll o ++ rest) = .ok (evexInstr f (ll.getLsbD 1) (ll.getLsbD 0) o, rest) := by
  obtain ⟨ha, hs⟩ := (Bool.and_eq_true_iff).mp h
  obtain ⟨fields, src3⟩ := o
  cases src3 with
  | reg r => exact decode_encodeEvex_reg f ll false r ha rest
  | mem m => exact decode_encodeEvex_mem f ll false ha hs rest
  | bcst m => exact decode_encodeEvex_mem f ll true ha hs rest

/-- An encoded embedded-rounding row is decoded to itself. -/
theorem decode_encodeEvexEr (f : Form) {o : EvexErOperands} (h : o.wf = true) (rest : Bytes) :
    decode (encodeEvexEr f o ++ rest) = .ok (evexErInstr f o, rest) :=
  decode_encodeEvex_reg f o.rc true o.src3 h rest

/-! ### The three kinds of rows -/

theorem encode_vexInstr (f : Form) (l : Bool) (o : VexOperands) : encode (vexInstr f l o) = encodeVex f l o := by
  cases f <;> cases l <;> rfl

theorem encode_evexInstr (f : Form) (l' l : Bool) (o : EvexOperands) :
    encode (evexInstr f l' l o) = encodeEvexPlain f (BitVec.ofBool l' ++ BitVec.ofBool l) o := by
  cases f <;> cases l' <;> cases l <;> rfl

theorem encode_evexErInstr (f : Form) (o : EvexErOperands) : encode (evexErInstr f o) = encodeEvexEr f o := by
  cases f <;> rfl

@[simp] theorem vexInstr_wf (f : Form) (l : Bool) (o : VexOperands) : (vexInstr f l o).wf = o.wf := by
  cases f <;> cases l <;> rfl

@[simp] theorem evexInstr_wf (f : Form) (l' l : Bool) (o : EvexOperands) : (evexInstr f l' l o).wf = o.wf := by
  cases f <;> cases l' <;> cases l <;> rfl

@[simp] theorem evexErInstr_wf (f : Form) (o : EvexErOperands) : (evexErInstr f o).wf = o.wf := by
  cases f <;> rfl

theorem twoBits_split (h l : Bool) :
    (BitVec.ofBool h ++ BitVec.ofBool l).getLsbD 1 = h ∧ (BitVec.ofBool h ++ BitVec.ofBool l).getLsbD 0 = l := by
  revert h l; decide

/-! ### Well-formedness of what is decoded -/

theorem decodeVexOperands_wf {pre : Prefixes} {f : Form} {p1 p2 : Byte} {bs rest : Bytes} {i : Instr}
    (ha : pre.admitted = true) (h : decodeVexOperands pre f p1 p2 bs = .ok (i, rest)) : i.wf = true := by
  cases bs with
  | nil => simp [decodeVexOperands] at h
  | cons modrm bs =>
    simp only [decodeVexOperands] at h
    split at h
    · obtain ⟨rfl, -⟩ := Prod.mk.inj (Except.ok.inj h)
      simp [VexOperands.wf, VexSrc3.wf, ha]
    · split at h
      · next m _ hm =>
        obtain ⟨rfl, -⟩ := Prod.mk.inj (Except.ok.inj h)
        simp [VexOperands.wf, VexSrc3.wf, ha, (takeMem_some hm).1]
      · simp at h

theorem decodeEvexOperands_wf {pre : Prefixes} {f : Form} {p0 p1 p2 : Byte} {bs rest : Bytes} {i : Instr}
    (ha : pre.admitted = true) (h : decodeEvexOperands pre f p0 p1 p2 bs = .ok (i, rest)) : i.wf = true := by
  cases bs with
  | nil => simp [decodeEvexOperands] at h
  | cons modrm bs =>
    simp only [decodeEvexOperands] at h
    split at h
    · split at h
      · obtain ⟨rfl, -⟩ := Prod.mk.inj (Except.ok.inj h)
        simp [EvexErOperands.wf, ha]
      · obtain ⟨rfl, -⟩ := Prod.mk.inj (Except.ok.inj h)
        simp [EvexOperands.wf, EvexSrc3.wf, ha]
    · split at h
      · next m _ hm =>
        obtain ⟨rfl, -⟩ := Prod.mk.inj (Except.ok.inj h)
        obtain ⟨hwf, -⟩ := takeMem_some hm
        have hsrc : (if p2.getLsbD 4 then EvexSrc3.bcst m else .mem m).wf = true := by
          split <;> exact hwf
        rw [evexInstr_wf, EvexOperands.wf, hsrc, ha]
        rfl
      · simp at h

theorem decode_ok_wf {bs rest : Bytes} {i : Instr} (h : decode bs = .ok (i, rest)) : i.wf = true := by
  obtain ⟨pre, b, ops, ha, -, ⟨-, hv⟩ | ⟨-, he⟩⟩ := decode_ok h
  · obtain ⟨_, _, _, _, _, -, ho, -⟩ := decodeVex_ok hv
    exact decodeVexOperands_wf ha ho
  · obtain ⟨_, _, _, _, _, _, -, ho, -⟩ := decodeEvex_ok he
    exact decodeEvexOperands_wf ha ho

/-! ### What the decoder refuses -/

theorem formOfOpcode_none {op : Byte} (h : op ≠ 0x9E#8 ∧ op ≠ 0xAE#8 ∧ op ≠ 0xBE#8) :
    formOfOpcode op = none := by
  simp [formOfOpcode, h]

/-- After C4h: another map, another `pp`, `W = 1`, or another opcode (rule R86). -/
theorem decodeVex_notOfGroup (pre : Prefixes) {p1 p2 op : Byte} (bs : Bytes)
    (h : p1.extractLsb' 0 5 ≠ 2#5 ∨ p2.extractLsb' 0 2 ≠ 1#2 ∨ p2.getLsbD 7 = true
      ∨ (op ≠ 0x9E#8 ∧ op ≠ 0xAE#8 ∧ op ≠ 0xBE#8)) :
    decodeVex pre (p1 :: p2 :: op :: bs) = .error .notOfGroup := by
  simp only [decodeVex]
  split
  · rfl
  · next hmap =>
    split
    · rfl
    · next hppw =>
      obtain ⟨hpp, hw⟩ := not_or.1 hppw
      obtain h | h | h | h := h
      · exact absurd h hmap
      · exact absurd h hpp
      · exact absurd h hw
      · rw [formOfOpcode_none h]

/-- After 62h: another `mmm`, another `pp`, `W = 1`, or another opcode (rule R89). -/
theorem decodeEvex_notOfGroup (pre : Prefixes) {p0 p1 op : Byte} (p2 : Byte) (bs : Bytes)
    (h : p0.extractLsb' 0 3 ≠ 2#3 ∨ p1.extractLsb' 0 2 ≠ 1#2 ∨ p1.getLsbD 7 = true
      ∨ (op ≠ 0x9E#8 ∧ op ≠ 0xAE#8 ∧ op ≠ 0xBE#8)) :
    decodeEvex pre (p0 :: p1 :: p2 :: op :: bs) = .error .notOfGroup := by
  simp only [decodeEvex]
  split
  · rfl
  · next hmmm =>
    split
    · rfl
    · next hppw =>
      obtain ⟨hpp, hw⟩ := not_or.1 hppw
      obtain h | h | h | h := h
      · exact absurd h hmmm
      · exact absurd h hpp
      · exact absurd h hw
      · rw [formOfOpcode_none h]

theorem countP_isAddrSize (ps : List LegacyPrefix) : ps.countP LegacyPrefix.isAddrSize = ps.count .addrSize :=
  List.countP_congr fun p _ => by cases p <;> decide

/-- Admitted prefixes have at most one segment override and at most one 67h (rule R81, D15). -/
theorem admitted_iff (p : Prefixes) :
    p.admitted = true ↔ p.legacy.countP LegacyPrefix.isSegment ≤ 1 ∧ p.legacy.count .addrSize ≤ 1 := by
  simp only [Prefixes.admitted, Bool.and_eq_true, decide_eq_true_eq, ← List.countP_eq_length_filter,
    countP_isAddrSize]

/-! ### Lengths -/

theorem disp_length_le (d : Disp) : d.length ≤ 4 := by cases d <;> simp [Disp.length]

/-- A SIB byte and four displacement bytes at most (rules R111, R112). -/
theorem memForm_length_le (m : MemForm) : m.length ≤ 5 := by
  cases m with
  | base r d => exact (disp_length_le d).trans (by decide)
  | ripRel d => exact Nat.le_succ 4
  | sib sc i b d => exact Nat.add_le_add_left (disp_length_le d) 1
  | sibNoBase sc i d => exact Nat.le_refl 5

theorem vexSrc3_length_le (r : VexSrc3) : r.length ≤ 5 := by
  cases r with
  | reg r => exact Nat.zero_le 5
  | mem m => exact memForm_length_le m

theorem evexSrc3_length_le (r : EvexSrc3) : r.length ≤ 5 := by
  cases r with
  | reg r => exact Nat.zero_le 5
  | mem m => exact memForm_length_le m
  | bcst m => exact memForm_length_le m

/-! ### The obligations -/

/-- Settles O12: each kind of row is read back from its payload bytes, ModRM, and the bytes of `SRC3`. -/
theorem decodeInvertsEncode : Obligations.DecodeInvertsEncode := by
  intro i rest h
  obtain ⟨f, l, o, rfl⟩ | ⟨f, l', l, o, rfl⟩ | ⟨f, o, rfl⟩ := Machine.instr_cases i
  · rw [vexInstr_wf] at h
    rw [encode_vexInstr, decode_encodeVex f l h]
  · rw [evexInstr_wf] at h
    obtain ⟨hl', hl⟩ := twoBits_split l' l
    rw [encode_evexInstr, decode_encodeEvexPlain f _ h, hl', hl]
  · rw [evexErInstr_wf] at h
    rw [encode_evexErInstr, decode_encodeEvexEr f h]

/-- Settles O13: the operands that were read are encodable, and the decoder took the bytes of the instruction. -/
theorem decodedInstructionIsWellFormed : Obligations.DecodedInstructionIsWellFormed := by
  intro bytes rest i h
  obtain ⟨used, rfl, hlen, -⟩ := decode_readsFirst h
  exact ⟨decode_ok_wf h, decode_ok_length h, by rw [← hlen, List.drop_left]⟩

/-- Settles O14: the decoder looks at no byte after the instruction. -/
theorem decodeReadsOnlyTheInstruction : Obligations.DecodeReadsOnlyTheInstruction :=
  fun _ _ tail _ h => decode_ok_take h tail

/-- Settles O15: the decoder goes on after C4h and 62h alone, and there tests every field that the group fixes. -/
theorem neighboursAreNotOfTheGroup : Obligations.NeighboursAreNotOfTheGroup := by
  intro pre bytes ha
  refine ⟨fun p1 p2 op h => ?_, fun p0 p1 p2 op h => ?_, fun b hlegacy hrex hvex hevex => ?_⟩
  · rw [decode_pre_vex ha, decodeVex_notOfGroup pre bytes h]
  · rw [decode_pre_evex ha, decodeEvex_notOfGroup pre p2 bytes h]
  · rw [decode_pre pre bytes ha (legacyOfByte_none hlegacy) (by simpa [isRexByte] using hrex)]
    simp [decodeAfterPrefixes, hvex, hevex]

/-- Settles O16: the legacy prefixes are all taken before anything else is looked at, and they are not admitted. -/
theorem repeatedPrefixesAreRefused : Obligations.RepeatedPrefixesAreRefused := by
  intro legacy b bytes hb hrep
  have hna : ∀ rex, (Prefixes.mk legacy rex).admitted ≠ true := fun rex ha => by
    obtain ⟨hseg, haddr⟩ := (admitted_iff _).1 ha
    dsimp only at hseg haddr
    omega
  simp only [decode, takeLegacy_append legacy bytes (legacyOfByte_none hb), if_neg (hna _)]

/-- Settles O17: the encoder writes the bytes that the length counts, at most five of them for `SRC3`. -/
theorem instructionLengths : Obligations.InstructionLengths := by
  refine ⟨fun f l o => ?_, fun f l' l o => ?_, fun f o => ?_⟩
  · have hsrc := vexSrc3_length_le o.src3
    rw [encode_vexInstr, encodeVex_length, Machine.vexInstr_length, VexOperands.length]
    omega
  · have hsrc := evexSrc3_length_le o.src3
    rw [encode_evexInstr, encodeEvexPlain_length, Machine.evexInstr_length, EvexOperands.length]
    omega
  · rw [encode_evexErInstr, encodeEvexEr_length, Machine.evexErInstr_length, EvexErOperands.length]
    omega

/-- Settles O11: each of the seven words, decoded. -/
theorem handWrittenWordsDecode : Obligations.HandWrittenWordsDecode := by
  unfold Obligations.HandWrittenWordsDecode
  decide

end Sys2Proof
end

section
/-!
PROOFS. The memory operand's address, the reasons of `#UD` and `#GP(0)` that stand in the encoding, and the
length of a run (O18 to O20, O43, O45, O46, O55).
-/

namespace Sys2Proof.Machine

/-! ### Address expressions as integers -/

theorem ofInt_toNat {w : Nat} (x : BitVec w) : BitVec.ofInt w x.toNat = x := by
  rw [BitVec.ofInt_natCast, BitVec.ofNat_toNat, BitVec.setWidth_eq]

/-- The index term as a natural number modulo 2^64 (rule R111). -/
theorem indexTerm_eq_ofNat (s : State) (sc : BitVec 2) (i : BitVec 4) :
    indexTerm s sc i = BitVec.ofNat 64 (if i = 4#4 then 0 else (s.gpr i).toNat * 2 ^ sc.toNat) := by
  unfold indexTerm
  split
  · rfl
  · exact BitVec.eq_of_toNat_eq (by rw [BitVec.toNat_shiftLeft, BitVec.toNat_ofNat, Nat.shiftLeft_eq])

/-! ### The low 32 bits of an address -/

section
variable {s s' : State}

theorem indexTerm_low (hx : ∀ r, (s.gpr r).setWidth 32 = (s'.gpr r).setWidth 32) (sc : BitVec 2) (i : BitVec 4) :
    (indexTerm s sc i).setWidth 32 = (indexTerm s' sc i).setWidth 32 := by
  unfold indexTerm
  split
  · rfl
  · simp only [BitVec.shiftLeft_eq_mul_twoPow, BitVec.setWidth_mul _ _ (show 32 ≤ 64 by decide), hx i]

/-- Sums keep their low bits, so an address expression's low 32 bits depend on those of its terms (rule R115). -/
theorem addrExpr_low (hx : ∀ r, (s.gpr r).setWidth 32 = (s'.gpr r).setWidth 32)
    (hrip : s.rip.setWidth 32 = s'.rip.setWidth 32) (len n : Nat) (m : MemForm) :
    (addrExpr s len n m).setWidth 32 = (addrExpr s' len n m).setWidth 32 := by
  have hadd : ∀ a b : Word64, (a + b).setWidth 32 = a.setWidth 32 + b.setWidth 32 :=
    fun a b => BitVec.setWidth_add a b (by decide)
  cases m with
  | base r d => simp only [addrExpr, hadd, hx r]
  | ripRel d => simp only [addrExpr, hadd, hrip]
  | sib sc i b d => simp only [addrExpr, hadd, hx b, indexTerm_low hx sc i]
  | sibNoBase sc i d => simp only [addrExpr, hadd, indexTerm_low hx sc i]

end

theorem effectiveAddr_addrSize {s : State} {pre : Prefixes} (h : LegacyPrefix.addrSize ∈ pre.legacy) (len n : Nat)
    (m : MemForm) : effectiveAddr s pre len n m = ((addrExpr s len n m).setWidth 32).setWidth 64 := by
  simp [effectiveAddr, hasAddrSize, h]

theorem effectiveAddr_no_addrSize {s : State} {pre : Prefixes} (h : LegacyPrefix.addrSize ∉ pre.legacy) (len n : Nat)
    (m : MemForm) : effectiveAddr s pre len n m = addrExpr s len n m := by
  simp [effectiveAddr, hasAddrSize, h]

/-! ### Segment overrides -/

/-- Admitted prefixes do not hold both an `FS` and a `GS` override (rule R81). -/
theorem fs_not_mem_of_gs {pre : Prefixes} (ha : pre.admitted = true) (hg : LegacyPrefix.gs ∈ pre.legacy) :
    LegacyPrefix.fs ∉ pre.legacy := by
  intro hf
  have hsub : [LegacyPrefix.fs, .gs] ⊆ pre.legacy.filter LegacyPrefix.isSegment := by
    simp [hf, hg, LegacyPrefix.isSegment]
  have hlen := (List.subperm_of_subset (by decide) hsub).length_le
  rw [← List.countP_eq_length_filter] at hlen
  exact absurd (hlen.trans ((admitted_iff pre).1 ha).1) (by decide)

/-! ### The gate's `#UD` -/

/-- A row of at most fifteen bytes with a reason for `#UD`, in a mode with a rule for it (rules R102, R233). -/
theorem gate_ud {s : State} {len : Nat} {e c : Bool} (hp : s.mode ≠ .protected32) (hc : s.mode ≠ .compatibility)
    (hl : len ≤ 15) (hud : (e || c) = true) : gate s len e c = some (.raise .ud) := by
  have hm : modeRefused s = false := by
    unfold modeRefused
    split
    · next h => exact absurd h hp
    · next h => exact absurd h hc
    all_goals rfl
  simp [gate, hm, hud, Nat.not_lt.2 hl]

theorem hasForbidden_iff (p : Prefixes) :
    hasForbidden p = true ↔ LegacyPrefix.lock ∈ p.legacy ∨ LegacyPrefix.opSize ∈ p.legacy
      ∨ LegacyPrefix.repne ∈ p.legacy ∨ LegacyPrefix.rep ∈ p.legacy ∨ p.rex ≠ [] := by
  simp only [hasForbidden, Bool.or_eq_true, List.any_eq_true, Bool.not_eq_true', List.isEmpty_eq_false_iff]
  constructor
  · rintro (⟨q, hq, h⟩ | h)
    · cases q <;> simp_all
    · simp [h]
  · rintro (h | h | h | h | h)
    · exact .inl ⟨_, h, rfl⟩
    · exact .inl ⟨_, h, rfl⟩
    · exact .inl ⟨_, h, rfl⟩
    · exact .inl ⟨_, h, rfl⟩
    · exact .inr h

theorem stateUD_iff (s : State) :
    stateUD s = true ↔ s.cr0PE = false ∨ s.rflagsVM = true ∨ s.cr4OSXSAVE = false
      ∨ s.xcr0.extractLsb' 1 2 ≠ 3#2 := by
  simp [stateUD, State.avxEnabled, or_assoc]

theorem evexEncodingUD_iff (f : EvexFields) :
    evexEncodingUD f = true ↔ hasForbidden f.pre = true ∨ f.p0bit3 = true ∨ f.p1bit2 = false
      ∨ (f.z = true ∧ f.aaa = 0#3) := by
  simp [evexEncodingUD, or_assoc]

theorem evexStateUD_iff (s : State) (vl : VLen) :
    evexStateUD s vl = true ↔ stateUD s = true ∨ s.xcr0.extractLsb' 5 3 ≠ 7#3 ∨ s.cfg.avx512f = false
      ∨ (vl ≠ .l512 ∧ s.cfg.avx512vl = false) := by
  simp [evexStateUD, State.avx512Enabled, or_assoc]

theorem evexFnmsub_ud {f : Form} {vl : VLen} {reserved : Bool} {o : EvexOperands} {s : State}
    (hp : s.mode ≠ .protected32) (hc : s.mode ≠ .compatibility) (hl : o.length ≤ 15)
    (hud : evexEncodingUD o.f = true ∨ reserved = true ∨ evexStateUD s vl = true) :
    evexFnmsub f vl reserved o s = .fault (.ud s) := by
  rw [evexFnmsub, gate_ud hp hc hl (by simpa [or_assoc] using hud)]
  rfl

theorem evexErFnmsub_ud {f : Form} {o : EvexErOperands} {s : State}
    (hp : s.mode ≠ .protected32) (hc : s.mode ≠ .compatibility) (hl : o.length ≤ 15)
    (hud : evexEncodingUD o.f = true ∨ evexStateUD s .l512 = true) :
    evexErFnmsub f o s = .fault (.ud s) := by
  rw [evexErFnmsub, gate_ud hp hc hl (by simpa using hud)]
  rfl

/-! ### How far a run gets -/

/-- How many bytes of the program stand before `RIP`. -/
def programOffset (s : State) : Nat := (s.rip - s.prog.base).toNat

/-- A fetched instruction stands whole in the program. -/
theorem fetch_instr_inside {s : State} {i : Instr} (hmode : s.mode = .bits64) (h : fetch s = .instr i) :
    programOffset s + i.length ≤ s.prog.bytes.length := by
  obtain ⟨bs, rest, hprog, -, hdec⟩ := fetch_instr h
  obtain ⟨hoff, rfl⟩ := programFrom_eq_some.1 hprog
  obtain ⟨n, hwin⟩ := fetchWindow_prefix _ _
  have hlen := decode_ok_length hdec
  rw [hwin, List.length_take, List.length_take, List.length_drop] at hlen
  rw [fetchAddress_bits64 hmode] at hoff hlen
  unfold programOffset
  omega

theorem programOffset_after {s : State} (m : BitVec 32) (dest : BitVec 5) (kl : Nat) (f : Nat → Lane) {len : Nat}
    (h : programOffset s + len < 2 ^ 64) :
    programOffset (after s m dest kl f len) = programOffset s + len := by
  have hmove : s.rip + BitVec.ofNat 64 len - s.prog.base = s.rip - s.prog.base + BitVec.ofNat 64 len := by ring
  have hprog : (after s m dest kl f len).prog = s.prog := rfl
  unfold programOffset at h ⊢
  rw [after_rip, hprog, hmove, BitVec.toNat_add, BitVec.toNat_ofNat]
  omega

/-- A completed step reads its instruction, of five bytes at least, inside the program and moves `RIP` past it. -/
theorem step_next_offset {s t : State} (hlen : s.prog.bytes.length < 2 ^ 64) (h : step s = .next t) :
    t.prog = s.prog ∧ programOffset s + 5 ≤ programOffset t ∧ programOffset t ≤ s.prog.bytes.length := by
  obtain ⟨hlaunch, i, hfetch, hexec⟩ := step_next h
  obtain ⟨hmode, -, -⟩ := (launchRefusal_none_iff s).1 hlaunch
  have hinside := fetch_instr_inside hmode hfetch
  have hfive := five_le_length i
  obtain ⟨m, dest, f, -, rfl⟩ := exec_next hexec
  rw [programOffset_after m dest _ f (Nat.lt_of_le_of_lt hinside hlen)]
  exact ⟨rfl, Nat.add_le_add_left hfive _, hinside⟩

/-- Each completed step takes five bytes of the program at least. -/
theorem safeRun_offset {k : Nat} :
    ∀ {s : State}, s.prog.bytes.length < 2 ^ 64 → SafeRun (k + 1) s →
      programOffset s + 5 * (k + 1) ≤ s.prog.bytes.length := by
  induction k with
  | zero =>
    rintro s hlen ⟨t, ht⟩
    obtain ⟨s', hstep, -⟩ := run_succ_next ht
    obtain ⟨-, hmove, hin⟩ := step_next_offset hlen hstep
    omega
  | succ k ih =>
    rintro s hlen ⟨t, ht⟩
    obtain ⟨s', hstep, hrun⟩ := run_succ_next ht
    obtain ⟨hprog, hmove, -⟩ := step_next_offset hlen hstep
    rw [← hprog] at hlen ⊢
    have := ih hlen ⟨t, hrun⟩
    omega

/-! ### The obligations -/

/-- Settles O18: each term of an address expression is its integer modulo 2^64, and sums and products are taken
modulo 2^64. -/
theorem addressExpressions : Obligations.AddressExpressions := by
  unfold Obligations.AddressExpressions
  intro dispInt
  have hdisp : ∀ n d, dispTerm n d = BitVec.ofInt 64 (dispInt n d) := by
    intro n d
    cases d with
    | none => rfl
    | d8 b =>
      change _ = BitVec.ofInt 64 (b.toInt * n)
      rw [BitVec.ofInt_mul, BitVec.ofInt_natCast]
      rfl
    | d32 b => rfl
  refine ⟨fun s len n r d => ?_, fun s len n d => ?_, fun s len n sc i b d => ?_, fun s len n sc i d => ?_,
    rfl, rfl, rfl⟩
  · rw [BitVec.ofInt_add, ofInt_toNat, ← hdisp]
    rfl
  · rw [BitVec.ofInt_add, BitVec.ofInt_add, ofInt_toNat, BitVec.ofInt_natCast]
    rfl
  · rw [BitVec.ofInt_add, BitVec.ofInt_add, ofInt_toNat, BitVec.ofInt_natCast, ← indexTerm_eq_ofNat, ← hdisp]
    rfl
  · rw [BitVec.ofInt_add, BitVec.ofInt_natCast, ← indexTerm_eq_ofNat]
    rfl

/-- Settles O19: cutting to 32 bits and widening takes the expression modulo 2^32, and its low bits come from
those of its terms. -/
theorem addressSizePrefixTruncates : Obligations.AddressSizePrefixTruncates := by
  intro s s' pre len n m
  refine ⟨fun h => effectiveAddr_no_addrSize h len n m, fun h => ⟨?_, fun hx hrip => ?_⟩⟩
  · rw [effectiveAddr_addrSize h, BitVec.toNat_setWidth, BitVec.toNat_setWidth]
    omega
  · rw [effectiveAddr_addrSize h, effectiveAddr_addrSize h, addrExpr_low hx hrip]

/-- Settles O20: admitted prefixes hold at most one of the two overrides that add a base. -/
theorem segmentOverridesAddBase : Obligations.SegmentOverridesAddBase := by
  intro s pre len n m ha
  refine ⟨fun hf => ?_, fun hg => ?_, fun hf hg => ?_⟩
  · simp [linearAddr, segBase, hf]
  · simp [linearAddr, segBase, hg, fs_not_mem_of_gs ha hg]
  · simp [linearAddr, segBase, hf, hg]

/-- Settles O45: each reason is one that the gate of a plain EVEX row asks for. -/
theorem evexInvalidOpcodeReasons : Obligations.EvexInvalidOpcodeReasons := by
  intro f l' l o s hp hc hl h
  rw [exec_evexInstr]
  apply evexFnmsub_ud hp hc hl
  have hvl : (if l' then VLen.l512 else if l then .l256 else .l128) ≠ .l512 ↔ l' = false := by
    cases l' <;> cases l <;> decide
  rw [evexEncodingUD_iff, evexStateUD_iff, stateUD_iff, hasForbidden_iff, hvl, Bool.and_eq_true_iff]
  obtain h | h | h | h | h | h | h | h | h | h | h | h | h | h | h | h := h <;> simp [h]

/-- Settles O46: each reason is one that the gate of an embedded-rounding row asks for. -/
theorem embeddedRoundingInvalidOpcodeReasons : Obligations.EmbeddedRoundingInvalidOpcodeReasons := by
  intro f o s hp hc hl h
  rw [exec_evexErInstr]
  apply evexErFnmsub_ud hp hc hl
  rw [evexEncodingUD_iff, evexStateUD_iff, stateUD_iff, hasForbidden_iff]
  obtain h | h | h | h | h | h | h | h | h | h | h | h | h | h := h <;> simp [h]

/-- Settles O55: the steps of a run take five bytes each, and the program has no more. -/
theorem runsEnd : Obligations.RunsEnd := by
  intro s k hlen hk hrun
  cases k with
  | zero => omega
  | succ k =>
    have := safeRun_offset hlen hrun
    omega

/-- Settles O43: the gate asks for the length before any other reason. -/
theorem overlongInstructionsFault : Obligations.OverlongInstructionsFault :=
  fun _ _ hm hl => exec_overlong hm hl

end Sys2Proof.Machine
end

section
/-!
PROOFS. The VEX rows and the embedded-rounding rows whose checks pass (O35, O36, O40), the SIMD floating-point
exceptions of the VEX and the plain EVEX rows (O41, O42), and what an embedded-rounding row reads of `MXCSR` (O60).
-/

namespace Sys2Proof.Machine

/-! ### What the packed computation reports, in terms of its lane results -/

section

variable {job : Job} {en : Nat → Bool} {d s2 : VReg} {s3 : Nat → Lane} {s : State} {r : Nat → LaneResult}

theorem newLane_of_enabled {j : Nat} (he : en j = true) :
    newLane job s en d s2 s3 j = (computeLane job s d s2 s3 j).res.getD 0#32 := if_pos he

/-- The exception of the report, as the statements name it (rules R225, R231). -/
theorem simdFault_takeException (s : State) (m : BitVec 32) :
    SimdFault s m (takeException (if s.cr4OSXMMEXCPT then .xm else .ud) (s.setMxcsr m)) := by
  unfold SimdFault
  split <;> rfl

/-- An unmasked pre-computation flag of an enabled lane: the exception, with the pre-computation flags of all of
them (rule R148). -/
theorem runPacked_simdFault_pre (hsae : job.sae = false)
    (hr : ∀ j < job.kl, en j = true → computeLane job s d s2 s3 j = r j)
    (h : ∃ j < job.kl, en j = true ∧ ¬ Masked s.mxcsr (r j).pre) :
    ∃ m, MxcsrGains s.mxcsr m job.kl en (fun j => (r j).pre) ∧ SimdFault s m (runPacked job en d s2 s3 s) := by
  obtain ⟨j, hj, he, hn⟩ := h
  rw [runPacked_trap_pre hsae ⟨j, hj, he, by rwa [hr j hj he]⟩,
    gatherFlags_congr (fun _ _ => rfl) fun j hj he => congrArg LaneResult.pre (hr j hj he)]
  exact ⟨_, mxcsrGains_setFlags _ _ _ _, simdFault_takeException s _⟩

/-- No unmasked pre-computation flag but an unmasked post-computation flag of an enabled lane: the exception, with
all flags of all of them (rule R148). -/
theorem runPacked_simdFault_post (hsae : job.sae = false)
    (hr : ∀ j < job.kl, en j = true → computeLane job s d s2 s3 j = r j)
    (hp : ∀ j < job.kl, en j = true → Masked s.mxcsr (r j).pre)
    (h : ∃ j < job.kl, en j = true ∧ ¬ Masked s.mxcsr (r j).post) :
    ∃ m, MxcsrGains s.mxcsr m job.kl en (fun j => (r j).pre.union (r j).post)
      ∧ SimdFault s m (runPacked job en d s2 s3 s) := by
  obtain ⟨j, hj, he, hn⟩ := h
  rw [runPacked_trap_post hsae (fun j hj he => by rw [hr j hj he]; exact hp j hj he)
      ⟨j, hj, he, by rwa [hr j hj he]⟩,
    gatherFlags_congr (fun _ _ => rfl) fun j hj he =>
      congrArg (fun l : LaneResult => l.pre.union l.post) (hr j hj he)]
  exact ⟨_, mxcsrGains_setFlags _ _ _ _, simdFault_takeException s _⟩

/-- Every flag of every enabled lane masked: the next state, with all their flags set (rule R148). -/
theorem runPacked_completes (hsae : job.sae = false)
    (hr : ∀ j < job.kl, en j = true → computeLane job s d s2 s3 j = r j)
    (hm : ∀ j < job.kl, en j = true → Masked s.mxcsr (r j).pre ∧ Masked s.mxcsr (r j).post) :
    runPacked job en d s2 s3 s
      = .next (after s (setFlags s.mxcsr (gatherFlags job.kl en fun j => (r j).pre.union (r j).post))
          job.dest job.kl (newLane job s en d s2 s3) job.len) := by
  rw [runPacked_deliver hsae fun j hj he => by rw [hr j hj he]; exact hm j hj he,
    gatherFlags_congr (fun _ _ => rfl) fun j hj he =>
      congrArg (fun l : LaneResult => l.pre.union l.post) (hr j hj he)]
  rfl

end

/-! ### The VEX rows -/

/-- A lane of a VEX row that can read its `SRC3` is the lane function of the three operands. -/
theorem computeLane_vex (f : Form) {vl : VLen} {o : VexOperands} {s : State} {s3 : Nat → Lane}
    (hs : VexSource vl o s s3) {j : Nat} (hj : j < vl.lanes) :
    computeLane (vexJob f vl o s) s (s.vreg (vexReg o.dest)) (s.vreg (vexReg o.src2)) (vexSrc3Lane o s) j
      = vexLanes (formLane f) o s s3 j := by
  rw [computeLane, vexSrc3Lane_eq hs hj]
  exact laneResult_eq_formLane s f _ _ _

/-- The VEX rows complete in every state that no check stops (rules R148, R170). -/
theorem vexResult_of_exec {i : VexOperands → Instr} {f : Form} {vl : VLen}
    (hi : ∀ o s, exec (i o) s = vexFnmsub f vl o s) : VexResult i vl (formLane f) := by
  intro o s s3 hr hs hm
  have hlane := fun j (hj : j < vl.lanes) => computeLane_vex f hs hj
  refine ⟨_, (hi o s).trans ((vexFnmsub_ready hr hs).trans
    (runPacked_completes rfl (fun j hj _ => hlane j hj) fun j hj _ => hm j hj)), fun j hj => ?_,
    mxcsrGains_setFlags _ _ _ _, after_frame _ _ _ _ _⟩
  change _ = some (lane ((after s _ (vexReg o.dest) vl.lanes _ o.length).vreg (vexReg o.dest)) j)
  rw [after_lane _ _ _ (vlen_lanes_le vl) _ _ hj, newLane_of_enabled (show allLanes j = true from rfl), hlane j hj]
  exact formLane_res (hm j hj).2

/-- An unmasked flag of a VEX row ends it in the SIMD exception (rules R148, R225, R231). -/
theorem vexTrap_of_exec {i : VexOperands → Instr} {f : Form} {vl : VLen}
    (hi : ∀ o s, exec (i o) s = vexFnmsub f vl o s) : VexTrap i vl (formLane f) := by
  intro o s s3 hr hs
  have hlane := fun j (hj : j < vl.lanes) (_ : allLanes j = true) => computeLane_vex f hs hj
  rw [hi, vexFnmsub_ready hr hs]
  refine ⟨fun ⟨j, hj, hn⟩ => ?_, fun hp ⟨j, hj, hn⟩ => ?_⟩
  · exact runPacked_simdFault_pre (job := vexJob f vl o s) rfl hlane ⟨j, hj, rfl, hn⟩
  · exact runPacked_simdFault_post (job := vexJob f vl o s) rfl hlane (fun j hj _ => hp j hj) ⟨j, hj, rfl, hn⟩

/-! ### The plain EVEX rows -/

/-- An unmasked flag of an enabled lane of a plain EVEX row ends it in the SIMD exception (rules R148, R150). -/
theorem evexTrap_of_exec {i : EvexOperands → Instr} {f : Form} {vl : VLen}
    (hi : ∀ o s, exec (i o) s = evexFnmsub f vl false o s) : EvexTrap i vl (formLane f) := by
  intro o s s3 hr hs
  have hlane := fun j (hj : j < vl.lanes) he => computeLane_evex (f := f) hs hj he
  rw [hi, evexFnmsub_ready hr hs]
  exact ⟨runPacked_simdFault_pre (job := evexJob f vl o s) rfl hlane,
    runPacked_simdFault_post (job := evexJob f vl o s) rfl hlane⟩

/-! ### The embedded-rounding rows -/

/-- The lane function of an embedded-rounding row: `FNMSUB32` with every exception masked on the roles that rule
R146 gives `DEST`, `SRC2` and `SRC3`. -/
def erFormLane (f : Form) (rc : BitVec 2) : LaneFn := fun s d s2 s3 =>
  erLane rc s (roles f d s2 s3).1 (roles f d s2 s3).2.1 (roles f d s2 s3).2.2

theorem computeLane_evexEr (f : Form) (o : EvexErOperands) (s : State) (j : Nat) :
    computeLane (evexErJob f o) s (s.vreg o.f.dest) (s.vreg o.f.src2) (fun j => lane (s.vreg o.src3) j) j
      = evexLanes (erFormLane f o.rc) o.f s (fun j => lane (s.vreg o.src3) j) j := rfl

/-- With every exception masked a lane has a result (rules R144, R145, R149). -/
theorem erFormLane_res (f : Form) (rc : BitVec 2) (s : State) (d s2 s3 : Lane) :
    (erFormLane f rc s d s2 s3).res = some ((erFormLane f rc s d s2 s3).res.getD 0#32) := by
  obtain ⟨w, hw⟩ := fnmsub32_masked s.cfg.nanOrder (roles f d s2 s3).1 (roles f d s2 s3).2.1 (roles f d s2 s3).2.2
    (RoundMode.ofBits rc) (mxcsrDAZ s.mxcsr) (mxcsrFTZ s.mxcsr)
  simp [erFormLane, erLane, hw]

/-- The embedded-rounding rows complete in every state that no check stops (rules R149, R190, R200). -/
theorem erResult_of_exec {i : EvexErOperands → Instr} {f : Form} (hi : ∀ o s, exec (i o) s = evexErFnmsub f o s) :
    ErResult i (erFormLane f) := by
  intro o s hr
  refine ⟨after s s.mxcsr o.f.dest 16 (newLane (evexErJob f o) s (enabled s o.f.aaa) (s.vreg o.f.dest)
      (s.vreg o.f.src2) fun j => lane (s.vreg o.src3) j) o.length,
    (hi o s).trans ((evexErFnmsub_ready hr).trans (runPacked_sae rfl)), fun j hj => ?_, rfl, after_frame _ _ _ _ _⟩
  unfold MaskedLane
  rw [after_lane _ _ _ (Nat.le_refl 16) _ _ hj, newLane, computeLane_evexEr]
  by_cases he : enabled s o.f.aaa j = true
  · rw [if_pos he, if_pos he]
    exact erFormLane_res _ _ _ _ _ _
  · rw [if_neg he, if_neg he]
    by_cases hz : o.f.z = true <;> simp [evexErJob, hz]

/-! ### Another `MXCSR` -/

/-- A gate stops an instruction alike whatever `MXCSR` holds: none of its checks reads it, and no fault but the
page fault has a code that depends on the state. -/
theorem unlessStopped_setMxcsr (s : State) (m : BitVec 32) (check : Option Stop) {go go' : Result}
    (hgo : go' = mapResult (fun t => t.setMxcsr m) go) :
    unlessStopped check (s.setMxcsr m) go' = mapResult (fun t => t.setMxcsr m) (unlessStopped check s go) := by
  cases check with
  | none => exact hgo
  | some st =>
    cases st with
    | raise c =>
      exact congrArg Host.Outcome.fault (faultOf_mapState (g := fun t => t.setMxcsr m) (s := s) c rfl rfl)
    | refuse c => cases c <;> rfl

/-- Under suppression a lane reads `DAZ` and `FTZ` of `MXCSR` alone (rules R134, R136). -/
theorem computeLane_setMxcsr {job : Job} (hsae : job.sae = true) {s : State} {m : BitVec 32}
    (hdaz : mxcsrDAZ m = mxcsrDAZ s.mxcsr) (hftz : mxcsrFTZ m = mxcsrFTZ s.mxcsr) (d s2 : VReg)
    (s3 : Nat → Lane) (j : Nat) :
    computeLane job (s.setMxcsr m) d s2 s3 j = computeLane job s d s2 s3 j := by
  simp [computeLane, laneResult, hsae, hdaz, hftz]

/-- So the packed computation delivers the same lanes, and carries `MXCSR` along (rule R149). -/
theorem runPacked_setMxcsr {job : Job} (hsae : job.sae = true) {s : State} {m : BitVec 32}
    (hdaz : mxcsrDAZ m = mxcsrDAZ s.mxcsr) (hftz : mxcsrFTZ m = mxcsrFTZ s.mxcsr) (en : Nat → Bool) (d s2 : VReg)
    (s3 : Nat → Lane) :
    runPacked job en d s2 s3 (s.setMxcsr m) = mapResult (fun t => t.setMxcsr m) (runPacked job en d s2 s3 s) := by
  have hnew : newLane job (s.setMxcsr m) en d s2 s3 = newLane job s en d s2 s3 := by
    funext j
    simp only [newLane, computeLane_setMxcsr hsae hdaz hftz]
  rw [runPacked_sae hsae, runPacked_sae hsae, hnew]
  rfl

theorem evexErFnmsub_setMxcsr (f : Form) (o : EvexErOperands) {s : State} {m : BitVec 32}
    (hdaz : mxcsrDAZ m = mxcsrDAZ s.mxcsr) (hftz : mxcsrFTZ m = mxcsrFTZ s.mxcsr) :
    evexErFnmsub f o (s.setMxcsr m) = mapResult (fun t => t.setMxcsr m) (evexErFnmsub f o s) :=
  unlessStopped_setMxcsr s m _ (runPacked_setMxcsr rfl hdaz hftz _ _ _ _)

/-! ### The obligations -/

/-- Settles O35: the rows of four lanes. -/
theorem vexXmmRowsComplete : Obligations.VexXmmRowsComplete :=
  ⟨vexResult_of_exec (f := .f132) fun _ _ => rfl, vexResult_of_exec (f := .f213) fun _ _ => rfl,
    vexResult_of_exec (f := .f231) fun _ _ => rfl⟩

/-- Settles O36: the rows of eight lanes. -/
theorem vexYmmRowsComplete : Obligations.VexYmmRowsComplete :=
  ⟨vexResult_of_exec (f := .f132) fun _ _ => rfl, vexResult_of_exec (f := .f213) fun _ _ => rfl,
    vexResult_of_exec (f := .f231) fun _ _ => rfl⟩

/-- Settles O40: suppression delivers the lanes whatever they raise. -/
theorem embeddedRoundingRowsComplete : Obligations.EmbeddedRoundingRowsComplete :=
  ⟨erResult_of_exec (f := .f132) fun _ _ => rfl, erResult_of_exec (f := .f213) fun _ _ => rfl,
    erResult_of_exec (f := .f231) fun _ _ => rfl⟩

/-- Settles O41: the report of the packed computation, for the three forms and two lengths of the VEX rows. -/
theorem vexRowsRaiseSimdException : Obligations.VexRowsRaiseSimdException :=
  ⟨vexTrap_of_exec (f := .f132) fun _ _ => rfl, vexTrap_of_exec (f := .f213) fun _ _ => rfl,
    vexTrap_of_exec (f := .f231) fun _ _ => rfl, vexTrap_of_exec (f := .f132) fun _ _ => rfl,
    vexTrap_of_exec (f := .f213) fun _ _ => rfl, vexTrap_of_exec (f := .f231) fun _ _ => rfl⟩

/-- Settles O42: the same report, for the three forms and three lengths of the plain EVEX rows. -/
theorem evexRowsRaiseSimdException : Obligations.EvexRowsRaiseSimdException :=
  ⟨evexTrap_of_exec (f := .f132) fun _ _ => rfl, evexTrap_of_exec (f := .f213) fun _ _ => rfl,
    evexTrap_of_exec (f := .f231) fun _ _ => rfl, evexTrap_of_exec (f := .f132) fun _ _ => rfl,
    evexTrap_of_exec (f := .f213) fun _ _ => rfl, evexTrap_of_exec (f := .f231) fun _ _ => rfl,
    evexTrap_of_exec (f := .f132) fun _ _ => rfl, evexTrap_of_exec (f := .f213) fun _ _ => rfl,
    evexTrap_of_exec (f := .f231) fun _ _ => rfl⟩

/-- Settles O60: the gate reads nothing of `MXCSR`, and a lane of it `DAZ` and `FTZ`. -/
theorem embeddedRoundingReadsOnlyDazAndFtz : Obligations.EmbeddedRoundingReadsOnlyDazAndFtz := by
  intro f o s m hdaz hftz
  rw [exec_evexErInstr, exec_evexErInstr]
  exact evexErFnmsub_setMxcsr f o hdaz hftz

end Sys2Proof.Machine
end

section
/-!
PROOFS. The values of single-precision patterns (O23), and the lane function but for its rounding: DAZ, NaN
operands, invalid operations, denormal and infinite operands, exact zeros (O25 to O31).
-/

namespace Sys2Proof.Machine

/-! ### Fields and magnitude of a pattern -/

theorem expOf_lt (b : Lane) : expOf b < 256 := (b.extractLsb' 23 8).isLt

theorem fracOf_lt (b : Lane) : fracOf b < 2 ^ 23 := (b.extractLsb' 0 23).isLt

/-- An exponent field above zero: the implicit bit is set (rule R132). -/
theorem magnitude_of_normal {b : Lane} (h : expOf b ≠ 0) : magnitude b = (2 ^ 23 + fracOf b) * 2 ^ (expOf b - 1) :=
  if_neg h

/-- An exponent field of zero: a zero or a denormal (rule R132). -/
theorem magnitude_of_exp_zero {b : Lane} (h : expOf b = 0) : magnitude b = fracOf b := if_pos h

/-- No finite pattern is larger than `(2^24 - 1) * 2^104`, in units of 2^-149 (rule R132). -/
theorem magnitude_le {b : Lane} (h : FinitePattern b) : magnitude b ≤ (2 ^ 24 - 1) * 2 ^ 253 := by
  have he : expOf b < 256 := expOf_lt b
  have hf := fracOf_lt b
  have hfin : expOf b ≠ 255 := h
  by_cases h0 : expOf b = 0
  · rw [magnitude_of_exp_zero h0]
    omega
  · rw [magnitude_of_normal h0]
    exact Nat.mul_le_mul (by omega) (Nat.pow_le_pow_right (by decide) (by omega))

/-- A normal number is at least 2^-126, in units of 2^-149. -/
theorem le_magnitude_of_normal {b : Lane} (h : expOf b ≠ 0) : 2 ^ 23 ≤ magnitude b := by
  rw [magnitude_of_normal h]
  exact (Nat.le_add_right _ _).trans (Nat.le_mul_of_pos_right _ (Nat.two_pow_pos _))

/-! ### Values as rationals -/

theorem laneValue_eq (b : Lane) : laneValue b = (-1) ^ (signOf b).toNat * ((magnitude b : ℚ) / 2 ^ 149) := by
  unfold laneValue scaledValue
  cases signOf b <;> simp [neg_div]

theorem abs_laneValue (b : Lane) : |laneValue b| = (magnitude b : ℚ) / 2 ^ 149 := by
  rw [laneValue_eq, abs_mul, abs_neg_one_pow, one_mul, abs_of_nonneg (by positivity)]

/-- The magnitude of a pattern as rule R132 writes it. -/
theorem magnitude_div (b : Lane) : (magnitude b : ℚ) / 2 ^ 149
    = if expOf b = 0 then (fracOf b : ℚ) * 2 ^ (-149 : ℤ)
      else (2 ^ 23 + (fracOf b : ℚ)) * 2 ^ ((expOf b : ℤ) - 150) := by
  split
  · next h =>
    rw [magnitude_of_exp_zero h, zpow_neg, div_eq_mul_inv]
    rfl
  · next h =>
    have hexp : (expOf b : ℤ) - 150 = ((expOf b - 1 : ℕ) : ℤ) - (149 : ℕ) := by omega
    rw [magnitude_of_normal h, hexp, zpow_sub₀ two_ne_zero, zpow_natCast, zpow_natCast]
    push_cast
    ring

/-! ### Kinds of patterns -/

theorem isNaN_of_finite {b : Lane} (h : FinitePattern b) : isNaN b = false := by
  have he : (expOf b == 255) = false := beq_eq_false_iff_ne.2 h
  simp [isNaN, he]

theorem isInf_of_finite {b : Lane} (h : FinitePattern b) : isInf b = false := by
  have he : (expOf b == 255) = false := beq_eq_false_iff_ne.2 h
  simp [isInf, he]

theorem isNaN_of_isInf {b : Lane} (h : isInf b = true) : isNaN b = false := by
  simp [isInf, isNaN] at h ⊢
  simp [h]

theorem isDenormal_iff {b : Lane} : isDenormal b = true ↔ expOf b = 0 ∧ fracOf b ≠ 0 := by simp [isDenormal]

/-! ### Denormals as zeros (rule R135) -/

theorem applyDaz_denormal {b : Lane} (h : isDenormal b = true) : applyDaz true b = b &&& 0x80000000#32 := by
  simp [applyDaz, h]

theorem applyDaz_other (daz : Bool) {b : Lane} (h : isDenormal b = false) : applyDaz daz b = b := by
  simp [applyDaz, h]

theorem expOf_and_sign (b : Lane) : expOf (b &&& 0x80000000#32) = 0 := by
  simp [expOf, BitVec.extractLsb'_and]

theorem fracOf_and_sign (b : Lane) : fracOf (b &&& 0x80000000#32) = 0 := by
  simp [fracOf, BitVec.extractLsb'_and]

theorem signOf_and_sign (b : Lane) : signOf (b &&& 0x80000000#32) = signOf b := by
  simp [signOf]

/-- What is kept is not touched, and what is replaced has the fields of a zero. -/
theorem applyDaz_cases (daz : Bool) (b : Lane) :
    applyDaz daz b = b ∨ (daz = true ∧ isDenormal b = true ∧ applyDaz daz b = b &&& 0x80000000#32) := by
  by_cases h : daz = true ∧ isDenormal b = true
  · exact .inr ⟨h.1, h.2, by simp [applyDaz, h]⟩
  · exact .inl (if_neg (by simpa using h))

@[simp] theorem applyDaz_isNaN (daz : Bool) (b : Lane) : isNaN (applyDaz daz b) = isNaN b := by
  obtain h | ⟨-, hden, h⟩ := applyDaz_cases daz b
  · rw [h]
  · rw [h]
    simp [isNaN, expOf_and_sign, (isDenormal_iff.1 hden).1]

@[simp] theorem applyDaz_isInf (daz : Bool) (b : Lane) : isInf (applyDaz daz b) = isInf b := by
  obtain h | ⟨-, hden, h⟩ := applyDaz_cases daz b
  · rw [h]
  · rw [h]
    simp [isInf, expOf_and_sign, (isDenormal_iff.1 hden).1]

@[simp] theorem applyDaz_isSNaN (daz : Bool) (b : Lane) : isSNaN (applyDaz daz b) = isSNaN b := by
  obtain h | ⟨-, hden, h⟩ := applyDaz_cases daz b
  · rw [h]
  · rw [h]
    simp [isSNaN, isNaN, expOf_and_sign, (isDenormal_iff.1 hden).1]

@[simp] theorem applyDaz_isDenormal (daz : Bool) (b : Lane) :
    isDenormal (applyDaz daz b) = (!daz && isDenormal b) := by
  cases hden : isDenormal b with
  | false => simp [applyDaz_other daz hden, hden]
  | true =>
    cases daz with
    | false => exact hden
    | true => simp [applyDaz_denormal hden, isDenormal, fracOf_and_sign]

theorem applyDaz_of_isNaN (daz : Bool) {b : Lane} (h : isNaN b = true) : applyDaz daz b = b := by
  apply applyDaz_other
  simp [isNaN, isDenormal] at h ⊢
  simp [h]

/-! ### The cases of the lane function, in their order -/

section

variable {order : NanOrder} {x y z : Lane}

theorem firstNaN_none (order : NanOrder) (hx : isNaN x = false) (hy : isNaN y = false) (hz : isNaN z = false) :
    firstNaN order x y z = none := by
  cases order <;> simp [firstNaN, hx, hy, hz]

/-- In every order the search finds a NaN operand where there is one (rule R138, D13). -/
theorem firstNaN_some (order : NanOrder) (h : isNaN x = true ∨ isNaN y = true ∨ isNaN z = true) :
    ∃ n, firstNaN order x y z = some n ∧ isNaN n = true ∧ (n = x ∨ n = y ∨ n = z) := by
  cases hn : firstNaN order x y z with
  | none =>
    exfalso
    have hnone : isNaN x = false ∧ isNaN y = false ∧ isNaN z = false := by
      cases order <;> simp [firstNaN] at hn <;> simp [hn]
    simp [hnone] at h
  | some n =>
    refine ⟨n, rfl, ?_, ?_⟩
    · exact List.find?_some hn
    · have hmem := List.mem_of_find?_eq_some hn
      cases order <;> simp at hmem <;> tauto

theorem firstNaN_xyz (h : isNaN x = true ∨ isNaN y = true ∨ isNaN z = true) :
    firstNaN .xyz x y z = some (if isNaN x then x else if isNaN y then y else z) := by
  cases hx : isNaN x <;> cases hy : isNaN y <;> simp_all [firstNaN]

theorem isInvalid_iff : isInvalid x y z = true ↔ (isZero x = true ∧ isInf y = true)
    ∨ (isInf x = true ∧ isZero y = true) ∨ ((isInf x = true ∨ isInf y = true) ∧ isInf z = true
      ∧ (!(Bool.xor (signOf x) (signOf y))) ≠ (!signOf z)) := by
  simp only [isInvalid, Bool.or_eq_true, Bool.and_eq_true, bne_iff_ne, or_assoc, and_assoc]

variable {rc : RoundMode} {ftz um om : Bool}

/-- Rule R138. -/
theorem fnmsubCore_nan {n : Lane} (h : firstNaN order x y z = some n) :
    fnmsubCore order x y z rc ftz um om
      = ⟨some (quiet n), { FpFlags.empty with ie := isSNaN x || isSNaN y || isSNaN z }, FpFlags.empty⟩ := by
  simp [fnmsubCore, h]

/-- Rule R139. -/
theorem fnmsubCore_invalid (h : firstNaN order x y z = none) (hi : isInvalid x y z = true) :
    fnmsubCore order x y z rc ftz um om
      = ⟨some defaultNaN, { FpFlags.empty with ie := true }, FpFlags.empty⟩ := by
  simp [fnmsubCore, h, hi]

/-- Rule R140. -/
theorem fnmsubCore_valid_pre (h : firstNaN order x y z = none) (hi : isInvalid x y z = false) :
    (fnmsubCore order x y z rc ftz um om).pre
      = { FpFlags.empty with de := isDenormal x || isDenormal y || isDenormal z } := by
  simp only [fnmsubCore, h, hi, Bool.false_eq_true, if_false]
  repeat' split
  all_goals rfl

/-- Rule R141, an infinite factor. -/
theorem fnmsubCore_factor_inf (h : firstNaN order x y z = none) (hi : isInvalid x y z = false)
    (hinf : isInf x = true ∨ isInf y = true) :
    (fnmsubCore order x y z rc ftz um om).res = some (infinity (!(Bool.xor (signOf x) (signOf y))))
      ∧ (fnmsubCore order x y z rc ftz um om).post = FpFlags.empty := by
  simp [fnmsubCore, h, hi, hinf]

/-- Rule R141, an infinite subtrahend. -/
theorem fnmsubCore_subtrahend_inf (h : firstNaN order x y z = none) (hi : isInvalid x y z = false)
    (hx : isInf x = false) (hy : isInf y = false) (hz : isInf z = true) :
    (fnmsubCore order x y z rc ftz um om).res = some (infinity (!signOf z))
      ∧ (fnmsubCore order x y z rc ftz um om).post = FpFlags.empty := by
  simp [fnmsubCore, h, hi, hx, hy, hz]

/-- Finite operands are no case of rules R138, R139 and R141: what is left is an exact zero or `Round32`. -/
theorem fnmsubCore_finite (order : NanOrder) (rc : RoundMode) (ftz um om : Bool) (hx : FinitePattern x)
    (hy : FinitePattern y) (hz : FinitePattern z) :
    ((fnmsubCore order x y z rc ftz um om).res, (fnmsubCore order x y z rc ftz um om).post)
      = if exactValue x y z = 0
        then (some (zeroOf (if (isZero x || isZero y) && isZero z && (!(Bool.xor (signOf x) (signOf y))) == !signOf z
          then !(Bool.xor (signOf x) (signOf y)) else rc == .rd)), FpFlags.empty)
        else round32 (exactValue x y z) rc ftz um om := by
  have hnan := firstNaN_none order (isNaN_of_finite hx) (isNaN_of_finite hy) (isNaN_of_finite hz)
  simp only [fnmsubCore, hnan, isInvalid, isInf_of_finite hx, isInf_of_finite hy, isInf_of_finite hz]
  by_cases h0 : exactValue x y z = 0 <;> simp [h0]

end

/-- The exact rational vanishes exactly when the integer that stands for it does. -/
theorem exact_eq_zero_iff (x y z : Lane) :
    -(laneValue x * laneValue y) - laneValue z = 0 ↔ exactValue x y z = 0 := by
  rw [← exactResultIsExact, exactRational]
  simp

theorem infinity_eq (neg : Bool) : infinity neg = if neg then 0xFF800000#32 else 0x7F800000#32 := by
  cases neg <;> rfl

theorem zeroOf_eq (neg : Bool) : zeroOf neg = if neg then 0x80000000#32 else 0x00000000#32 := by
  cases neg <;> rfl

/-! ### The obligations -/

/-- Settles O23: rule R132 in units of 2^-149, and the bounds on the fields. -/
theorem patternValues : Obligations.PatternValues := by
  have hu : (0 : ℚ) < 2 ^ 149 := by positivity
  have hunit : (2 : ℚ) ^ (-149 : ℤ) = 1 / 2 ^ 149 := by rw [zpow_neg, one_div]; rfl
  have hnormal : (2 : ℚ) ^ (-126 : ℤ) = 2 ^ 23 / 2 ^ 149 := by norm_num
  refine ⟨fun b _ => ?_, ?_, fun b hb => ?_, ?_, fun b _ hb => ?_, ?_, fun b hb => ?_⟩
  · rw [laneValue_eq, magnitude_div]
  · have hs : scaledValue 0x7F7FFFFF#32 = (2 ^ 24 - 1) * 2 ^ 253 := by decide
    rw [laneValue, hs]
    norm_num
  · have hle : (magnitude b : ℚ) ≤ (2 ^ 24 - 1) * 2 ^ 253 :=
      (Nat.cast_le.2 (magnitude_le hb)).trans_eq (by norm_num)
    rw [abs_laneValue, div_le_iff₀ hu]
    refine hle.trans (le_of_eq ?_)
    norm_num
  · have hs : scaledValue 0x00800000#32 = 2 ^ 23 := by decide
    rw [laneValue, hs, hnormal]
    norm_num
  · have hle : (2 ^ 23 : ℚ) ≤ magnitude b := by exact_mod_cast le_magnitude_of_normal hb
    rw [abs_laneValue, hnormal]
    exact div_le_div_of_nonneg_right hle hu.le
  · have hs : scaledValue 0x00000001#32 = 1 := by decide
    rw [laneValue, hs, hunit]
    norm_num
  · obtain ⟨he, hf⟩ := isDenormal_iff.1 hb
    have hle : (1 : ℚ) ≤ magnitude b := by
      rw [magnitude_of_exp_zero he]
      exact_mod_cast Nat.one_le_iff_ne_zero.2 hf
    rw [abs_laneValue, hunit]
    exact div_le_div_of_nonneg_right hle hu.le

/-- Settles O25: a replaced denormal has the fields of a zero, and the lane function sees the operands after the
replacement alone. -/
theorem dazReplacesDenormals : Obligations.DazReplacesDenormals := by
  refine ⟨fun b hb => ?_, fun b hb => applyDaz_other true hb, fun order x y z rc ftz um om => ⟨rfl, ?_, ?_⟩⟩
  · rw [applyDaz_denormal hb, isZero, expOf_and_sign, fracOf_and_sign]
    exact ⟨rfl, rfl, signOf_and_sign b⟩
  · unfold fnmsub32
    cases hn : firstNaN order (applyDaz true x) (applyDaz true y) (applyDaz true z) with
    | some n => rw [fnmsubCore_nan hn]; rfl
    | none =>
      cases hi : isInvalid (applyDaz true x) (applyDaz true y) (applyDaz true z) with
      | true => rw [fnmsubCore_invalid hn hi]; rfl
      | false => rw [fnmsubCore_valid_pre hn hi]; simp
  · intro hx hy hz
    have hxz : isZero (applyDaz true x) = true := by
      simp [applyDaz_denormal hx, isZero, expOf_and_sign, fracOf_and_sign]
    have hxn : isNaN x = false := by simp [isNaN, (isDenormal_iff.1 hx).1]
    have hn : firstNaN order (applyDaz true x) (applyDaz true y) (applyDaz true z) = none :=
      firstNaN_none order (by simpa) (by simpa using isNaN_of_isInf hy) (by simpa)
    rw [fnmsub32, fnmsubCore_invalid hn (isInvalid_iff.2 (.inl ⟨hxz, by simpa⟩))]

/-- Settles O26: the search returns a NaN operand, which rule R135 has not touched. -/
theorem nanOperandIsReturnedQuiet : Obligations.NaNOperandIsReturnedQuiet := by
  intro order x y z rc daz ftz um om h r
  have h' : isNaN (applyDaz daz x) = true ∨ isNaN (applyDaz daz y) = true ∨ isNaN (applyDaz daz z) = true := by
    simpa using h
  obtain ⟨n, hn, hnan, hop⟩ := firstNaN_some order h'
  have hr : r = _ := fnmsubCore_nan hn
  have horig : ∀ {w}, n = applyDaz daz w → n = w := fun {w} e => by
    rw [e, applyDaz_of_isNaN daz (by rw [← applyDaz_isNaN daz w, ← e]; exact hnan)]
  refine ⟨⟨n, hop.imp horig (Or.imp horig horig), hnan, congrArg LaneResult.res hr⟩, fun hxyz => ?_, ?_,
    congrArg LaneResult.post hr⟩
  · subst hxyz
    rw [firstNaN_xyz h', Option.some_inj] at hn
    rw [hr, ← hn, quiet]
    cases hx : isNaN x <;> cases hy : isNaN y <;> simp_all [applyDaz_of_isNaN]
  · rw [hr]
    simp [FpFlags.empty]

/-- Settles O27: none of the operands is a NaN after rule R135 either. -/
theorem invalidOperationGivesDefaultNaN : Obligations.InvalidOperationGivesDefaultNaN := by
  intro order a b c rc daz ftz um om x y z ha hb hc h
  exact fnmsubCore_invalid (firstNaN_none order (by simpa [x]) (by simpa [y]) (by simpa [z])) (isInvalid_iff.2 h)

/-- Settles O28: what rule R135 leaves is denormal only without it. -/
theorem denormalOperandRaisesDE : Obligations.DenormalOperandRaisesDE := by
  intro order a b c rc daz ftz um om x y z ha hb hc h1 h2 h3
  have hi : isInvalid x y z = false := by
    rw [← Bool.not_eq_true, isInvalid_iff]
    exact fun h => h.elim h1 (Or.elim · h2 h3)
  refine (fnmsubCore_valid_pre (firstNaN_none order (by simpa [x]) (by simpa [y]) (by simpa [z])) hi).trans ?_
  cases daz <;> simp [x, y, z, Bool.or_assoc]

/-- Settles O29: the two cases of rule R141. -/
theorem infiniteOperandsGiveInfinity : Obligations.InfiniteOperandsGiveInfinity := by
  intro order a b c rc daz ftz um om x y z r ha hb hc
  have hn : firstNaN order x y z = none := firstNaN_none order (by simpa [x]) (by simpa [y]) (by simpa [z])
  refine ⟨fun hinf hx hy hsign => ?_, fun hx hy hz => ?_⟩
  · have hi : isInvalid x y z = false := by
      rw [← Bool.not_eq_true, isInvalid_iff]
      rintro (⟨h, -⟩ | ⟨-, h⟩ | ⟨-, hz, h⟩)
      · simp [hx] at h
      · simp [hy] at h
      · exact h (hsign hz)
    rw [← infinity_eq]
    exact fnmsubCore_factor_inf hn hi hinf
  · have hi : isInvalid x y z = false := by simp [isInvalid, hx, hy]
    rw [← infinity_eq]
    exact fnmsubCore_subtrahend_inf hn hi hx hy hz

/-- Settles O30: the exact result is the integer 0, and its sign that of rule R142. -/
theorem exactZeroSign : Obligations.ExactZeroSign := by
  intro order a b c rc daz ftz um om x y z r hx hy hz h0
  have hr : (r.res, r.post) = _ := fnmsubCore_finite order rc ftz um om hx hy hz
  rw [if_pos ((exact_eq_zero_iff x y z).1 h0), Prod.mk.injEq] at hr
  obtain ⟨hres, hpost⟩ := hr
  have hlike : ((isZero x || isZero y) && isZero z && (!(Bool.xor (signOf x) (signOf y))) == !signOf z) = true
      ↔ (isZero x = true ∨ isZero y = true) ∧ isZero z = true
        ∧ (!(Bool.xor (signOf x) (signOf y))) = (!signOf z) := by
    simp only [Bool.and_eq_true, Bool.or_eq_true, beq_iff_eq, and_assoc]
  refine ⟨fun h => ?_, fun h => ?_, hpost⟩
  · obtain ⟨-, -, hsign⟩ := id h
    rw [hres, if_pos (hlike.2 h), hsign, zeroOf_eq]
  · rw [hres, if_neg (mt hlike.1 h), zeroOf_eq]
    simp

/-- Settles O31: the last case of the lane function. -/
theorem finiteLanesAreRounded : Obligations.FiniteLanesAreRounded := by
  intro order a b c rc daz ftz um om x y z r hx hy hz h0
  have hr : (r.res, r.post) = _ := fnmsubCore_finite order rc ftz um om hx hy hz
  rwa [if_neg (mt (exact_eq_zero_iff x y z).2 h0)] at hr

end Sys2Proof.Machine
end

section
/-!
PROOFS. `RInt` by the kind of its rounding mode, the rounding to 24 bits with unbounded exponent, and what it
decides: overflow (O33) and underflow (O34).
-/

namespace Sys2Proof.Machine

/-! ### `RInt` by the kind of its rounding mode (rules R133, R137) -/

/-- A mode that rounds a value of this sign away from zero. -/
def Away (rc : RoundMode) (neg : Bool) : Prop := rc = .ru ∧ neg = false ∨ rc = .rd ∧ neg = true

theorem away_iff {r : Int} (hr : r ≠ 0) (rc : RoundMode) :
    Away rc (decide (r < 0)) ↔ rc = .ru ∧ 0 < r ∨ rc = .rd ∧ r < 0 := by
  have hpos : ¬ r < 0 ↔ 0 < r := by omega
  simp only [Away, decide_eq_false_iff_not, decide_eq_true_eq, hpos]

theorem not_away_rn (neg : Bool) : ¬ Away .rn neg := by simp [Away]

section

variable {num den : Nat} {rc : RoundMode} {neg : Bool}

theorem rInt_eq_div (hn : rc ≠ .rn) (ha : ¬ Away rc neg) : rInt num den rc neg = num / den := by
  cases rc <;> cases neg <;> simp_all [rInt, Away]

theorem rInt_away (ha : Away rc neg) :
    rInt num den rc neg = if num % den = 0 then num / den else num / den + 1 := by
  obtain ⟨rfl, rfl⟩ | ⟨rfl, rfl⟩ := ha <;> simp [rInt]

/-- Away from zero: the least multiple of the unit that is not below the value. -/
theorem rInt_away_bounds (hd : 0 < den) (ha : Away rc neg) :
    num ≤ rInt num den rc neg * den ∧ rInt num den rc neg * den < num + den := by
  have hdiv := Nat.div_add_mod' num den
  have hrem := Nat.mod_lt num hd
  rw [rInt_away ha]
  split
  · omega
  · rw [Nat.add_mul, Nat.one_mul]
    omega

/-- To nearest: at most half a unit off, and even when exactly half a unit off. -/
theorem rInt_nearest_bounds (hd : 0 < den) (neg : Bool) :
    2 * num ≤ 2 * (rInt num den .rn neg * den) + den ∧ 2 * (rInt num den .rn neg * den) ≤ 2 * num + den
      ∧ (2 * num = 2 * (rInt num den .rn neg * den) + den ∨ 2 * (rInt num den .rn neg * den) = 2 * num + den →
        rInt num den .rn neg % 2 = 0) := by
  have hdiv := Nat.div_add_mod' num den
  have hrem := Nat.mod_lt num hd
  have hsucc : (num / den + 1) * den = num / den * den + den := Nat.succ_mul _ _
  simp only [rInt]
  split_ifs <;> omega

/-- The rounded value is exact exactly when the unit divides the value. -/
theorem rInt_mul_eq_iff : rInt num den rc neg * den = num ↔ num % den = 0 := by
  refine ⟨fun h => ?_, fun h => ?_⟩
  · rw [← h, Nat.mul_mod_left]
  · rw [rInt_of_dvd h, Nat.div_mul_cancel (Nat.dvd_of_mod_eq_zero h)]

/-- When the rounded magnitude reaches an even number `k` of units (rule R137: a tie goes to the even one). -/
theorem le_rInt_iff (hd : 0 < den) {k : Nat} (hk : k % 2 = 0) :
    k ≤ rInt num den rc neg ↔ (rc = .rn ∧ 2 * (k * den) ≤ 2 * num + den) ∨ (Away rc neg ∧ k * den < num + den)
      ∨ k * den ≤ num := by
  have hfloor : k * den ≤ num → k ≤ rInt num den rc neg := fun h =>
    ((Nat.le_div_iff_mul_le hd).2 h).trans (le_rInt num den rc neg)
  have hmul : k ≤ rInt num den rc neg → k * den ≤ rInt num den rc neg * den := Nat.mul_le_mul_right den
  have hlt : ¬ k ≤ rInt num den rc neg → rInt num den rc neg * den + den ≤ k * den := fun h => by
    rw [← Nat.succ_mul]
    exact Nat.mul_le_mul_right den (Nat.lt_of_not_le h)
  by_cases ha : Away rc neg
  · obtain ⟨hlo, hhi⟩ := rInt_away_bounds (num := num) hd ha
    have hn : rc ≠ .rn := fun e => not_away_rn neg (e ▸ ha)
    simp only [hn, ha, false_and, true_and, false_or]
    omega
  · by_cases hn : rc = .rn
    · subst hn
      obtain ⟨hlo, hhi, htie⟩ := rInt_nearest_bounds (num := num) hd neg
      simp only [ha, false_and, true_and, false_or]
      refine ⟨fun h => by have := hmul h; omega, fun h => ?_⟩
      by_contra hcon
      have hbelow := hlt hcon
      have heven := htie (by omega)
      have hk1 : k = rInt num den .rn neg + 1 :=
        Nat.eq_of_mul_eq_mul_right hd (by rw [Nat.succ_mul]; omega)
      omega
    · simp only [hn, ha, false_and, false_or]
      refine ⟨fun h => ?_, hfloor⟩
      rw [rInt_eq_div hn ha] at h
      exact (Nat.le_div_iff_mul_le hd).1 h

end

/-! ### The rounding to 24 bits with unbounded exponent (rule R137 step 1) -/

/-- The magnitude `q` in units of its 24th bit, rounded. -/
def sig24 (q : Nat) (rc : RoundMode) (neg : Bool) : Nat := rInt (q * 2 ^ 23) (2 ^ q.log2) rc neg

/-- The exponent after that rounding, which may carry into a 25th bit; `q` is in units of 2^-298. -/
def exp24 (q : Nat) (rc : RoundMode) (neg : Bool) : Int :=
  (q.log2 : Int) - 298 + (if sig24 q rc neg == 2 ^ 24 then 1 else 0)

/-- That rounding is inexact. -/
def inexact24 (q : Nat) : Bool := (q * 2 ^ 23) % 2 ^ q.log2 != 0

/-- The normal number that results (rule R137 step 3). -/
def normalResult (q : Nat) (rc : RoundMode) (neg : Bool) : Lane :=
  withSign neg (BitVec.ofNat 8 (exp24 q rc neg + 127).toNat
    ++ BitVec.ofNat 23 ((if sig24 q rc neg == 2 ^ 24 then 2 ^ 23 else sig24 q rc neg) - 2 ^ 23))

theorem round32_eq (r : Int) (rc : RoundMode) (ftz um om : Bool) :
    round32 r rc ftz um om
      = if exp24 r.natAbs rc (decide (r < 0)) > 127 then overflow (decide (r < 0)) rc om (inexact24 r.natAbs)
        else if exp24 r.natAbs rc (decide (r < 0)) < -126
          then underflow r.natAbs (decide (r < 0)) rc ftz um (inexact24 r.natAbs)
        else (some (normalResult r.natAbs rc (decide (r < 0))), { FpFlags.empty with pe := inexact24 r.natAbs }) :=
  rfl

section

variable {q : Nat}

theorem pow_log2_le (hq : q ≠ 0) : 2 ^ q.log2 ≤ q := Nat.log2_self_le hq

theorem lt_pow_log2_succ (q : Nat) : q < 2 ^ (q.log2 + 1) := Nat.lt_log2_self

theorem le_sig24 (hq : q ≠ 0) (rc : RoundMode) (neg : Bool) : 2 ^ 23 ≤ sig24 q rc neg := by
  refine le_trans ?_ (le_rInt _ _ rc neg)
  rw [Nat.le_div_iff_mul_le (Nat.two_pow_pos _), Nat.mul_comm]
  exact Nat.mul_le_mul_right _ (pow_log2_le hq)

theorem sig24_le (q : Nat) (rc : RoundMode) (neg : Bool) : sig24 q rc neg ≤ 2 ^ 24 := by
  refine (rInt_le _ _ rc neg).trans (Nat.succ_le_of_lt ?_)
  rw [Nat.div_lt_iff_lt_mul (Nat.two_pow_pos _)]
  have hlt := lt_pow_log2_succ q
  rw [Nat.pow_succ] at hlt
  omega

/-- With its leading bit at place `t + 23` the magnitude is rounded to a multiple of `2^t`. -/
theorem sig24_eq {t : Nat} (h : q.log2 = t + 23) (rc : RoundMode) (neg : Bool) :
    sig24 q rc neg = rInt q (2 ^ t) rc neg := by
  rw [sig24, h, Nat.pow_add]
  exact rInt_mul q (2 ^ t) (2 ^ 23) (by decide) rc neg

/-- The exponent after rounding passes `t + 23` exactly when `2^24` units of `2^t` are reached. -/
theorem exp24_gt_iff (hq : q ≠ 0) (t : Nat) (rc : RoundMode) (neg : Bool) :
    (t : Int) + 23 - 298 < exp24 q rc neg ↔ 2 ^ 24 ≤ rInt q (2 ^ t) rc neg := by
  have hle := sig24_le q rc neg
  simp only [exp24, beq_iff_eq]
  obtain h | h | h := Nat.lt_trichotomy q.log2 (t + 23)
  · have hlt : q / 2 ^ t < 2 ^ 23 := by
      rw [Nat.div_lt_iff_lt_mul (Nat.two_pow_pos _), ← Nat.pow_add]
      exact (lt_pow_log2_succ q).trans_le (Nat.pow_le_pow_right (by decide) (by omega))
    have hr := rInt_le q (2 ^ t) rc neg
    refine ⟨fun hexp => ?_, fun hreach => by omega⟩
    split at hexp <;> omega
  · rw [← sig24_eq h]
    refine ⟨fun hexp => ?_, fun hreach => ?_⟩
    · split at hexp <;> omega
    · rw [if_pos (by omega)]
      omega
  · have hge : 2 ^ 24 ≤ q / 2 ^ t := by
      rw [Nat.le_div_iff_mul_le (Nat.two_pow_pos _), ← Nat.pow_add]
      exact (Nat.pow_le_pow_right (by decide) (by omega)).trans (pow_log2_le hq)
    have hr := le_rInt q (2 ^ t) rc neg
    refine ⟨fun _ => by omega, fun _ => ?_⟩
    split <;> omega

/-- The same as bounds on the magnitude, in units of half a place: to nearest from half a place below the power of
two on, away from zero above the last number before it, and else from the power on. -/
theorem exp24_gt_iff_bounds (hq : q ≠ 0) (t : Nat) (rc : RoundMode) (neg : Bool) :
    (t : Int) + 24 - 298 < exp24 q rc neg ↔ (rc = .rn ∧ (2 ^ 25 - 1) * 2 ^ t ≤ q)
      ∨ (Away rc neg ∧ (2 ^ 25 - 2) * 2 ^ t < q) ∨ 2 ^ 25 * 2 ^ t ≤ q := by
  have hexp := exp24_gt_iff hq (t + 1) rc neg
  rw [le_rInt_iff (Nat.two_pow_pos _) (by decide), Nat.pow_succ] at hexp
  rw [show (t : Int) + 24 - 298 = ((t + 1 : Nat) : Int) + 23 - 298 by omega, hexp]
  refine or_congr (and_congr_right fun _ => ?_) (or_congr (and_congr_right fun _ => ?_) ?_) <;> omega

/-- Inexact exactly when the magnitude has no 24-bit significand. -/
theorem inexact24_eq_false_iff (hq : q ≠ 0) :
    inexact24 q = false ↔ ∃ m k : Nat, m < 2 ^ 24 ∧ q = m * 2 ^ k := by
  have hlt := lt_pow_log2_succ q
  rw [inexact24, bne_eq_false_iff_eq, ← Nat.dvd_iff_mod_eq_zero]
  obtain hsmall | ⟨t, ht⟩ : q.log2 ≤ 23 ∨ ∃ t, q.log2 = t + 23 :=
    (Nat.le_total q.log2 23).imp id fun h => ⟨_, (Nat.sub_add_cancel h).symm⟩
  · refine ⟨fun _ => ⟨q, 0, hlt.trans_le (Nat.pow_le_pow_right (by decide) (by omega)), by simp⟩, fun _ => ?_⟩
    exact Dvd.dvd.mul_left (Nat.pow_dvd_pow 2 hsmall) q
  · rw [ht, Nat.pow_add, Nat.mul_dvd_mul_iff_right (by decide)]
    refine ⟨fun ⟨m, hm⟩ => ⟨m, t, ?_, by rw [hm, Nat.mul_comm]⟩, fun ⟨m, k, hm, hmk⟩ => ?_⟩
    · rw [ht, show t + 23 + 1 = t + 24 from rfl, Nat.pow_add, hm] at hlt
      exact Nat.lt_of_mul_lt_mul_left hlt
    · have hkt : t ≤ k := by
        by_contra hcon
        have hge := pow_log2_le hq
        rw [ht, hmk] at hge
        have : m * 2 ^ k < 2 ^ (24 + k) := by
          rw [Nat.pow_add]
          exact Nat.mul_lt_mul_of_pos_right hm (Nat.two_pow_pos k)
        exact absurd (hge.trans_lt this) (Nat.not_lt.2 (Nat.pow_le_pow_right (by decide) (by omega)))
      rw [hmk]
      exact Dvd.dvd.mul_left (Nat.pow_dvd_pow 2 hkt) m

end

/-! ### Overflow (rule R144) -/

theorem overflow_masked (neg : Bool) (rc : RoundMode) (inexact : Bool) :
    (overflow neg rc true inexact).2 = { FpFlags.empty with oe := true, pe := true } := by
  simp [overflow]

theorem overflow_masked_infinity {neg : Bool} {rc : RoundMode} (h : rc = .rn ∨ Away rc neg) (inexact : Bool) :
    (overflow neg rc true inexact).1 = some (infinity neg) := by
  obtain rfl | ⟨rfl, rfl⟩ | ⟨rfl, rfl⟩ := h <;> rfl

theorem overflow_masked_maxFinite {neg : Bool} {rc : RoundMode} (h : ¬ (rc = .rn ∨ Away rc neg))
    (inexact : Bool) : (overflow neg rc true inexact).1 = some (maxFinite neg) := by
  cases rc <;> cases neg <;> simp_all [overflow, Away]

theorem overflow_oe (neg : Bool) (rc : RoundMode) (om inexact : Bool) : (overflow neg rc om inexact).2.oe = true := by
  cases om <;> simp [overflow]

theorem underflow_oe (q : Nat) (neg : Bool) (rc : RoundMode) (ftz um inexact : Bool) :
    (underflow q neg rc ftz um inexact).2.oe = false := by
  cases um <;> cases ftz <;> simp [underflow]

theorem maxFinite_eq (neg : Bool) : maxFinite neg = if neg then 0xFF7FFFFF#32 else 0x7F7FFFFF#32 := by
  cases neg <;> rfl

/-- `OE` exactly when the exponent after rounding is above 127. -/
theorem round32_oe_iff (r : Int) (rc : RoundMode) (ftz um om : Bool) :
    (round32 r rc ftz um om).2.oe = true ↔ 127 < exp24 r.natAbs rc (decide (r < 0)) := by
  rw [round32_eq]
  split
  · next h => simp [overflow_oe, h]
  · next h =>
    split
    · simp [underflow_oe, h]
    · simp [h]

theorem round32_of_overflow {r : Int} {rc : RoundMode} (h : 127 < exp24 r.natAbs rc (decide (r < 0)))
    (ftz um om : Bool) : round32 r rc ftz um om = overflow (decide (r < 0)) rc om (inexact24 r.natAbs) := by
  rw [round32_eq, if_pos h]

/-! ### Magnitudes of exact results, as rationals -/

theorem abs_exactRational (r : Int) : |exactRational r| = (r.natAbs : ℚ) / 2 ^ 298 := by
  rw [exactRational, abs_div, abs_of_nonneg (by positivity : (0 : ℚ) ≤ 2 ^ 298), Nat.cast_natAbs, Int.cast_abs]

theorem le_exact_iff (k a q : Nat) : (k : ℚ) * 2 ^ a ≤ (q : ℚ) / 2 ^ 298 ↔ k * 2 ^ (a + 298) ≤ q := by
  rw [le_div_iff₀ (by positivity), mul_assoc, ← pow_add]
  exact_mod_cast Iff.rfl

theorem lt_exact_iff (k a q : Nat) : (k : ℚ) * 2 ^ a < (q : ℚ) / 2 ^ 298 ↔ k * 2 ^ (a + 298) < q := by
  rw [lt_div_iff₀ (by positivity), mul_assoc, ← pow_add]
  exact_mod_cast Iff.rfl

/-- The exponent passes 127 exactly when the value reaches what rule R144 says overflows in each rounding mode:
half a unit below 2^128, above the largest finite number, or 2^128. -/
theorem exp24_overflow_iff {r : Int} (hr : r ≠ 0) (rc : RoundMode) :
    127 < exp24 r.natAbs rc (decide (r < 0)) ↔ (rc = .rn ∧ (2 ^ 25 - 1) * 2 ^ 103 ≤ |exactRational r|)
      ∨ ((rc = .ru ∧ 0 < r ∨ rc = .rd ∧ r < 0) ∧ (2 ^ 24 - 1) * 2 ^ 104 < |exactRational r|)
      ∨ (2 : ℚ) ^ 128 ≤ |exactRational r| := by
  have hhalf : (2 ^ 25 - 1) * 2 ^ 103 ≤ |exactRational r| ↔ (2 ^ 25 - 1) * 2 ^ (103 + 298) ≤ r.natAbs := by
    rw [abs_exactRational, ← le_exact_iff]
    norm_num
  have hmax : (2 ^ 24 - 1) * 2 ^ 104 < |exactRational r| ↔ (2 ^ 25 - 2) * 2 ^ (103 + 298) < r.natAbs := by
    rw [abs_exactRational, ← lt_exact_iff]
    norm_num
  have htop : (2 : ℚ) ^ 128 ≤ |exactRational r| ↔ 2 ^ 25 * 2 ^ (103 + 298) ≤ r.natAbs := by
    rw [abs_exactRational, ← le_exact_iff]
    norm_num
  have hexp : (127 : Int) = ((103 + 298 : Nat) : Int) + 24 - 298 := by norm_num
  rw [hhalf, hmax, htop, ← away_iff hr, hexp]
  exact exp24_gt_iff_bounds (Int.natAbs_ne_zero.2 hr) (103 + 298) rc (decide (r < 0))

/-! ### Patterns built from a sign and 31 bits -/

theorem getLsbD_withSign (neg : Bool) (low : BitVec 31) (i : Nat) :
    (withSign neg low).getLsbD i = if i < 31 then low.getLsbD i else (BitVec.ofBool neg).getLsbD (i - 31) :=
  BitVec.getLsbD_append

theorem extract_withSign (neg : Bool) (low : BitVec 31) {start len : Nat} (h : start + len ≤ 31) :
    (withSign neg low).extractLsb' start len = low.extractLsb' start len := by
  ext i hi
  rw [BitVec.getElem_extractLsb', BitVec.getElem_extractLsb', getLsbD_withSign, if_pos (by omega)]

theorem signOf_withSign (neg : Bool) (low : BitVec 31) : signOf (withSign neg low) = neg := by
  rw [signOf, getLsbD_withSign]
  simp

theorem expOf_withSign (neg : Bool) (low : BitVec 31) : expOf (withSign neg low) = low.toNat / 2 ^ 23 := by
  have hlow := low.isLt
  rw [expOf, extract_withSign neg low (by decide), BitVec.extractLsb'_toNat, Nat.shiftRight_eq_div_pow]
  omega

theorem fracOf_withSign (neg : Bool) (low : BitVec 31) : fracOf (withSign neg low) = low.toNat % 2 ^ 23 := by
  rw [fracOf, extract_withSign neg low (by decide), BitVec.extractLsb'_toNat, Nat.shiftRight_zero]

theorem getLsbD_zero_of_fracOf {b : Lane} (h : fracOf b % 2 = 0) : b.getLsbD 0 = false := by
  have hfrac : fracOf b = b.toNat % 2 ^ 23 := by rw [fracOf, BitVec.extractLsb'_toNat, Nat.shiftRight_zero]
  rw [BitVec.getLsbD, Nat.testBit_zero, decide_eq_false_iff_not]
  omega

section

variable {md : Nat}

theorem ofNat_toNat_of_small (h : md ≤ 2 ^ 23) : (BitVec.ofNat 31 md).toNat = md :=
  Nat.mod_eq_of_lt (h.trans_lt (by decide))

/-- A denormal result that rounds up to `2^23` units is the smallest normal number. -/
theorem magnitude_withSign_small (h : md ≤ 2 ^ 23) (neg : Bool) :
    magnitude (withSign neg (BitVec.ofNat 31 md)) = md := by
  rw [magnitude, expOf_withSign, fracOf_withSign, ofNat_toNat_of_small h]
  obtain hlt | rfl := Nat.lt_or_eq_of_le h
  · rw [Nat.div_eq_of_lt hlt, if_pos rfl, Nat.mod_eq_of_lt hlt]
  · rfl

end

/-! ### Underflow (rule R145) -/

theorem round32_of_tiny {r : Int} {rc : RoundMode} (h : exp24 r.natAbs rc (decide (r < 0)) < -126)
    (ftz um om : Bool) :
    round32 r rc ftz um om = underflow r.natAbs (decide (r < 0)) rc ftz um (inexact24 r.natAbs) := by
  rw [round32_eq, if_neg (by omega), if_pos h]

theorem overflow_ue (neg : Bool) (rc : RoundMode) (om inexact : Bool) : (overflow neg rc om inexact).2.ue = false := by
  cases om <;> simp [overflow]

/-- `UE` only with an exponent after rounding below -126. -/
theorem round32_ue_of_not_tiny {r : Int} {rc : RoundMode} (h : ¬ exp24 r.natAbs rc (decide (r < 0)) < -126)
    (ftz um om : Bool) : (round32 r rc ftz um om).2.ue = false := by
  by_cases ho : 127 < exp24 r.natAbs rc (decide (r < 0))
  · rw [round32_of_overflow ho]
    exact overflow_ue _ _ _ _
  · rw [round32_eq, if_neg ho, if_neg h]
    rfl

theorem underflow_unmasked (q : Nat) (neg : Bool) (rc : RoundMode) (ftz inexact : Bool) :
    underflow q neg rc ftz false inexact = (none, { FpFlags.empty with ue := true, pe := inexact }) := rfl

theorem underflow_flushed (q : Nat) (neg : Bool) (rc : RoundMode) (inexact : Bool) :
    underflow q neg rc true true inexact = (some (zeroOf neg), { FpFlags.empty with ue := true, pe := true }) := rfl

theorem underflow_denormalised (q : Nat) (neg : Bool) (rc : RoundMode) (inexact : Bool) :
    underflow q neg rc false true inexact
      = (some (withSign neg (BitVec.ofNat 31 (rInt q (2 ^ 149) rc neg))),
          { FpFlags.empty with ue := q % 2 ^ 149 != 0, pe := q % 2 ^ 149 != 0 }) := rfl

/-- The exponent stays below -126 exactly when the value is below what rule R145 says is tiny in each rounding
mode. -/
theorem exp24_tiny_iff {r : Int} (hr : r ≠ 0) (rc : RoundMode) :
    exp24 r.natAbs rc (decide (r < 0)) < -126 ↔ (rc = .rn ∧ r.natAbs < 2 ^ 172 - 2 ^ 147)
      ∨ ((rc = .ru ∧ 0 < r ∨ rc = .rd ∧ r < 0) ∧ r.natAbs ≤ 2 ^ 172 - 2 ^ 148)
      ∨ (rc ≠ .rn ∧ ¬ (rc = .ru ∧ 0 < r ∨ rc = .rd ∧ r < 0) ∧ r.natAbs < 2 ^ 172) := by
  have hexp := exp24_gt_iff_bounds (Int.natAbs_ne_zero.2 hr) 147 rc (decide (r < 0))
  rw [← not_iff_not, ← away_iff hr, show ¬ exp24 r.natAbs rc (decide (r < 0)) < -126
    ↔ ((147 : Nat) : Int) + 24 - 298 < exp24 r.natAbs rc (decide (r < 0)) by omega, hexp]
  generalize r.natAbs = q
  by_cases hn : rc = .rn
  · subst hn
    simp only [not_away_rn, true_and, false_and, false_or, ne_eq, not_true_eq_false, or_false]
    omega
  · by_cases ha : Away rc (decide (r < 0)) <;>
    · simp only [hn, ha, true_and, false_and, false_or, or_false, not_true_eq_false, not_false_eq_true, ne_eq]
      omega

/-- A tiny magnitude rounds to at most `2^23` units of 2^-149. -/
theorem rInt_le_of_tiny {q : Nat} {rc : RoundMode} {neg : Bool} (hq : q ≠ 0) (h : exp24 q rc neg < -126) :
    rInt q (2 ^ 149) rc neg ≤ 2 ^ 23 := by
  have hbound : ¬ 2 ^ 25 * 2 ^ 147 ≤ q := fun hle => by
    have := (exp24_gt_iff_bounds hq 147 rc neg).2 (.inr (.inr hle))
    omega
  have hdiv : q / 2 ^ 149 < 2 ^ 23 := by
    rw [Nat.div_lt_iff_lt_mul (Nat.two_pow_pos _)]
    omega
  exact (rInt_le _ _ rc neg).trans hdiv

/-! ### The obligations -/

/-- Settles O33: the exponent after rounding decides whether there is an overflow. -/
theorem overflowRule : Obligations.OverflowRule := by
  intro r rc ftz um om hr v away big out
  have hbig : 127 < exp24 r.natAbs rc (decide (r < 0)) ↔ big := exp24_overflow_iff hr rc
  have haway : Away rc (decide (r < 0)) ↔ away := away_iff hr rc
  have hout : big → out = overflow (decide (r < 0)) rc om (inexact24 r.natAbs) := fun h =>
    round32_of_overflow (hbig.2 h) ftz um om
  refine ⟨(round32_oe_iff r rc ftz um om).trans hbig, fun h hom => ?_, fun h hom => ?_⟩
  · rw [hout h, hom, ← haway]
    refine ⟨overflow_masked _ _ _, fun hinf => ?_, fun hfin => ?_⟩
    · rw [overflow_masked_infinity hinf, infinity_eq]
      simp
    · rw [overflow_masked_maxFinite hfin, maxFinite_eq]
      simp
  · rw [hout h, hom]
    exact ⟨rfl, rfl, inexact24_eq_false_iff (Int.natAbs_ne_zero.2 hr)⟩

/-- Settles O34: the exponent after rounding decides whether the result is tiny. -/
theorem underflowRule : Obligations.UnderflowRule := by
  intro r rc ftz um om hr q away tiny out
  have htiny : exp24 q rc (decide (r < 0)) < -126 ↔ tiny := exp24_tiny_iff hr rc
  have hq : q ≠ 0 := Int.natAbs_ne_zero.2 hr
  have hout : tiny → out = underflow q (decide (r < 0)) rc ftz um (inexact24 q) := fun h =>
    round32_of_tiny (htiny.2 h) ftz um om
  refine ⟨fun h => round32_ue_of_not_tiny (mt htiny.1 h) ftz um om, fun h hum => ?_, fun h hum hftz => ?_,
    fun h hum hftz => ?_⟩
  · rw [hout h, hum, underflow_unmasked]
    exact ⟨rfl, rfl, inexact24_eq_false_iff hq⟩
  · rw [hout h, hum, hftz, underflow_flushed, zeroOf_eq]
    simp
  · have hmag := magnitude_withSign_small (rInt_le_of_tiny hq (htiny.2 h)) (decide (r < 0))
    have hlost : (q % 2 ^ 149 != 0) = decide (rInt q (2 ^ 149) rc (decide (r < 0)) * 2 ^ 149 ≠ q) := by
      rw [Bool.eq_iff_iff, bne_iff_ne, decide_eq_true_eq, ne_eq, ne_eq, rInt_mul_eq_iff]
    refine ⟨_, ?_, signOf_withSign _ _, ?_, hmag⟩
    · rw [hout h, hum, hftz, underflow_denormalised, hmag, hlost]
    · rw [hmag]
      exact rInt_le_of_tiny hq (htiny.2 h)

end Sys2Proof.Machine
end

section
/-!
PROOFS. A result of `Round32` that does not overflow is the best single-precision number in its rounding mode
(O32).
-/

namespace Sys2Proof.Machine

/-! ### Rounding is the best choice on a grid -/

/-- The magnitude `c` is a multiple of `den`, or below a multiple that is not above the value. -/
def OnGrid (den num c : Nat) : Prop := den ∣ c ∨ ∃ k, c < k * den ∧ k * den ≤ num

section

variable {num den c : Nat} {rc : RoundMode} {neg : Bool}

/-- Rounded toward zero: the largest number of the grid not above the value. -/
theorem rInt_best_below (hn : rc ≠ .rn) (ha : ¬ Away rc neg) (hd : 0 < den) :
    rInt num den rc neg * den ≤ num ∧ (OnGrid den num c → c ≤ num → c ≤ rInt num den rc neg * den) := by
  rw [rInt_eq_div hn ha]
  have hfloor : ∀ k, k * den ≤ num → k * den ≤ num / den * den := fun k hk =>
    Nat.mul_le_mul_right den ((Nat.le_div_iff_mul_le hd).2 hk)
  refine ⟨Nat.div_mul_le_self num den, fun hg hc => ?_⟩
  obtain ⟨k, rfl⟩ | ⟨k, hck, hk⟩ := hg
  · rw [Nat.mul_comm] at hc ⊢
    exact hfloor k hc
  · exact hck.le.trans (hfloor k hk)

/-- Rounded away from zero: the smallest number of the grid not below the value. -/
theorem rInt_best_above (ha : Away rc neg) (hd : 0 < den) :
    num ≤ rInt num den rc neg * den ∧ (OnGrid den num c → num ≤ c → rInt num den rc neg * den ≤ c) := by
  obtain ⟨hlo, hhi⟩ := rInt_away_bounds (num := num) hd ha
  refine ⟨hlo, fun hg hc => ?_⟩
  obtain ⟨k, rfl⟩ | ⟨k, hck, hk⟩ := hg
  · rw [Nat.mul_comm den k] at hc ⊢
    refine Nat.mul_le_mul_right den (Nat.lt_succ_iff.1 (Nat.lt_of_mul_lt_mul_right (a := den) ?_))
    rw [Nat.succ_mul]
    omega
  · omega

/-- Rounded to nearest: no number of the grid is nearer, and another one is as near only when the number of units
is even. -/
theorem rInt_best_nearest (hd : 0 < den) (neg : Bool) (hg : OnGrid den num c) :
    ((rInt num den .rn neg * den : Nat) - num : Int).natAbs ≤ ((c : Int) - num).natAbs
      ∧ (((rInt num den .rn neg * den : Nat) - num : Int).natAbs = ((c : Int) - num).natAbs →
        c = rInt num den .rn neg * den ∨ rInt num den .rn neg % 2 = 0) := by
  obtain ⟨hlo, hhi, htie⟩ := rInt_nearest_bounds (num := num) hd neg
  have hother : ∀ k, k * den = rInt num den .rn neg * den ∨ k * den + den ≤ rInt num den .rn neg * den
      ∨ rInt num den .rn neg * den + den ≤ k * den := fun k => by
    rw [← Nat.succ_mul, ← Nat.succ_mul]
    obtain h | rfl | h := Nat.lt_trichotomy k (rInt num den .rn neg)
    · exact .inr (.inl (Nat.mul_le_mul_right den h))
    · exact .inl rfl
    · exact .inr (.inr (Nat.mul_le_mul_right den h))
  obtain ⟨k, rfl⟩ | ⟨k, hck, hk⟩ := hg
  · rw [Nat.mul_comm den k]
    have := hother k
    omega
  · have := hother k
    omega

end

/-- Every pattern's magnitude is on the grid whose unit is the 24th bit of the value, or no larger than that of the
format, 2^-149. -/
theorem onGrid_of_lane {s q : Nat} (h : s ≤ 149 ∨ 2 ^ (s + 23) ≤ q) (c : Lane) :
    OnGrid (2 ^ s) q (magnitude c * 2 ^ 149) := by
  obtain hs | ⟨t, rfl⟩ : s ≤ 149 ∨ ∃ t, s = t + 149 := (Nat.le_total s 149).imp id fun h =>
    ⟨_, (Nat.sub_add_cancel h).symm⟩
  · exact .inl (Dvd.dvd.mul_left (Nat.pow_dvd_pow 2 hs) _)
  rw [OnGrid, Nat.pow_add, Nat.mul_dvd_mul_iff_right (Nat.two_pow_pos _)]
  by_cases hdvd : 2 ^ t ∣ magnitude c
  · exact .inl hdvd
  have ht : t ≠ 0 := by
    rintro rfl
    exact hdvd (one_dvd _)
  have hf := fracOf_lt c
  have hlt : magnitude c < 2 ^ 23 * 2 ^ t := by
    by_cases he : expOf c = 0
    · rw [magnitude_of_exp_zero he]
      exact hf.trans_le (Nat.le_mul_of_pos_right _ (Nat.two_pow_pos _))
    · rw [magnitude_of_normal he] at hdvd ⊢
      have hexp : expOf c - 1 < t := Nat.lt_of_not_le fun hle => hdvd (Dvd.dvd.mul_left (Nat.pow_dvd_pow 2 hle) _)
      calc (2 ^ 23 + fracOf c) * 2 ^ (expOf c - 1)
          < 2 ^ 24 * 2 ^ (expOf c - 1) := Nat.mul_lt_mul_of_pos_right (by omega) (Nat.two_pow_pos _)
        _ = 2 ^ 23 * 2 ^ (expOf c - 1 + 1) := by rw [Nat.pow_succ 2 (expOf c - 1)]; ring
        _ ≤ 2 ^ 23 * 2 ^ t := Nat.mul_le_mul_left _ (Nat.pow_le_pow_right (by decide) hexp)
  refine .inr ⟨2 ^ 23, ?_, ?_⟩
  · rw [← Nat.mul_assoc]
    exact Nat.mul_lt_mul_of_pos_right hlt (Nat.two_pow_pos _)
  · obtain h | h := h
    · omega
    · rwa [← Nat.pow_add, ← Nat.pow_add, Nat.add_comm]

/-! ### What `Round32` gives without overflow -/

/-- `b` is the finite pattern of the sign `neg` whose magnitude is `q` rounded once to a multiple of `2^s`, in units
of 2^-298; `2^s` is the 24th bit of `q` or less than a unit of the format, and an even number of units makes an even
pattern. -/
structure RoundedTo (q : Nat) (rc : RoundMode) (neg : Bool) (s : Nat) (b : Lane) : Prop where
  finite : FinitePattern b
  sign : signOf b = neg
  value : magnitude b * 2 ^ 149 = rInt q (2 ^ s) rc neg * 2 ^ s
  even : rInt q (2 ^ s) rc neg % 2 = 0 → b.getLsbD 0 = false
  grid : s ≤ 149 ∨ 2 ^ (s + 23) ≤ q

/-- The fields of a normal pattern from its exponent and significand. -/
theorem withSign_fields {e sig : Nat} (he : e < 256) (hlo : 2 ^ 23 ≤ sig) (hhi : sig < 2 ^ 24) (neg : Bool) :
    expOf (withSign neg (BitVec.ofNat 8 e ++ BitVec.ofNat 23 (sig - 2 ^ 23))) = e
      ∧ fracOf (withSign neg (BitVec.ofNat 8 e ++ BitVec.ofNat 23 (sig - 2 ^ 23))) = sig - 2 ^ 23 := by
  have hfrac : sig - 2 ^ 23 < 2 ^ 23 := by omega
  have hlow : (BitVec.ofNat 8 e ++ BitVec.ofNat 23 (sig - 2 ^ 23)).toNat = e * 2 ^ 23 + (sig - 2 ^ 23) := by
    rw [BitVec.toNat_append, BitVec.toNat_ofNat, BitVec.toNat_ofNat, Nat.mod_eq_of_lt he, Nat.mod_eq_of_lt hfrac,
      ← Nat.shiftLeft_add_eq_or_of_lt hfrac, Nat.shiftLeft_eq]
  rw [expOf_withSign, fracOf_withSign, hlow]
  omega

/-- A normal pattern whose significand is `sig` units of its last bit. -/
theorem withSign_rounded {q s e sig : Nat} {rc : RoundMode} (he : e < 254) (hlo : 2 ^ 23 ≤ sig) (hhi : sig < 2 ^ 24)
    (neg : Bool) (hval : sig * 2 ^ (e + 149) = rInt q (2 ^ s) rc neg * 2 ^ s)
    (heven : rInt q (2 ^ s) rc neg % 2 = 0 → sig % 2 = 0) (hgrid : 2 ^ (s + 23) ≤ q) :
    RoundedTo q rc neg s (withSign neg (BitVec.ofNat 8 (e + 1) ++ BitVec.ofNat 23 (sig - 2 ^ 23))) := by
  obtain ⟨hexp, hfrac⟩ := withSign_fields (show e + 1 < 256 by omega) hlo hhi neg
  refine ⟨?_, signOf_withSign _ _, ?_, fun h => getLsbD_zero_of_fracOf ?_, .inr hgrid⟩
  · rw [FinitePattern, hexp]
    omega
  · rw [magnitude_of_normal (by omega), hexp, hfrac, ← hval, Nat.pow_add, Nat.add_sub_cancel' hlo, Nat.mul_assoc]
    rfl
  · have := heven h
    omega

/-- A result that is neither an overflow nor tiny is rounded to its 24th bit, also where that carries. -/
theorem normalResult_rounded {q : Nat} (hq : q ≠ 0) {rc : RoundMode} {neg : Bool} (hhi : ¬ 127 < exp24 q rc neg)
    (hlo : ¬ exp24 q rc neg < -126) :
    ∃ s, q.log2 = s + 23 ∧ RoundedTo q rc neg s (normalResult q rc neg) := by
  have hsig_lo := le_sig24 hq rc neg
  have hsig_hi := sig24_le q rc neg
  rw [exp24] at hhi hlo
  obtain ⟨t, ht⟩ : ∃ t, q.log2 = t + 148 + 23 :=
    ⟨q.log2 - 171, by split at hlo <;> omega⟩
  refine ⟨t + 148, ht, ?_⟩
  have hgrid : 2 ^ (t + 148 + 23) ≤ q := ht ▸ pow_log2_le hq
  have hsig := sig24_eq ht rc neg
  rw [normalResult, exp24]
  by_cases hcarry : sig24 q rc neg = 2 ^ 24
  · simp only [hcarry, beq_self_eq_true, if_true] at hhi hlo ⊢
    rw [show ((q.log2 : Int) - 298 + 1 + 127).toNat = t + 1 by omega]
    refine withSign_rounded (by omega) (by decide) (by decide) neg ?_ (fun _ => by decide) hgrid
    rw [← hsig, hcarry, ← Nat.pow_add, ← Nat.pow_add]
    congr 1
    omega
  · simp only [beq_eq_false_iff_ne.2 hcarry, Bool.false_eq_true, if_false] at hhi hlo ⊢
    obtain ⟨e, rfl⟩ : ∃ e, t = e + 1 := ⟨t - 1, by omega⟩
    rw [show ((q.log2 : Int) - 298 + 0 + 127).toNat = e + 1 by omega]
    refine withSign_rounded (by omega) hsig_lo (by omega) neg ?_ (fun h => hsig ▸ h) hgrid
    rw [← hsig, show e + 1 + 148 = e + 149 by omega]

/-- A denormalised result is rounded to the unit of the format. -/
theorem denormalResult_rounded {q : Nat} (hq : q ≠ 0) {rc : RoundMode} {neg : Bool} (h : exp24 q rc neg < -126) :
    RoundedTo q rc neg 149 (withSign neg (BitVec.ofNat 31 (rInt q (2 ^ 149) rc neg))) := by
  have hle := rInt_le_of_tiny hq h
  have hlow := ofNat_toNat_of_small hle
  refine ⟨?_, signOf_withSign _ _, ?_, fun heven => getLsbD_zero_of_fracOf ?_, .inl (Nat.le_refl _)⟩
  · rw [FinitePattern, expOf_withSign, hlow]
    omega
  · rw [magnitude_withSign_small hle]
  · rw [fracOf_withSign, hlow]
    omega

/-- With underflow and overflow masked, no flushing and no overflow, the exact value is rounded once, and `PE` says
whether that changes it. -/
theorem round32_rounded {r : Int} (hr : r ≠ 0) {rc : RoundMode} {b : Lane} {post : FpFlags}
    (h : round32 r rc false true true = (some b, post)) (hoe : post.oe = false) :
    ∃ s, RoundedTo r.natAbs rc (decide (r < 0)) s b ∧ (post.pe = true ↔ r.natAbs % 2 ^ s ≠ 0) := by
  have hq : r.natAbs ≠ 0 := Int.natAbs_ne_zero.2 hr
  have hover : ¬ 127 < exp24 r.natAbs rc (decide (r < 0)) := fun ho => by
    have := (round32_oe_iff r rc false true true).2 ho
    rw [h] at this
    exact Bool.false_ne_true (hoe.symm.trans this)
  by_cases ht : exp24 r.natAbs rc (decide (r < 0)) < -126
  · rw [round32_of_tiny ht, underflow_denormalised, Prod.mk.injEq, Option.some_inj] at h
    obtain ⟨rfl, rfl⟩ := h
    exact ⟨149, denormalResult_rounded hq ht, bne_iff_ne⟩
  · rw [round32_eq, if_neg hover, if_neg ht, Prod.mk.injEq, Option.some_inj] at h
    obtain ⟨rfl, rfl⟩ := h
    obtain ⟨s, hs, hrounded⟩ := normalResult_rounded hq hover ht
    refine ⟨s, hrounded, bne_iff_ne.trans ?_⟩
    rw [hs, Nat.pow_add, Nat.mul_mod_mul_right]
    simp

/-! ### Signed values -/

/-- The value of a pattern in units of 2^-298. -/
def exactUnits (b : Lane) : Int := scaledValue b * 2 ^ 149

theorem exactUnits_eq (b : Lane) :
    exactUnits b = if signOf b then -((magnitude b * 2 ^ 149 : Nat) : Int)
      else ((magnitude b * 2 ^ 149 : Nat) : Int) := by
  rw [exactUnits, scaledValue]
  split <;> push_cast <;> ring

theorem laneValue_eq_units (b : Lane) : laneValue b = (exactUnits b : ℚ) / 2 ^ 298 := by
  have hunit : (2 : ℚ) ^ 298 = 2 ^ 149 * 2 ^ 149 := by rw [← pow_add]
  rw [laneValue, exactUnits, hunit, Int.cast_mul, Int.cast_pow, Int.cast_ofNat, mul_div_mul_right _ _ (by positivity)]

theorem laneValue_le_iff (b c : Lane) : laneValue b ≤ laneValue c ↔ exactUnits b ≤ exactUnits c := by
  rw [laneValue_eq_units, laneValue_eq_units, div_le_div_iff_of_pos_right (by positivity), Int.cast_le]

theorem laneValue_le_exact_iff (b : Lane) (r : Int) : laneValue b ≤ exactRational r ↔ exactUnits b ≤ r := by
  rw [laneValue_eq_units, exactRational, div_le_div_iff_of_pos_right (by positivity), Int.cast_le]

theorem exact_le_laneValue_iff (b : Lane) (r : Int) : exactRational r ≤ laneValue b ↔ r ≤ exactUnits b := by
  rw [laneValue_eq_units, exactRational, div_le_div_iff_of_pos_right (by positivity), Int.cast_le]

theorem laneValue_eq_exact_iff (b : Lane) (r : Int) : laneValue b = exactRational r ↔ exactUnits b = r := by
  rw [le_antisymm_iff, laneValue_le_exact_iff, exact_le_laneValue_iff, ← le_antisymm_iff]

theorem laneValue_eq_iff (b c : Lane) : laneValue b = laneValue c ↔ exactUnits b = exactUnits c := by
  rw [le_antisymm_iff, laneValue_le_iff, laneValue_le_iff, ← le_antisymm_iff]

theorem abs_laneValue_units (b : Lane) : |laneValue b| = ((exactUnits b).natAbs : ℚ) / 2 ^ 298 := by
  rw [laneValue_eq_units]
  exact abs_exactRational _

theorem abs_laneValue_sub (b : Lane) (r : Int) :
    |laneValue b - exactRational r| = ((exactUnits b - r).natAbs : ℚ) / 2 ^ 298 := by
  rw [laneValue_eq_units, exactRational, ← sub_div, ← Int.cast_sub]
  exact abs_exactRational _

theorem natCast_units_le_iff (m n : Nat) : (m : ℚ) / 2 ^ 298 ≤ (n : ℚ) / 2 ^ 298 ↔ m ≤ n := by
  rw [div_le_div_iff_of_pos_right (by positivity), Nat.cast_le]

theorem natCast_units_inj (m n : Nat) : (m : ℚ) / 2 ^ 298 = (n : ℚ) / 2 ^ 298 ↔ m = n := by
  rw [le_antisymm_iff, natCast_units_le_iff, natCast_units_le_iff, ← le_antisymm_iff]

/-- Neither integer is of the other's sign. -/
def SameSide (x r : Int) : Prop := 0 ≤ x ∧ 0 ≤ r ∨ x ≤ 0 ∧ r ≤ 0

theorem SameSide.natAbs_sub {x r : Int} (h : SameSide x r) :
    (x - r).natAbs = ((x.natAbs : Int) - r.natAbs).natAbs := by
  obtain ⟨hx, hr⟩ | ⟨hx, hr⟩ := h <;> omega

theorem SameSide.eq_of_natAbs {x y r : Int} (hx : SameSide x r) (hr : r ≠ 0) (hy : SameSide y r)
    (h : x.natAbs = y.natAbs) : x = y := by
  unfold SameSide at hx hy
  omega

theorem sameSide_or_natAbs_sub (x r : Int) : SameSide x r ∨ (x - r).natAbs = x.natAbs + r.natAbs := by
  unfold SameSide
  omega

/-! ### The four rounding modes on signed values -/

section

variable {r : Int} {rc : RoundMode} {s : Nat} {b : Lane}

/-- The rounded value has the magnitude of the exact one rounded, and is not of the other sign. -/
theorem RoundedTo.units (h : RoundedTo r.natAbs rc (decide (r < 0)) s b) :
    (exactUnits b).natAbs = rInt r.natAbs (2 ^ s) rc (decide (r < 0)) * 2 ^ s
      ∧ (r < 0 → exactUnits b ≤ 0) ∧ (0 < r → 0 ≤ exactUnits b) := by
  have hunits := exactUnits_eq b
  rw [h.sign, h.value] at hunits
  simp only [decide_eq_true_eq] at hunits
  split at hunits <;> omega

theorem onGrid_units (h : RoundedTo r.natAbs rc (decide (r < 0)) s b) (c : Lane) :
    OnGrid (2 ^ s) r.natAbs (exactUnits c).natAbs := by
  have hunits : (exactUnits c).natAbs = magnitude c * 2 ^ 149 := by
    rw [exactUnits_eq]
    split <;> omega
  exact hunits ▸ onGrid_of_lane h.grid c

/-- Toward zero, no pattern within the exact magnitude is larger in magnitude. -/
theorem RoundedTo.best_below (h : RoundedTo r.natAbs rc (decide (r < 0)) s b) (hn : rc ≠ .rn)
    (ha : ¬ Away rc (decide (r < 0))) : (exactUnits b).natAbs ≤ r.natAbs
      ∧ ∀ c, (exactUnits c).natAbs ≤ r.natAbs → (exactUnits c).natAbs ≤ (exactUnits b).natAbs := by
  obtain ⟨hb, -, -⟩ := h.units
  rw [hb]
  exact ⟨(rInt_best_below (c := 0) hn ha (Nat.two_pow_pos s)).1, fun c =>
    (rInt_best_below hn ha (Nat.two_pow_pos s)).2 (onGrid_units h c)⟩

/-- Away from zero, no pattern beyond the exact magnitude is smaller in magnitude. -/
theorem RoundedTo.best_above (h : RoundedTo r.natAbs rc (decide (r < 0)) s b) (ha : Away rc (decide (r < 0))) :
    r.natAbs ≤ (exactUnits b).natAbs
      ∧ ∀ c, r.natAbs ≤ (exactUnits c).natAbs → (exactUnits b).natAbs ≤ (exactUnits c).natAbs := by
  obtain ⟨hb, -, -⟩ := h.units
  rw [hb]
  exact ⟨(rInt_best_above (c := 0) ha (Nat.two_pow_pos s)).1, fun c =>
    (rInt_best_above ha (Nat.two_pow_pos s)).2 (onGrid_units h c)⟩

/-- To nearest, no pattern is nearer, and another value is as near only when the pattern is even; a pattern of the
other sign is no nearer than zero. -/
theorem RoundedTo.best_nearest (h : RoundedTo r.natAbs .rn (decide (r < 0)) s b) (hr : r ≠ 0) (c : Lane) :
    (exactUnits b - r).natAbs ≤ (exactUnits c - r).natAbs
      ∧ ((exactUnits b - r).natAbs = (exactUnits c - r).natAbs →
        exactUnits c = exactUnits b ∨ b.getLsbD 0 = false) := by
  obtain ⟨hb, hneg, hpos⟩ := h.units
  have hside : SameSide (exactUnits b) r := by
    unfold SameSide
    omega
  obtain ⟨hc, hctie⟩ := rInt_best_nearest (Nat.two_pow_pos s) (decide (r < 0)) (onGrid_units h c)
  obtain ⟨h0, h0tie⟩ := rInt_best_nearest (Nat.two_pow_pos s) (decide (r < 0))
    (show OnGrid (2 ^ s) r.natAbs 0 from .inl (dvd_zero _))
  rw [← hb, ← hside.natAbs_sub] at hc hctie h0 h0tie
  obtain hsame | hother := sameSide_or_natAbs_sub (exactUnits c) r
  · rw [hsame.natAbs_sub]
    exact ⟨hc, fun e => (hctie e).imp (hsame.eq_of_natAbs hr hside) h.even⟩
  · rw [Nat.cast_zero, zero_sub, Int.natAbs_neg, Int.natAbs_natCast] at h0 h0tie
    rw [hother]
    refine ⟨h0.trans (Nat.le_add_left _ _), fun e => (h0tie ?_).imp (fun hb0 => ?_) h.even⟩
    · exact Nat.le_antisymm h0 (e ▸ Nat.le_add_left _ _)
    · have hc0 : (exactUnits c).natAbs = 0 := by
        rw [e] at h0
        exact Nat.le_zero.1 (Nat.le_of_add_le_add_right (h0.trans (Nat.zero_add _).ge))
      rw [Int.natAbs_eq_zero.1 hc0, Int.natAbs_eq_zero.1 hb0.symm]

end

/-! ### The obligations -/

/-- Settles O32: the value is rounded once on a grid that holds every finite pattern, toward zero, away from it or
to nearest. -/
theorem roundingIsCorrect : Obligations.RoundingIsCorrect := by
  intro r rc b post hr h hoe
  obtain ⟨s, hs, hpe⟩ := round32_rounded hr h hoe
  obtain ⟨hb, hneg, hpos⟩ := hs.units
  refine ⟨hs.finite, hs.sign, ?_, ?_⟩
  · rw [hpe, ne_eq, ne_eq, laneValue_eq_exact_iff, ← rInt_mul_eq_iff (rc := rc) (neg := decide (r < 0)), ← hb]
    omega
  have haway := away_iff hr rc
  cases rc with
  | rn =>
    intro c _
    obtain ⟨hle, htie⟩ := hs.best_nearest hr c
    rw [abs_laneValue_sub, abs_laneValue_sub, natCast_units_le_iff, natCast_units_inj, laneValue_eq_iff]
    exact ⟨hle, htie⟩
  | rz =>
    obtain ⟨hle, hbest⟩ := hs.best_below (by decide) (haway.not.2 (by simp))
    simp only [abs_laneValue_units, abs_exactRational, natCast_units_le_iff]
    exact ⟨hle, fun c _ => hbest c⟩
  | rd =>
    simp only [laneValue_le_exact_iff, laneValue_le_iff]
    by_cases hlt : r < 0
    · obtain ⟨hle, hbest⟩ := hs.best_above (haway.2 (.inr ⟨rfl, hlt⟩))
      refine ⟨by omega, fun c _ hc => ?_⟩
      have := hbest c
      omega
    · obtain ⟨hle, hbest⟩ := hs.best_below (by decide) (haway.not.2 (by simp [hlt]))
      refine ⟨by omega, fun c _ hc => ?_⟩
      have := hbest c
      omega
  | ru =>
    simp only [exact_le_laneValue_iff, laneValue_le_iff]
    by_cases hlt : 0 < r
    · obtain ⟨hle, hbest⟩ := hs.best_above (haway.2 (.inl ⟨rfl, hlt⟩))
      refine ⟨by omega, fun c _ hc => ?_⟩
      have := hbest c
      omega
    · obtain ⟨hle, hbest⟩ := hs.best_below (by decide) (haway.not.2 (by simp [hlt]))
      refine ⟨by omega, fun c _ hc => ?_⟩
      have := hbest c
      omega

end Sys2Proof.Machine
end

section
/-!
PROOFS. The reasons of `#UD` of the VEX rows and `#NM` of every row (O44, O47), what a fault of a step carries
(O51), and that it comes again in the state it carries (O52).
-/

namespace Sys2Proof.Machine

/-! ### A row that its gate stops -/

theorem vexFnmsub_of_gate {f : Form} {vl : VLen} {o : VexOperands} {s : State} {st : Stop}
    (h : gate s o.length false (vexUD s o.pre) = some st) : vexFnmsub f vl o s = st.result s := by
  rw [vexFnmsub, h]
  rfl

theorem evexFnmsub_of_gate {f : Form} {vl : VLen} {reserved : Bool} {o : EvexOperands} {s : State} {st : Stop}
    (h : gate s o.length (evexEncodingUD o.f || reserved) (evexStateUD s vl) = some st) :
    evexFnmsub f vl reserved o s = st.result s := by
  rw [evexFnmsub, h]
  rfl

theorem evexErFnmsub_of_gate {f : Form} {o : EvexErOperands} {s : State} {st : Stop}
    (h : gate s o.length (evexEncodingUD o.f) (evexStateUD s .l512) = some st) :
    evexErFnmsub f o s = st.result s := by
  rw [evexErFnmsub, h]
  rfl

theorem vexUD_iff (s : State) (p : Prefixes) :
    vexUD s p = true ↔ hasForbidden p = true ∨ stateUD s = true ∨ s.cfg.fma = false := by
  simp [vexUD, or_assoc]

/-! ### The state without `TS` -/

/-- The state with `CR0.TS` clear. -/
def withoutTS (s : State) : State := { s with cr0 := s.cr0 &&& ~~~0x8#64 }

@[simp] theorem withoutTS_cr0PE (s : State) : (withoutTS s).cr0PE = s.cr0PE := by
  simp [State.cr0PE, withoutTS]

@[simp] theorem withoutTS_mode (s : State) : (withoutTS s).mode = s.mode := by
  rw [State.mode, withoutTS_cr0PE]
  rfl

@[simp] theorem withoutTS_modeRefused (s : State) : modeRefused (withoutTS s) = modeRefused s := by
  rw [modeRefused, withoutTS_mode, modeRefused]

@[simp] theorem withoutTS_stateUD (s : State) : stateUD (withoutTS s) = stateUD s := by
  rw [stateUD, withoutTS_cr0PE]
  rfl

@[simp] theorem withoutTS_vexUD (s : State) (p : Prefixes) : vexUD (withoutTS s) p = vexUD s p := by
  rw [vexUD, withoutTS_stateUD]
  rfl

@[simp] theorem withoutTS_evexStateUD (s : State) (vl : VLen) : evexStateUD (withoutTS s) vl = evexStateUD s vl := by
  rw [evexStateUD, withoutTS_stateUD]
  rfl

/-- A gate that passes without `TS` raises `#NM` with it, for `TS` is the last thing it asks for (rules R226,
R233). -/
theorem gate_nm {s : State} {len : Nat} {e c : Bool} (hts : s.cr0TS = true)
    (h : gate (withoutTS s) len e c = none) : gate s len e c = some (.raise .nm) := by
  obtain ⟨hmode, hlen, hud, -⟩ := (gate_eq_none_iff _ _ _ _).1 h
  rw [withoutTS_modeRefused] at hmode
  simp [gate, hmode, hud, hts, Nat.not_lt.2 hlen]

theorem vexFnmsub_nm {f : Form} {vl : VLen} {o : VexOperands} {s : State} (hts : s.cr0TS = true)
    (hr : VexReady o (withoutTS s)) : vexFnmsub f vl o s = .fault (.nm s) :=
  vexFnmsub_of_gate (gate_nm hts (by simpa using vex_gate_none hr))

theorem evexFnmsub_nm {f : Form} {vl : VLen} {o : EvexOperands} {s : State} (hts : s.cr0TS = true)
    (hr : EvexReady vl o.f o.length (withoutTS s)) : evexFnmsub f vl false o s = .fault (.nm s) :=
  evexFnmsub_of_gate (gate_nm hts (by simpa using evex_gate_none hr))

theorem evexErFnmsub_nm {f : Form} {o : EvexErOperands} {s : State} (hts : s.cr0TS = true)
    (hr : EvexReady .l512 o.f o.length (withoutTS s)) : evexErFnmsub f o s = .fault (.nm s) :=
  evexErFnmsub_of_gate (gate_nm hts (by simpa using evex_gate_none hr))

/-! ### What a fault records -/

@[simp] theorem faultOf_state (c : Cause) (s : State) : (faultOf c s).state = s := by
  cases c <;> rfl

/-- The error codes of the seven exceptions (rules R220, R234). -/
theorem faultOf_errorCode (c : Cause) (s : State) :
    ((faultOf c s).vector = 6 ∨ (faultOf c s).vector = 7 ∨ (faultOf c s).vector = 19 →
        (faultOf c s).errorCode = none)
      ∧ ((faultOf c s).vector = 12 ∨ (faultOf c s).vector = 13 ∨ (faultOf c s).vector = 17 →
        (faultOf c s).errorCode = some 0#32) := by
  cases c <;> simp [faultOf, Fault.vector, Fault.errorCode]

theorem faultOf_address_isSome (c : Cause) (s : State) :
    (faultOf c s).address.isSome = true ↔ (faultOf c s).vector = 14 := by
  cases c <;> simp [faultOf, Fault.vector, Fault.address]

/-- A fault of a stop is an exception in the state it is asked in. -/
theorem stop_result_fault {st : Stop} {s : State} {f : Fault} (h : st.result s = .fault f) :
    ∃ c, f = faultOf c s := by
  cases st with
  | raise c => exact ⟨c, (Host.Outcome.fault.inj h).symm⟩
  | refuse c => simp [Stop.result, refuse] at h

/-- A fault of a step, from the fetch or from the instruction: an exception in the state before the step, or a SIMD
floating-point exception in that state but for flags of `MXCSR` (rule R238). -/
theorem step_fault {s : State} {f : Fault} (h : step s = .fault f) :
    (∃ c, f = faultOf c s)
      ∨ ∃ m, OnlyFlagsSet s.mxcsr m ∧ f = faultOf (if s.cr4OSXMMEXCPT then .xm else .ud) (s.setMxcsr m) := by
  obtain ⟨c, -, e⟩ | ⟨-, i, -, e⟩ | ⟨-, st, -, e⟩ := step_cases s <;> rw [e] at h
  · simp [refuse] at h
  · exact (exec_fault h).imp_left fun ⟨c, _, hf⟩ => ⟨c, hf⟩
  · exact .inl (stop_result_fault h)

/-- A SIMD floating-point exception is `#XM`, or `#UD` with `CR4.OSXMMEXCPT = 0` (rules R225, R231). -/
theorem faultOf_simd (s t : State) :
    faultOf (if s.cr4OSXMMEXCPT then .xm else .ud) t = .xm t
      ∨ faultOf (if s.cr4OSXMMEXCPT then .xm else .ud) t = .ud t ∧ s.cr4OSXMMEXCPT = false := by
  cases s.cr4OSXMMEXCPT
  · exact .inr ⟨rfl, rfl⟩
  · exact .inl rfl

/-! ### Controls that setting flags keeps -/

section

variable {m m' : BitVec 32}

theorem OnlyFlagsSet.getLsbD (h : OnlyFlagsSet m m') {n : Nat} (hn : 6 ≤ n) : m'.getLsbD n = m.getLsbD n := by
  obtain ⟨-, hcontrol, -⟩ := h
  by_cases hlt : n < 32
  · have hbit := congrArg (·.getLsbD (n - 6)) hcontrol
    simpa [show n - 6 < 26 by omega, show 6 + (n - 6) = n by omega] using hbit
  · rw [BitVec.getLsbD_of_ge _ _ (by omega), BitVec.getLsbD_of_ge _ _ (by omega)]

theorem OnlyFlagsSet.roundingMode (h : OnlyFlagsSet m m') : mxcsrRC m' = mxcsrRC m := by
  refine BitVec.eq_of_getLsbD_eq fun i hi => ?_
  simp [mxcsrRC, h.getLsbD (show 6 ≤ 13 + i by omega)]

theorem OnlyFlagsSet.unmasked (h : OnlyFlagsSet m m') (f : FpFlags) : unmasked m' f = unmasked m f := by
  simp only [Machine.unmasked, mxcsrIM, mxcsrDM, mxcsrOM, mxcsrUM, mxcsrPM, Nat.reduceLeDiff, h.getLsbD]

end

theorem setFlags_again (m : BitVec 32) (f : FpFlags) : setFlags (setFlags m f) f = setFlags m f := by
  rw [setFlags, setFlags, BitVec.or_assoc, BitVec.or_self]

/-- A report with an unmasked exception is the same once its flags are set: no mask changes, and the flags are
there already (rules R25, R148). -/
theorem packedFPReport_again {sae : Bool} {m m' : BitVec 32} {pre post : FpFlags}
    (h : packedFPReport sae m pre post = .trap m') :
    OnlyFlagsSet m m' ∧ packedFPReport sae m' pre post = .trap m' := by
  have hmask := fun f g => (onlyFlagsSet_setFlags m f).unmasked g
  unfold packedFPReport at h
  split_ifs at h with hsae hpre hpost <;> obtain rfl := FpReport.trap.inj h
  · exact ⟨onlyFlagsSet_setFlags _ _, by simp [packedFPReport, hsae, hmask, hpre, setFlags_again]⟩
  · exact ⟨onlyFlagsSet_setFlags _ _, by simp [packedFPReport, hsae, hmask, hpre, hpost, setFlags_again]⟩

/-! ### Faults that come again -/

/-- A fault of `row` in the state `s` carries `s` with flags of `MXCSR` set, and comes again in that state (rules
R231, R239). -/
def FaultRepeats (row : State → Result) (s : State) : Prop :=
  ∀ f, row s = .fault f → ∃ m, OnlyFlagsSet s.mxcsr m ∧ f.state = s.setMxcsr m ∧ row (s.setMxcsr m) = .fault f

section

variable {s : State}

/-- Checks that do not read `MXCSR` raise the same exception again, and pass again before what they let through. -/
theorem unlessStopped_repeats {check : State → Option Stop} {go : State → Result}
    (hcheck : ∀ m, check (s.setMxcsr m) = check s) (hgo : FaultRepeats go s) :
    FaultRepeats (fun t => unlessStopped (check t) t (go t)) s := by
  intro f h
  cases hc : check s with
  | none =>
    simp only [hcheck, hc, unlessStopped] at h ⊢
    exact hgo f h
  | some st =>
    have hstop : st.result s = .fault f := by simpa only [hc, unlessStopped] using h
    obtain ⟨c, rfl⟩ := stop_result_fault hstop
    exact ⟨s.mxcsr, onlyFlagsSet_refl _, faultOf_state c s, h⟩

/-- A lane reads the controls of `MXCSR` alone (rules R134, R136). -/
theorem computeLane_setFlags {m : BitVec 32} (hm : OnlyFlagsSet s.mxcsr m) (job : Job) (d s2 : VReg)
    (s3 : Nat → Lane) : computeLane job (s.setMxcsr m) d s2 s3 = computeLane job s d s2 s3 := by
  funext j
  simp only [computeLane, laneResult, mxcsrDAZ, mxcsrFTZ, mxcsrUM, mxcsrOM, setMxcsr_mxcsr, setMxcsr_cfg,
    Nat.reduceLeDiff, hm.getLsbD]

/-- A SIMD floating-point exception of operands that do not depend on `MXCSR` comes again: the lanes raise the same
flags, and the report is the same. -/
theorem runPacked_repeats {job : State → Job} {en : State → Nat → Bool} {d s2 : State → VReg}
    {s3 : State → Nat → Lane} (hjob : ∀ m, OnlyFlagsSet s.mxcsr m → job (s.setMxcsr m) = job s)
    (hen : ∀ m, en (s.setMxcsr m) = en s) (hd : ∀ m, d (s.setMxcsr m) = d s)
    (hs2 : ∀ m, s2 (s.setMxcsr m) = s2 s) (hs3 : ∀ m, s3 (s.setMxcsr m) = s3 s) :
    FaultRepeats (fun t => runPacked (job t) (en t) (d t) (s2 t) (s3 t) t) s := by
  intro f h
  simp only [runPacked] at h
  split at h
  · next m hreport =>
    obtain ⟨hm, hagain⟩ := packedFPReport_again hreport
    obtain rfl := Host.Outcome.fault.inj h
    refine ⟨m, hm, faultOf_state _ _, ?_⟩
    simp only [runPacked, hjob m hm, hen, hd, hs2, hs3, computeLane_setFlags hm, setMxcsr_mxcsr, hagain]
    rfl
  · simp at h

theorem vexJob_setFlags {m : BitVec 32} (hm : OnlyFlagsSet s.mxcsr m) (f : Form) (vl : VLen) (o : VexOperands) :
    vexJob f vl o (s.setMxcsr m) = vexJob f vl o s := by
  simp [vexJob, hm.roundingMode]

theorem evexJob_setFlags {m : BitVec 32} (hm : OnlyFlagsSet s.mxcsr m) (f : Form) (vl : VLen) (o : EvexOperands) :
    evexJob f vl o (s.setMxcsr m) = evexJob f vl o s := by
  simp [evexJob, hm.roundingMode]

theorem vexFnmsub_repeats (f : Form) (vl : VLen) (o : VexOperands) : FaultRepeats (vexFnmsub f vl o) s :=
  unlessStopped_repeats (fun _ => rfl) (unlessStopped_repeats (fun _ => rfl)
    (runPacked_repeats (fun _ hm => vexJob_setFlags hm f vl o) (fun _ => rfl) (fun _ => rfl) (fun _ => rfl)
      fun _ => rfl))

theorem evexFnmsub_repeats (f : Form) (vl : VLen) (reserved : Bool) (o : EvexOperands) :
    FaultRepeats (evexFnmsub f vl reserved o) s :=
  unlessStopped_repeats (fun _ => rfl) (unlessStopped_repeats (fun _ => rfl)
    (runPacked_repeats (fun _ hm => evexJob_setFlags hm f vl o) (fun _ => rfl) (fun _ => rfl) (fun _ => rfl)
      fun _ => rfl))

theorem evexErFnmsub_repeats (f : Form) (o : EvexErOperands) : FaultRepeats (evexErFnmsub f o) s :=
  unlessStopped_repeats (fun _ => rfl)
    (runPacked_repeats (fun _ _ => rfl) (fun _ => rfl) (fun _ => rfl) (fun _ => rfl) fun _ => rfl)

/-- Every fault of every instruction comes again in the state it carries. -/
theorem exec_repeats (i : Instr) : FaultRepeats (exec i) s := by
  obtain ⟨f, l, o, rfl⟩ | ⟨f, l', l, o, rfl⟩ | ⟨f, o, rfl⟩ := instr_cases i
  · rw [funext (exec_vexInstr f l o)]
    exact vexFnmsub_repeats _ _ o
  · rw [funext (exec_evexInstr f l' l o)]
    exact evexFnmsub_repeats _ _ _ o
  · rw [funext (exec_evexErInstr f o)]
    exact evexErFnmsub_repeats _ o

end

/-! ### The obligations -/

/-- Settles O44: each reason is one that the gate of a VEX row asks for. -/
theorem vexInvalidOpcodeReasons : Obligations.VexInvalidOpcodeReasons := by
  intro f l o s hp hc hl h
  rw [exec_vexInstr]
  refine vexFnmsub_of_gate (st := .raise .ud) (gate_ud hp hc hl ?_)
  rw [Bool.false_or, vexUD_iff, stateUD_iff, hasForbidden_iff]
  obtain h | h | h | h | h | h | h | h | h | h := h <;> simp [h]

/-- Settles O47: the gate of each row asks for `TS` after every `#UD` reason and before the operand. -/
theorem taskSwitchedRaisesDeviceNotAvailable : Obligations.TaskSwitchedRaisesDeviceNotAvailable :=
  ⟨fun f l o s hts hr => (exec_vexInstr f l o s).trans (vexFnmsub_nm hts hr),
    fun f o s hts hr => (exec_evexInstr f false false o s).trans (evexFnmsub_nm hts hr),
    fun f o s hts hr => (exec_evexInstr f false true o s).trans (evexFnmsub_nm hts hr),
    fun f o s hts hr => (exec_evexInstr f true false o s).trans (evexFnmsub_nm hts hr),
    fun f o s hts hr => (exec_evexErInstr f o s).trans (evexErFnmsub_nm hts hr)⟩

/-- Settles O51: a fault of a step is an exception in the state before it, or a SIMD floating-point exception in
that state but for flags of `MXCSR`; what is recorded is decided by the exception. -/
theorem faultsArePrecise : Obligations.FaultsArePrecise := by
  intro s f h
  obtain ⟨c, rfl⟩ | ⟨m, hm, rfl⟩ := step_fault h
  · obtain ⟨hnone, hzero⟩ := faultOf_errorCode c s
    exact ⟨.inl (faultOf_state c s), hnone, hzero, faultOf_address_isSome c s⟩
  · obtain ⟨hnone, hzero⟩ := faultOf_errorCode (if s.cr4OSXMMEXCPT then .xm else .ud) (s.setMxcsr m)
    refine ⟨.inr ⟨m, hm, faultOf_state _ _, ?_⟩, hnone, hzero, faultOf_address_isSome _ _⟩
    rw [faultOf_state]
    exact faultOf_simd s _

/-- Settles O52: the checks read no `MXCSR`, and a SIMD floating-point exception sets flags alone, which are set
again. -/
theorem faultsRepeat : Obligations.FaultsRepeat := by
  intro i s f h
  obtain ⟨m, -, hstate, hagain⟩ := exec_repeats i f h
  rw [hstate]
  exact hagain

end Sys2Proof.Machine
end

section
/-!
PROOFS. What every instruction answers straight after RESET (O3), the state that a launch from there leaves (O4),
and where a run ends that does not spend its step budget (O56).
-/

namespace Sys2Proof.Machine

/-! ### States in which every instruction is `#UD` -/

/-- A reason for `#UD` decides the gate in every mode with a rule for it, but for an instruction of more than fifteen
bytes (rules R102, R233). -/
theorem gate_of_classUD {s : State} {len : Nat} {e c : Bool} (hm : modeRefused s = false) (hc : c = true) :
    gate s len e c = some (.raise (if len ≤ 15 then .ud else .gp)) := by
  by_cases hl : len ≤ 15
  · simp [gate, hm, hc, hl, Nat.not_lt.2 hl]
  · simp [gate, hm, hl, Nat.lt_of_not_le hl]

theorem vexUD_of_stateUD {s : State} (h : stateUD s = true) (p : Prefixes) : vexUD s p = true :=
  (vexUD_iff s p).2 (.inr (.inl h))

theorem evexStateUD_of_stateUD {s : State} (h : stateUD s = true) (vl : VLen) : evexStateUD s vl = true :=
  (evexStateUD_iff s vl).2 (.inl h)

/-- The reasons for `#UD` that the control registers give hold of every row alike (rules R222, R223). -/
theorem exec_of_stateUD {s : State} (hm : modeRefused s = false) (h : stateUD s = true) (i : Instr) :
    exec i s = takeException (if i.length ≤ 15 then .ud else .gp) s := by
  obtain ⟨f, l, o, rfl⟩ | ⟨f, l', l, o, rfl⟩ | ⟨f, o, rfl⟩ := instr_cases i
  · rw [exec_vexInstr, vexInstr_length]
    exact vexFnmsub_of_gate (gate_of_classUD hm (vexUD_of_stateUD h o.pre))
  · rw [exec_evexInstr, evexInstr_length]
    exact evexFnmsub_of_gate (gate_of_classUD hm (evexStateUD_of_stateUD h _))
  · rw [exec_evexErInstr, evexErInstr_length]
    exact evexErFnmsub_of_gate (gate_of_classUD hm (evexStateUD_of_stateUD h _))

theorem takeException_ud_or_gp (p : Prop) [Decidable p] (s : State) :
    takeException (if p then .ud else .gp) s = .fault (if p then .ud s else .gp 0#32 s) := by
  split <;> rfl

theorem mode_realAddress_iff (s : State) : s.mode = .realAddress ↔ s.cr0PE = false := by
  unfold State.mode
  cases s.cr0PE with
  | false => simp
  | true =>
    rw [Bool.not_true, if_neg Bool.false_ne_true]
    split_ifs <;> simp

theorem reset_mode : State.reset.mode = .realAddress := (mode_realAddress_iff _).2 rfl

/-! ### The state a launch leaves -/

/-- What a launch does not touch of the registers and parameters that the invariant speaks of. -/
theorem launch_keeps (s : State) (bs : Bytes) :
    (s.launch bs).cfg = s.cfg ∧ (s.launch bs).vreg = s.vreg ∧ (s.launch bs).opmask = s.opmask := by
  unfold State.launch
  split <;> exact ⟨rfl, rfl, rfl⟩

/-- A launch keeps the invariant, whatever program it places. -/
theorem launch_inv {s : State} (hs : Inv s) (bs : Bytes) : Inv (s.launch bs) := by
  obtain ⟨hwf, -, hres, hvl, hv, hk⟩ := hs
  obtain ⟨hcfg, hvreg, hopmask⟩ := launch_keeps s bs
  unfold Inv
  rw [launch_mem, launch_prog, launch_mxcsr, hcfg, hvreg, hopmask]
  exact ⟨(withProgram_wf _ _).trans hwf, withProgram_holds _ _, hres, hvl, hv, hk⟩

/-- A launch from any other mode first enters the control state of rule R263. -/
theorem launch_of_not_bits64 {s : State} (h : s.mode ≠ .bits64) (bs : Bytes) :
    s.launch bs = placeProgram (enterLaunchControl s) bs := by
  simp [State.launch, h]

/-- The control bits of rule R263's defaults, whatever they were before. -/
theorem enterLaunchControl_bits (s : State) :
    (enterLaunchControl s).cr4OSXSAVE = true ∧ (enterLaunchControl s).cr0TS = false
      ∧ (enterLaunchControl s).cr4OSXMMEXCPT = true ∧ (enterLaunchControl s).cr0AM = false
      ∧ (enterLaunchControl s).rflagsAC = false := by
  simp [State.cr4OSXSAVE, State.cr0TS, State.cr4OSXMMEXCPT, State.cr0AM, State.rflagsAC]

/-! ### Refused steps -/

theorem refusalOf_eq_endOfProgram {c : RefusalCause} {s : State} (h : refusalOf c s = .endOfProgram s) :
    c = .endOfProgram := by
  cases c <;> simp [refusalOf] at h ⊢

theorem launchRefusal_ne_endOfProgram (s : State) : launchRefusal s ≠ some .endOfProgram := by
  unfold launchRefusal
  split_ifs <;> simp

theorem cutOff_ne_endOfProgram (l : FetchLimit) : cutOff l ≠ .refuse .endOfProgram := by
  cases l <;> simp [cutOff]

theorem decideLong_ne_endOfProgram (w : Bytes × FetchLimit) : decideLong w ≠ .refuse .endOfProgram := by
  obtain h | h | h | h | h := decideLong_cases w <;> simp [h]

theorem decodeFetched_ne_endOfProgram (w all : Bytes × FetchLimit) :
    decodeFetched w all ≠ .stop (.refuse .endOfProgram) := by
  unfold decodeFetched
  split
  · simp
  · simp
  · simp
  · split
    · simpa using cutOff_ne_endOfProgram w.2
    · simpa using decideLong_ne_endOfProgram all

/-- The fetch ends the run only where no byte of the program is left (rule R269 c). -/
theorem programFrom_of_fetch_at_end {s : State} (h : fetch s = .stop (.refuse .endOfProgram)) :
    programFrom s = some [] := by
  match hp : programFrom s with
  | some [] => rfl
  | some (b :: bs) =>
    rw [fetch_of_bytes hp (List.cons_ne_nil b bs)] at h
    exact absurd h (decodeFetched_ne_endOfProgram _ _)
  | none =>
    simp only [fetch, hp, Fetched.stop.injEq] at h
    split at h <;> simp at h

/-- A refused step carries the state before it, and is the end of the program only where no byte of the program is
left (rule R269 b, c). -/
theorem step_refused {s : State} {r : Refusal} (h : step s = .refused r) :
    ∃ c, r = refusalOf c s ∧ (c = .endOfProgram → s.mode = .bits64 ∧ programFrom s = some []) := by
  obtain ⟨c, hc, e⟩ | ⟨-, i, -, e⟩ | ⟨hl, st, hst, e⟩ := step_cases s <;> rw [e] at h
  · refine ⟨c, (Host.Outcome.refused.inj h).symm, ?_⟩
    rintro rfl
    exact absurd hc (launchRefusal_ne_endOfProgram s)
  · obtain rfl | rfl := exec_refused h
    · exact ⟨.unsupportedMode, rfl, nofun⟩
    · exact ⟨.operandWraps, rfl, nofun⟩
  · cases st with
    | raise c => simp [Stop.result, takeException] at h
    | refuse c =>
      obtain ⟨hmode, -, -⟩ := (launchRefusal_none_iff s).1 hl
      refine ⟨c, (Host.Outcome.refused.inj h).symm, ?_⟩
      rintro rfl
      exact ⟨hmode, programFrom_of_fetch_at_end hst⟩

/-- Where no byte of the program is left, `RIP` is the first address past it. -/
theorem rip_of_programFrom_nil {s : State} (hmode : s.mode = .bits64) (h : programFrom s = some []) :
    s.rip = s.prog.base + BitVec.ofNat 64 s.prog.bytes.length := by
  obtain ⟨hle, hdrop⟩ := programFrom_eq_some.1 h
  have hoff : (s.rip - s.prog.base).toNat = s.prog.bytes.length := by
    rw [fetchAddress_bits64 hmode] at hle hdrop
    exact Nat.le_antisymm hle (List.drop_eq_nil_iff.1 hdrop.symm)
  rw [← hoff, BitVec.ofNat_toNat, BitVec.setWidth_eq, add_sub_cancel]

/-! ### Where a run ends -/

/-- A run that does not complete has the outcome of the step at a state that a shorter run completes in. -/
theorem run_stopped {k : Nat} :
    ∀ {s : State} {o : Result}, (∀ t, o ≠ .next t) → Sys2Proof.core.run k s = o →
      ∃ j < k, ∃ t, Sys2Proof.core.run j s = .next t ∧ step t = o := by
  induction k with
  | zero => exact fun ho h => absurd h.symm (ho _)
  | succ k ih =>
    intro s o ho h
    cases hs : step s with
    | next s' =>
      rw [run_next hs] at h
      obtain ⟨j, hj, t, hrun, hstep⟩ := ih ho h
      exact ⟨j + 1, Nat.succ_lt_succ hj, t, (run_next hs).trans hrun, hstep⟩
    | fault f => exact ⟨0, Nat.succ_pos k, s, rfl, hs.trans ((run_fault hs).symm.trans h)⟩
    | refused r => exact ⟨0, Nat.succ_pos k, s, rfl, hs.trans ((run_refused hs).symm.trans h)⟩

/-! ### The obligations -/

/-- Settles O56: a run ends with the outcome of the step at a state it reaches, and a refused step carries that
state. -/
theorem runsEndWithTheState : Obligations.RunsEndWithTheState := by
  refine fun k s => ⟨fun f h => run_stopped (o := .fault f) nofun h, fun r h => ?_⟩
  obtain ⟨j, hj, t, hrun, hstep⟩ := run_stopped (o := .refused r) nofun h
  obtain ⟨c, rfl, hend⟩ := step_refused hstep
  refine ⟨j, hj, t, hrun, hstep, refusalOf_state c t, fun hr => ?_⟩
  obtain ⟨hmode, hnil⟩ := hend (refusalOf_eq_endOfProgram hr)
  exact rip_of_programFrom_nil hmode hnil

/-- Settles O3: real-address mode is a reason for `#UD` of every row, which only the length comes before. -/
theorem everyInstructionIsInvalidAfterReset : Obligations.EveryInstructionIsInvalidAfterReset := by
  have hud : stateUD State.reset = true := (stateUD_iff _).2 (.inl ((mode_realAddress_iff _).1 reset_mode))
  have hmode : modeRefused State.reset = false := by simp [modeRefused, reset_mode]
  refine ⟨reset_mode, rfl, rfl, ?_, fun i => ?_⟩
  · rw [fetchAddress, reset_mode]
    decide
  · rw [exec_of_stateUD hmode hud, takeException_ud_or_gp]

/-- Settles O4: reset is not in 64-bit mode, so the launch sets each control bit; the rest is as at reset, where the
invariant holds. -/
theorem launchGivesDefaultControlState : Obligations.LaunchGivesDefaultControlState := by
  intro bytes s
  have hinv : Inv s := launch_inv resetMeetsInvariant bytes
  have hs : s = placeProgram (enterLaunchControl State.reset) bytes :=
    launch_of_not_bits64 (by simp [reset_mode]) bytes
  have hmode : s.mode = .bits64 := launch_mode _ _
  have hrip : isCanonical s.rip = true :=
    (congrArg isCanonical (launch_rip _ _)).trans (by decide)
  obtain ⟨hosxsave, hts, hosxmmexcpt, ham, hac⟩ := enterLaunchControl_bits State.reset
  rw [hs] at hmode hrip hinv ⊢
  exact ⟨hmode, hosxsave, rfl, hts, hosxmmexcpt, ham, hac, rfl, rfl, rfl, rfl, hrip, rfl, hinv⟩

end Sys2Proof.Machine
end
